-- ==== Sys2Proof/Word.lean ====
section
/-! DEFINITION. The word of the XSM machine (00_scope R10): a number or a character string, with no bits and no bytes. -/

namespace Sys2Proof

/-- R10: a word is `Int(z)` or `Str(s)`; `Int(5)` and `Str("5")` are different words.  The bounds INT_MIN, INT_MAX and
WORD_CHARS are fields of `Config`: which words a machine has is `wordFits` of its configuration (log 6). -/
inductive Word where
  | int (z : Int)
  | str (s : List Char)
  deriving DecidableEq, Repr, Inhabited

/-- `Int(1)` for true and `Int(0)` for false: the result of the comparison instructions (R97 to R102). -/
def Word.ofBool (b : Bool) : Word := if b then .int 1 else .int 0

end Sys2Proof
end

