-- ==== Sys2Proof/Syntax.lean ====
section
/-! DEFINITION. The registers, the operand forms and the instructions: one constructor per row of spec/opcode_table.json (R173). -/

namespace Sys2Proof

/-- R13: the 29 registers and the four ports, by name. -/
inductive Reg where
  | gpr (i : Fin 20)
  | bp | sp | ip
  | ptbr | ptlr
  | eip | ec | epn | ema
  | port (i : Fin 4)
  deriving DecidableEq, Repr

/-- R21: the registers and ports whose access mode is "Privileged". -/
def Reg.privileged : Reg → Bool
  | .gpr _ | .bp | .sp | .ip => false
  | .ptbr | .ptlr | .eip | .ec | .epn | .ema | .port _ => true

/-- An operand a row writes `reg|imm`: the page and the block of a disk macro (R77). -/
inductive RegImm where
  | reg (r : Reg)
  | imm (z : Int)
  deriving DecidableEq, Repr

/-- R63: the operand forms. -/
inductive Operand where
  | reg (r : Reg)
  | imm (z : Int)
  | memReg (r : Reg)
  | memImm (z : Int)
  | str (cs : List Char)
  deriving DecidableEq, Repr

/-- The mnemonics of spec/opcode_table.json. -/
inductive Mnemonic where
  | mov | jmp | intr | loadi | load | store | out | inp | ini
  | add | sub | mul | div | mod | inr | dcr
  | lt | gt | eq | ne | ge | le
  | jz | jnz | push | pop | call | ret | nop | brkp
  | iret | halt | backup | restore | encrypt
  deriving DecidableEq, Repr

/-- The instructions.  `RegReg`, `RegImm` and the `mov` names say the shape of a mnemonic with several rows. -/
inductive Instr where
  | movRegReg (dst src : Reg)
  | movRegImm (dst : Reg) (n : Int)
  | movRegIndReg (dst a : Reg)
  | movRegIndImm (dst : Reg) (n : Int)
  | movIndRegReg (a src : Reg)
  | movIndImmReg (n : Int) (src : Reg)
  | jmp (target : Int)
  | intr (n : Int)
  | loadi (page block : RegImm)
  | load (page block : RegImm)
  | store (page block : RegImm)
  | consoleOut
  | consoleIn
  | consoleIni
  | movRegStr (dst : Reg) (chars : List Char)
  | addRegReg (ri rj : Reg)
  | addRegImm (ri : Reg) (n : Int)
  | subRegReg (ri rj : Reg)
  | subRegImm (ri : Reg) (n : Int)
  | mulRegReg (ri rj : Reg)
  | mulRegImm (ri : Reg) (n : Int)
  | divRegReg (ri rj : Reg)
  | divRegImm (ri : Reg) (n : Int)
  | modRegReg (ri rj : Reg)
  | modRegImm (ri : Reg) (n : Int)
  | inr (ri : Reg)
  | dcr (ri : Reg)
  | lt (ri rj : Reg)
  | gt (ri rj : Reg)
  | eq (ri rj : Reg)
  | ne (ri rj : Reg)
  | ge (ri rj : Reg)
  | le (ri rj : Reg)
  | jz (ri : Reg) (target : Int)
  | jnz (ri : Reg) (target : Int)
  | push (ri : Reg)
  | pop (ri : Reg)
  | call (target : Int)
  | ret
  | nop
  | brkp
  | iret
  | halt
  | backup
  | restore
  | encrypt (ri : Reg)
  deriving DecidableEq, Repr

end Sys2Proof
end

