-- ==== Sys2Proof/Config.lean ====
section
/-! DEFINITION. What an implementation or the environment fixes (00_scope R8, R9) and the free values of the spec (`any`). -/

namespace Sys2Proof

/-- R9: an open parameter: the spec's reference version of it, or one of which nothing is known but its contract. -/
inductive Parameter where
  | reference
  | opened
  deriving DecidableEq, Repr

/-- Which instructions write EIP, EC, EPN and EMA: every one that names them as its destination in PRIV mode (R88, and the rule of each
instruction), or MOV alone (R150).  No ruling settles it, and both are machines of the model (log 24). -/
inductive StatusWrites where
  | byName
  | byMov
  deriving DecidableEq, Repr

/-- The parameters of R8 and R9, BACKUP_ORDER of R114 and the ROM's words.  A machine carries its configuration unchanged (R32). -/
structure Config where
  /-- INT_MIN (R9). -/
  intMin : Int
  /-- INT_MAX (R9). -/
  intMax : Int
  /-- WORD_CHARS (R9). -/
  wordChars : Nat
  /-- XSM_TICKS (R8): `none` when the timer is not set. -/
  ticks : Option Nat
  /-- XSM_DTIME (R8). -/
  dtime : Nat
  /-- DEBUG (R9). -/
  debug : Bool
  /-- EC_PAGE_FAULT (R9, R148). -/
  ecPageFault : Word
  /-- EC_ILLEGAL_INSTR (R9, R148). -/
  ecIllegalInstr : Word
  /-- EC_ILLEGAL_MEM (R9, R148). -/
  ecIllegalMem : Word
  /-- EC_ARITH (R9, R148). -/
  ecArith : Word
  /-- BACKUP_ORDER (R114). -/
  backupOrder : List Reg
  /-- Decode (R9, R61, D4): the reference one is that of R62. -/
  decoder : Parameter
  /-- Translate (R9, R41, D8): the reference one is that of R120 to R123. -/
  translator : Parameter
  /-- ISA_EXT (R9, D4), the set: the supplement's instructions admitted, by mnemonic; `mov` stands for MOV's string form (log 18). -/
  isaExt : List Mnemonic
  /-- ISA_EXT (R9, D4), the semantics: the reference ones are those of R88 to R118 (log 18). -/
  isaMeaning : Parameter
  /-- Which instructions write the exception status registers (R88, R150; log 24). -/
  statusWrites : StatusWrites
  /-- M[0] and M[1] (R161): two words that Decode reads as the first boot instruction (log 23). -/
  romLoad : Word × Word
  /-- M[2] and M[3] (R161): two words that Decode reads as the second boot instruction (log 23). -/
  romJump : Word × Word
  deriving DecidableEq, Repr

/-- R114: BP first, then R0 up to R19, the order the spec recalls. -/
def Config.referenceBackupOrder : List Reg := .bp :: (List.finRange 20).map .gpr

/-- R87: the mnemonics of the whole supplement; `mov` stands for MOV's string form (R117). -/
def Config.referenceIsaExt : List Mnemonic :=
  [.mov, .add, .sub, .mul, .div, .mod, .inr, .dcr, .lt, .gt, .eq, .ne, .ge, .le, .jz, .jnz, .push, .pop, .call, .ret, .nop, .brkp,
    .iret, .halt, .backup, .restore, .encrypt]

/-- PRESUMED (logs 2, 18): the reference values of R9, R124 and R125 and the reference Decode, Translate and ISA_EXT, with DEBUG on.
The ROM holds the canonical texts (R62).  DESIGN CHOICE: statusWrites, which has R88 prevail over R150 (log 24). -/
def Config.reference : Config where
  intMin := -2147483648
  intMax := 2147483647
  wordChars := 15
  ticks := some 1024
  dtime := 20
  debug := true
  ecPageFault := .int 0
  ecIllegalInstr := .int 1
  ecIllegalMem := .int 2
  ecArith := .int 3
  backupOrder := Config.referenceBackupOrder
  decoder := .reference
  translator := .reference
  isaExt := Config.referenceIsaExt
  isaMeaning := .reference
  statusWrites := .byName
  romLoad := (.str ['L', 'O', 'A', 'D', 'I', ' ', '1', ',', ' ', '0'], .str [])
  romJump := (.str ['J', 'M', 'P', ' ', '5', '1', '2'], .str [])

/-- The free word `any` (R11), one for each draw: P0 while not valid (R86), EPN and EMA (R150). -/
opaque Config.freeWord : Nat → Word

/-- The free choice between two values, one for each draw: R156 (I36) and I40. -/
opaque Config.freeBit : Nat → Bool

/-- The free choice among pending interrupts (R144), one for each draw. -/
opaque Config.freePick : Nat → Nat

/-- R116: `Encrypt : Word -> Word`, of which nothing is assumed but that it depends on its argument alone. -/
opaque Config.encrypt : Word → Word

/-- R61: a decoder of which nothing is assumed but that it is a total function of the two words alone; `none` is Illegal. -/
opaque Config.openDecode : Word → Word → Option Instr

end Sys2Proof

namespace Sys2Proof.Machine

/-- R22, R126: the two execution modes. -/
inductive Mode where
  | priv
  | unpriv
  deriving DecidableEq, Repr

/-- R41: the kind of an access given to Translate. -/
inductive Access where
  | fetch
  | read
  | write
  deriving DecidableEq, Repr

/-- R148: the causes of an exception, with the address or page it records. -/
inductive Cause where
  | illegalInstr
  | illegalMem (ema : Word)
  | pageFault (epn : Word)
  | arith
  deriving DecidableEq, Repr

/-- R41, R148: a translation: it reads a physical word and goes on with what the word holds, and at last answers a physical address and
the words of the page table it writes, or raises one of the two exceptions a Translate raises.  It sees no word that it does not
read (R138). -/
inductive Walk where
  | illegalMem (ema : Word)
  | pageFault (epn : Word)
  | addr (p : Fin 65536) (writes : List (Fin 65536 × Word))
  | read (a : Fin 65536) (next : Word → Walk)
  deriving Inhabited

/-- How an instruction of an open ISA_EXT ends: it goes on, returns from a trap (R129, R154), ends the run (R167), meets the arithmetic
condition (R148) or is refused (R12). -/
inductive EffectEnd where
  | goOn
  | toUnpriv
  | halt
  | arith
  | refuse
  deriving DecidableEq, Repr, Inhabited

/-- What an instruction of an open ISA_EXT does once it has read: the words it stores, the registers and ports it writes, and where
control goes: to the next instruction, for `none`. -/
structure Effect where
  stores : List (Word × Word)
  regs : List (Reg × Word)
  target : Option Word
  ending : EffectEnd
  deriving DecidableEq, Repr, Inhabited

/-- What an instruction of an open ISA_EXT does: it reads an address of the current mode and goes on with the word there, and at last has
its effect. -/
inductive Behaviour where
  | act (e : Effect)
  | read (L : Word) (next : Word → Behaviour)
  deriving Inhabited

end Sys2Proof.Machine

namespace Sys2Proof

/-- R41: a Translate of which nothing is assumed but its contract: it depends on PTBR, PTLR and the physical words it reads, and not on
the mode. -/
opaque Config.openTranslate (ptbr ptlr L : Word) (k : Machine.Access) : Machine.Walk

/-- R9, R66, D4: which instructions of an open ISA_EXT are privileged-only. -/
opaque Config.openPrivileged (i : Instr) : Bool

/-- R9, D4: the semantics of an open ISA_EXT: what each instruction does, of which nothing is assumed but that it depends on the mode, on
what the registers and ports that the mode gives access to read as (R128), on the words it reads, and on a free draw (R11). -/
opaque Config.openBehaviour (i : Instr) (m : Machine.Mode) (reg : Reg → Option Word) (draw : Nat) : Machine.Behaviour

end Sys2Proof
end

