-- ==== Sys2Proof/Decode.lean ====
section
/-! DEFINITION. Which words a machine has (00_scope R10), the canonical text of an instruction, the reference decoder and, after it, the
encoder (30_encoding R62, R63: `Decode_ref`, `Encode_ref`), and the machine's decoder, a parameter (R61). -/

namespace Sys2Proof

/-- The double quote, character 34. -/
def dquote : Char := Char.ofNat 34

/-- The decimal digits of a natural number; `fuel` is at least the number of digits. -/
def digitsText : Nat → Nat → List Char
  | 0, _ => []
  | fuel + 1, n => if n < 10 then [Char.ofNat (48 + n)] else digitsText fuel (n / 10) ++ [Char.ofNat (48 + n % 10)]

/-- R69: numbers are decimal. -/
def natText (n : Nat) : List Char := digitsText (n + 1) n

/-- R63: the text of an `imm`. -/
def intText (z : Int) : List Char := if z < 0 then '-' :: natText z.natAbs else natText z.natAbs

/-- R63: the text of a `reg`. -/
def regText : Reg → List Char
  | .gpr i => 'R' :: natText i
  | .bp => ['B', 'P']
  | .sp => ['S', 'P']
  | .ip => ['I', 'P']
  | .ptbr => ['P', 'T', 'B', 'R']
  | .ptlr => ['P', 'T', 'L', 'R']
  | .eip => ['E', 'I', 'P']
  | .ec => ['E', 'C']
  | .epn => ['E', 'P', 'N']
  | .ema => ['E', 'M', 'A']
  | .port i => 'P' :: natText i

/-- Every register and port. -/
def allRegs : List Reg :=
  (List.finRange 20).map Reg.gpr ++ ([.bp, .sp, .ip, .ptbr, .ptlr, .eip, .ec, .epn, .ema] : List Reg) ++ (List.finRange 4).map Reg.port

/-- R65, R87: the mnemonics, spelled as spec/opcode_table.json spells them. -/
def mnemonicText : Mnemonic → List Char
  | .mov => ['M', 'O', 'V']
  | .jmp => ['J', 'M', 'P']
  | .intr => ['I', 'N', 'T']
  | .loadi => ['L', 'O', 'A', 'D', 'I']
  | .load => ['L', 'O', 'A', 'D']
  | .store => ['S', 'T', 'O', 'R', 'E']
  | .out => ['O', 'U', 'T']
  | .inp => ['I', 'N']
  | .ini => ['I', 'N', 'I']
  | .add => ['A', 'D', 'D']
  | .sub => ['S', 'U', 'B']
  | .mul => ['M', 'U', 'L']
  | .div => ['D', 'I', 'V']
  | .mod => ['M', 'O', 'D']
  | .inr => ['I', 'N', 'R']
  | .dcr => ['D', 'C', 'R']
  | .lt => ['L', 'T']
  | .gt => ['G', 'T']
  | .eq => ['E', 'Q']
  | .ne => ['N', 'E']
  | .ge => ['G', 'E']
  | .le => ['L', 'E']
  | .jz => ['J', 'Z']
  | .jnz => ['J', 'N', 'Z']
  | .push => ['P', 'U', 'S', 'H']
  | .pop => ['P', 'O', 'P']
  | .call => ['C', 'A', 'L', 'L']
  | .ret => ['R', 'E', 'T']
  | .nop => ['N', 'O', 'P']
  | .brkp => ['B', 'R', 'K', 'P']
  | .iret => ['I', 'R', 'E', 'T']
  | .halt => ['H', 'A', 'L', 'T']
  | .backup => ['B', 'A', 'C', 'K', 'U', 'P']
  | .restore => ['R', 'E', 'S', 'T', 'O', 'R', 'E']
  | .encrypt => ['E', 'N', 'C', 'R', 'Y', 'P', 'T']

/-- Every mnemonic of the table. -/
def allMnemonics : List Mnemonic :=
  [.mov, .jmp, .intr, .loadi, .load, .store, .out, .inp, .ini, .add, .sub, .mul, .div, .mod, .inr, .dcr, .lt, .gt, .eq, .ne, .ge, .le,
    .jz, .jnz, .push, .pop, .call, .ret, .nop, .brkp, .iret, .halt, .backup, .restore, .encrypt]

/-- R63: the text of an operand. -/
def operandText : Operand → List Char
  | .reg r => regText r
  | .imm z => intText z
  | .memReg r => '[' :: regText r ++ [']']
  | .memImm z => '[' :: intText z ++ [']']
  | .str cs => dquote :: cs ++ [dquote]

/-- A disk macro's operand as an operand form. -/
def RegImm.operand : RegImm → Operand
  | .reg r => .reg r
  | .imm z => .imm z

/-- The mnemonic of an instruction: the mnemonic of its row. -/
def Instr.mnemonic : Instr → Mnemonic
  | .movRegReg _ _ | .movRegImm _ _ | .movRegIndReg _ _ | .movRegIndImm _ _ => .mov
  | .movIndRegReg _ _ | .movIndImmReg _ _ | .movRegStr _ _ => .mov
  | .jmp _ => .jmp
  | .intr _ => .intr
  | .loadi _ _ => .loadi
  | .load _ _ => .load
  | .store _ _ => .store
  | .consoleOut => .out
  | .consoleIn => .inp
  | .consoleIni => .ini
  | .addRegReg _ _ | .addRegImm _ _ => .add
  | .subRegReg _ _ | .subRegImm _ _ => .sub
  | .mulRegReg _ _ | .mulRegImm _ _ => .mul
  | .divRegReg _ _ | .divRegImm _ _ => .div
  | .modRegReg _ _ | .modRegImm _ _ => .mod
  | .inr _ => .inr
  | .dcr _ => .dcr
  | .lt _ _ => .lt
  | .gt _ _ => .gt
  | .eq _ _ => .eq
  | .ne _ _ => .ne
  | .ge _ _ => .ge
  | .le _ _ => .le
  | .jz _ _ => .jz
  | .jnz _ _ => .jnz
  | .push _ => .push
  | .pop _ => .pop
  | .call _ => .call
  | .ret => .ret
  | .nop => .nop
  | .brkp => .brkp
  | .iret => .iret
  | .halt => .halt
  | .backup => .backup
  | .restore => .restore
  | .encrypt _ => .encrypt

/-- The operands of an instruction, in the order of its row's encoding. -/
def Instr.operands : Instr → List Operand
  | .movRegReg d s => [.reg d, .reg s]
  | .movRegImm d n => [.reg d, .imm n]
  | .movRegIndReg d a => [.reg d, .memReg a]
  | .movRegIndImm d n => [.reg d, .memImm n]
  | .movIndRegReg a s => [.memReg a, .reg s]
  | .movIndImmReg n s => [.memImm n, .reg s]
  | .movRegStr d cs => [.reg d, .str cs]
  | .jmp t | .intr t | .call t => [.imm t]
  | .loadi p b | .load p b | .store p b => [p.operand, b.operand]
  | .addRegReg i j | .subRegReg i j | .mulRegReg i j | .divRegReg i j | .modRegReg i j => [.reg i, .reg j]
  | .addRegImm i n | .subRegImm i n | .mulRegImm i n | .divRegImm i n | .modRegImm i n => [.reg i, .imm n]
  | .lt i j | .gt i j | .eq i j | .ne i j | .ge i j | .le i j => [.reg i, .reg j]
  | .jz i t | .jnz i t => [.reg i, .imm t]
  | .inr i | .dcr i | .push i | .pop i | .encrypt i => [.reg i]
  | .consoleOut | .consoleIn | .consoleIni | .ret | .nop | .brkp | .iret | .halt | .backup | .restore => []

/-- R62: operands separated by a comma and one space. -/
def operandsText : List Operand → List Char
  | [] => []
  | [o] => operandText o
  | o :: p :: os => operandText o ++ [',', ' '] ++ operandsText (p :: os)

/-- R62: the canonical text of an instruction. -/
def instrText (i : Instr) : List Char :=
  match i.operands with
  | [] => mnemonicText i.mnemonic
  | o :: os => mnemonicText i.mnemonic ++ ' ' :: operandsText (o :: os)

/-- R63: an `imm` lies within `INT_MIN..INT_MAX`. -/
def immInRange (cfg : Config) (z : Int) : Bool := decide (cfg.intMin ≤ z ∧ z ≤ cfg.intMax)

/-- R10: the words of the machine: `Int(z)` with z within `INT_MIN..INT_MAX`, `Str(s)` of at most WORD_CHARS characters. -/
def wordFits (cfg : Config) : Word → Bool
  | .int z => immInRange cfg z
  | .str cs => decide (cs.length ≤ cfg.wordChars)

/-- R10: an open value as a word of the machine: the value where it is one (log 6). -/
def fitWord (cfg : Config) (w : Word) : Word := if wordFits cfg w then w else .int 0

/-- R117, R10: a string operand holds at most WORD_CHARS characters and, being quoted, no double quote. -/
def strFits (cfg : Config) (cs : List Char) : Bool := decide (cs.length ≤ cfg.wordChars) && !cs.contains dquote

/-- Ends a token: what has been gathered (newest character first) becomes a token unless it is empty. -/
def flushToken (cur : List Char) (rest : List (List Char)) : List (List Char) :=
  if cur.isEmpty then rest else cur.reverse :: rest

/-- R62: split at runs of spaces and at commas, except between a pair of double quotes (log 8). -/
def tokensFrom : List Char → List Char → Bool → List (List Char)
  | [], cur, _ => flushToken cur []
  | c :: cs, cur, quoted =>
    if c = dquote then tokensFrom cs (c :: cur) (!quoted)
    else if quoted then tokensFrom cs (c :: cur) true
    else if c = ' ' ∨ c = ',' then flushToken cur (tokensFrom cs [] false)
    else tokensFrom cs (c :: cur) false

/-- R62: the tokens of an instruction's text. -/
def tokens (t : List Char) : List (List Char) := tokensFrom t [] false

/-- R62: the mnemonic column of the opcode table, looked up exactly. -/
def mnemonicOfText (t : List Char) : Option Mnemonic := allMnemonics.find? (fun m => mnemonicText m == t)

/-- R63: a register or port by its exact name. -/
def regOfText (t : List Char) : Option Reg := allRegs.find? (fun r => regText r == t)

/-- R63: decimal digits, read on from the value so far. -/
def digitsValue (acc : Nat) : List Char → Option Nat
  | [] => some acc
  | c :: cs => if c.isDigit then digitsValue (10 * acc + (c.toNat - 48)) cs else none

/-- R63: one or more decimal digits. -/
def natOfText (t : List Char) : Option Nat := if t.isEmpty then none else digitsValue 0 t

/-- R63: an optional `-`, then one or more decimal digits. -/
def intOfText : List Char → Option Int
  | [] => none
  | c :: cs => if c = '-' then (natOfText cs).map (fun n : Nat => -(n : Int)) else (natOfText (c :: cs)).map (fun n : Nat => (n : Int))

/-- R63, R67: an `imm`, whose value lies within `INT_MIN..INT_MAX`. -/
def immOfText (cfg : Config) (t : List Char) : Option Int :=
  match intOfText t with
  | some z => if immInRange cfg z then some z else none
  | none => none

/-- The text before a closing character that ends it. -/
def beforeClose (close : Char) : List Char → Option (List Char)
  | [] => none
  | [c] => if c = close then some [] else none
  | c :: d :: cs => (beforeClose close (d :: cs)).map (c :: ·)

/-- R63: the operand inside brackets, `reg` or `imm`. -/
def memOfText (cfg : Config) (t : List Char) : Option Operand :=
  match regOfText t with
  | some r => some (.memReg r)
  | none => (immOfText cfg t).map .memImm

/-- R63, R117: one operand's token. -/
def operandOfText (cfg : Config) (t : List Char) : Option Operand :=
  match regOfText t with
  | some r => some (.reg r)
  | none =>
    match immOfText cfg t with
    | some z => some (.imm z)
    | none =>
      match t with
      | [] => none
      | c :: cs =>
        if c = '[' then (beforeClose ']' cs).bind (memOfText cfg)
        else if c = dquote then
          (beforeClose dquote cs).bind (fun s => if strFits cfg s then some (.str s) else none)
        else none

/-- R77: the page or block operand of a disk macro, `reg` or `imm`. -/
def regImmOfOperand : Operand → Option RegImm
  | .reg r => some (.reg r)
  | .imm z => some (.imm z)
  | _ => none

/-- A row without operands. -/
def shapeNone (i : Instr) : List Operand → Option Instr
  | [] => some i
  | _ => none

/-- A row `Ri`. -/
def shapeReg (f : Reg → Instr) : List Operand → Option Instr
  | [.reg i] => some (f i)
  | _ => none

/-- A row `imm`. -/
def shapeImm (f : Int → Instr) : List Operand → Option Instr
  | [.imm n] => some (f n)
  | _ => none

/-- A row `Ri, Rj`. -/
def shapeRegReg (f : Reg → Reg → Instr) : List Operand → Option Instr
  | [.reg i, .reg j] => some (f i j)
  | _ => none

/-- A row `Ri, imm`. -/
def shapeRegImm (f : Reg → Int → Instr) : List Operand → Option Instr
  | [.reg i, .imm n] => some (f i n)
  | _ => none

/-- The two rows of an arithmetic mnemonic: `Ri, Rj` and `Ri, imm`. -/
def shapeArith (f : Reg → Reg → Instr) (g : Reg → Int → Instr) (os : List Operand) : Option Instr :=
  (shapeRegReg f os).or (shapeRegImm g os)

/-- A disk macro's row: `page, block`, each `reg` or `imm`. -/
def shapeDisk (f : RegImm → RegImm → Instr) : List Operand → Option Instr
  | [p, b] =>
    match regImmOfOperand p, regImmOfOperand b with
    | some p', some b' => some (f p' b')
    | _, _ => none
  | _ => none

/-- R71, R117: the seven rows of MOV. -/
def shapeMov : List Operand → Option Instr
  | [.reg d, .reg s] => some (.movRegReg d s)
  | [.reg d, .imm n] => some (.movRegImm d n)
  | [.reg d, .memReg a] => some (.movRegIndReg d a)
  | [.reg d, .memImm n] => some (.movRegIndImm d n)
  | [.memReg a, .reg s] => some (.movIndRegReg a s)
  | [.memImm n, .reg s] => some (.movIndImmReg n s)
  | [.reg d, .str cs] => some (.movRegStr d cs)
  | _ => none

/-- R173: the rows of the opcode table, mnemonic by mnemonic: which operand shapes each admits. -/
def instrOfOperands (m : Mnemonic) (os : List Operand) : Option Instr :=
  match m with
  | .mov => shapeMov os
  | .jmp => shapeImm .jmp os
  | .intr => shapeImm .intr os
  | .loadi => shapeDisk .loadi os
  | .load => shapeDisk .load os
  | .store => shapeDisk .store os
  | .out => shapeNone .consoleOut os
  | .inp => shapeNone .consoleIn os
  | .ini => shapeNone .consoleIni os
  | .add => shapeArith .addRegReg .addRegImm os
  | .sub => shapeArith .subRegReg .subRegImm os
  | .mul => shapeArith .mulRegReg .mulRegImm os
  | .div => shapeArith .divRegReg .divRegImm os
  | .mod => shapeArith .modRegReg .modRegImm os
  | .inr => shapeReg .inr os
  | .dcr => shapeReg .dcr os
  | .lt => shapeRegReg .lt os
  | .gt => shapeRegReg .gt os
  | .eq => shapeRegReg .eq os
  | .ne => shapeRegReg .ne os
  | .ge => shapeRegReg .ge os
  | .le => shapeRegReg .le os
  | .jz => shapeRegImm .jz os
  | .jnz => shapeRegImm .jnz os
  | .push => shapeReg .push os
  | .pop => shapeReg .pop os
  | .call => shapeImm .call os
  | .ret => shapeNone .ret os
  | .nop => shapeNone .nop os
  | .brkp => shapeNone .brkp os
  | .iret => shapeNone .iret os
  | .halt => shapeNone .halt os
  | .backup => shapeNone .backup os
  | .restore => shapeNone .restore os
  | .encrypt => shapeReg .encrypt os

/-- R67: why two words are an illegal instruction. -/
inductive Illegal where
  /-- Either word is not a `Str`. -/
  | notText
  /-- The text holds no token. -/
  | noTokens
  /-- The first token is no mnemonic of the table. -/
  | unknownMnemonic
  /-- A token is none of the operand forms of R63, an `imm` is outside its range or a string is too long. -/
  | badOperand
  /-- No row of the mnemonic has operands of this number and these forms. -/
  | badShape
  /-- An open decoder reads no instruction in the words. -/
  | unspelled
  /-- The instruction is not of the machine's instruction set, or one of its operands is no word of the machine. -/
  | notAdmitted
  deriving DecidableEq, Repr

/-- All operands, or none if one of them is no operand form. -/
def operandsOfText (cfg : Config) : List (List Char) → Option (List Operand)
  | [] => some []
  | t :: ts =>
    match operandOfText cfg t, operandsOfText cfg ts with
    | some o, some os => some (o :: os)
    | _, _ => none

/-- `Decode_ref` on the concatenated text (R62). -/
def decodeText (cfg : Config) (t : List Char) : Except Illegal Instr :=
  match tokens t with
  | [] => .error .noTokens
  | m :: ops =>
    match mnemonicOfText m with
    | none => .error .unknownMnemonic
    | some k =>
      match operandsOfText cfg ops with
      | none => .error .badOperand
      | some os =>
        match instrOfOperands k os with
        | some i => .ok i
        | none => .error .badShape

/-- R62: `Decode_ref`, total on any two words, a function of the words and the configuration alone. -/
def decode (cfg : Config) : Word → Word → Except Illegal Instr
  | .str t0, .str t1 => decodeText cfg (t0 ++ t1)
  | _, _ => .error .notText

/-- R62: `Encode_ref`: the text's first WORD_CHARS characters in the first word, the rest in the second. -/
def encode (cfg : Config) (i : Instr) : Word × Word :=
  (.str ((instrText i).take cfg.wordChars), .str ((instrText i).drop cfg.wordChars))

/-- R87, R173: the mnemonics of the instructions the source names, which every machine has. -/
def coreMnemonics : List Mnemonic := [.mov, .jmp, .intr, .loadi, .load, .store, .out, .inp, .ini]

/-- R87, R117: the instructions of ISA_EXT, each under its mnemonic; MOV's string form is one of them. -/
def Instr.supplement : Instr → Bool
  | .movRegStr _ _ => true
  | i => !coreMnemonics.contains i.mnemonic

/-- R63, R10: an operand that is written out is a word of the machine. -/
def operandInRange (cfg : Config) : Operand → Bool
  | .reg _ | .memReg _ => true
  | .imm z | .memImm z => wordFits cfg (.int z)
  | .str cs => wordFits cfg (.str cs)

/-- R9, R63: the instructions of the machine: those the source names and those of ISA_EXT, with operands that are words. -/
def admits (cfg : Config) (i : Instr) : Bool :=
  i.operands.all (operandInRange cfg) && (!i.supplement || cfg.isaExt.contains i.mnemonic)

/-- R9, R61: what the machine's decoder, the reference one or an open one, reads in two words. -/
def spelled (cfg : Config) (w0 w1 : Word) : Except Illegal Instr :=
  match cfg.decoder with
  | .reference => decode cfg w0 w1
  | .opened =>
    match Config.openDecode w0 w1 with
    | some i => .ok i
    | none => .error .unspelled

/-- R61: `Decode`: a total function of the two words alone under the machine's configuration. -/
def decodeWords (cfg : Config) (w0 w1 : Word) : Except Illegal Instr :=
  match spelled cfg w0 w1 with
  | .ok i => if admits cfg i then .ok i else .error .notAdmitted
  | .error e => .error e

/-- R161: the boot ROM's first instruction. -/
def bootLoad : Instr := .loadi (.imm 1) (.imm 0)

/-- R161: the boot ROM's second instruction. -/
def bootJump : Instr := .jmp 512

/-- Byte `k` of a number, the least significant first. -/
def byteAt (w k : Nat) : Nat := w / 256 ^ k % 256

/-- The characters of `n` bytes from byte `k` on, up to the first zero byte (log 9). -/
def charsOfBytes (w : Nat) : Nat → Nat → List Char
  | _, 0 => []
  | k, n + 1 => if byteAt w k = 0 then [] else Char.ofNat (byteAt w k) :: charsOfBytes w (k + 1) n

/-- PRESUMED (log 9): a word's sixteen bytes (R9) hold its characters and a terminator; the first word is bytes 0 to 15.  Sixteen bytes
without a terminator, of which the spec says nothing, give a text of sixteen characters, one more than a word holds. -/
def wordsOfBits (nbits w : Nat) : Word × Word :=
  (.str (charsOfBytes (w % 2 ^ nbits) 0 16), .str (charsOfBytes (w % 2 ^ nbits) 16 16))

/-- The instruction the decoder reads from the bits `w`, under the reference configuration. -/
def decodeTableWord (nbits w : Nat) : Option Instr :=
  match decodeWords Config.reference (wordsOfBits nbits w).1 (wordsOfBits nbits w).2 with
  | .ok i => some i
  | .error _ => none

end Sys2Proof
end

