-- ==== Sys2Proof/Machine/State.lean ====
section
/-! DEFINITION. The state of the machine as plain data (10_state R36), its faults and refusals (00_scope R12), and its value at
start-up (10_state R34). -/

namespace Sys2Proof.Machine

/-- R28: the direction of a pending disk transfer. -/
inductive Transfer where
  | load
  | store
  deriving DecidableEq, Repr

/-- R28: DISK_OP. -/
inductive DiskOp where
  | idle
  | busy (kind : Transfer) (page : Fin 128) (block : Fin 512) (count : Nat)
  deriving DecidableEq, Repr

/-- R131: the three device interrupts. -/
inductive Device where
  | timer
  | disk
  | console
  deriving DecidableEq, Repr

/-- The machine stops for good with a recorded reason (R12 (c)). -/
inductive Fault where
  /-- R151: an exception condition met in PRIV mode; raised by every instruction, the decoder's refusal and the fetch. Safe: the spec's own outcome. -/
  | privileged (c : Cause)
  /-- R77: a page or block operand that is not an Int in range; raised by LOADI, LOAD and STORE. Safe: the spec's own outcome. -/
  | diskOperand
  /-- R12: a memory word that holds no value is read by an instruction, a fetch or Translate. Safe: the spec's own outcome. -/
  | noValue
  deriving DecidableEq, Repr

/-- The spec declines to give the step a meaning (R12 (d)). -/
inductive Refusal where
  /-- An instruction that has no meaning yet; raised by exec alone. Safe. -/
  | notModelled (mnemonic : String)
  /-- R17, R146: IP odd, not an Int or beyond the address space; raised by the fetch, by a trap entry that would push such an IP, and by
  an instruction whose IP is not an Int. Safe. -/
  | badIp
  /-- R73 (1): IP named as an operand; raised by every instruction that names a register. Safe. -/
  | ipOperand
  /-- R46: a write to page 0; raised by every memory write and by LOADI and LOAD. Safe. -/
  | romWrite
  /-- R138: an access to the page of a pending load or a write to the page of a pending store; raised by every memory access. Safe. -/
  | pageLocked
  /-- R82: a disk macro while DISK_OP is busy; raised by LOADI, LOAD and STORE. Safe. -/
  | diskBusy
  /-- R75: INT in PRIV mode; raised by INT. Safe. -/
  | intInPriv
  /-- R84: IN while the console is already waiting; raised by IN. Safe. -/
  | inWhileWaiting
  /-- R85: INI outside debug mode; raised by INI. Safe. -/
  | iniOutsideDebug
  /-- R85: INI while the console waits for an IN; raised by INI. Safe. -/
  | iniWhileWaiting
  /-- R96 (1): a Str operand of an arithmetic instruction; raised by ADD to DCR. Safe. -/
  | stringArith
  /-- R96 (3): a result outside INT_MIN..INT_MAX; raised by ADD to DCR. Safe. -/
  | overflow
  /-- R96 (5): DIV or MOD with a negative operand; raised by DIV and MOD. Safe. -/
  | negativeDivision
  /-- R103: two strings compared by other than EQ and NE; raised by LT, GT, GE, LE. Safe. -/
  | stringOrder
  /-- R103: an Int compared with a Str; raised by LT to LE. Safe. -/
  | mixedComparison
  /-- R104, R105: a Str tested by JZ or JNZ. Safe. -/
  | stringBranch
  /-- R112: IRET whose SP does not translate; raised by IRET. Safe. -/
  | iretTranslate
  /-- R146: a device interrupt whose push fails; raised by the interrupt entry. Safe. -/
  | interruptPush
  /-- R149: an exception whose push fails; raised by the exception entry. Safe. -/
  | exceptionPush
  /-- R121: an auxiliary word of another shape or a page number outside 0..127 in a valid entry; raised by Translate. Safe. -/
  | pageTableEntry
  /-- R12 (d): an instruction of an open ISA_EXT whose semantics refuse the step (log 18); raised by such an instruction. Safe. -/
  | extension
  /-- R40, R121: a page-table entry's address is not in physical memory or PTBR is not an Int (log 12); raised by Translate. Safe. -/
  | pageTableAddress
  deriving DecidableEq, Repr

/-- Words by address, sorted, listing only what differs from what an unlisted address reads as; `none` is a word that holds
no value (R12). -/
abbrev Cells := List (Nat × Option Word)

/-- R36: the machine's state, with the configuration it carries and the model's own last fields. -/
structure State where
  /-- The parameters of R8 and R9, never changed (R32). -/
  cfg : Config
  /-- R0 to R19 (R14). -/
  gpr : Vector Word 20
  /-- BP (R16). -/
  bp : Word
  /-- SP (R16). -/
  sp : Word
  /-- IP (R17). -/
  ip : Word
  /-- PTBR (R18). -/
  ptbr : Word
  /-- PTLR (R18). -/
  ptlr : Word
  /-- EIP (R19). -/
  eip : Word
  /-- EC (R19). -/
  ec : Word
  /-- EPN (R19). -/
  epn : Word
  /-- EMA (R19). -/
  ema : Word
  /-- P0 to P3 (R20). -/
  port : Vector Word 4
  /-- MODE (R22). -/
  mode : Mode
  /-- M (R25). -/
  mem : Cells
  /-- DISK (R26): word `i` of block `b` at `512 * b + i`. -/
  disk : Cells
  /-- TIMER_COUNT (R27). -/
  timerCount : Nat
  /-- DISK_OP (R28). -/
  diskOp : DiskOp
  /-- CONSOLE_WAIT (R29). -/
  consoleWait : Bool
  /-- P0_VALID (R29). -/
  p0Valid : Bool
  /-- PEND_TIMER (R30). -/
  pendTimer : Bool
  /-- PEND_DISK (R30). -/
  pendDisk : Bool
  /-- PEND_CONSOLE (R30). -/
  pendConsole : Bool
  /-- TERM_OUT (R31), oldest first. -/
  termOut : List Word
  /-- The machine has executed HALT (R113, R132). -/
  halted : Bool
  /-- The processor waits at an INI for the user and has no step until the user enters a word (R12 (e), R85; log 7). -/
  waiting : Bool
  /-- The user (R139): what is entered in each coming gap between two steps, `none` for nothing (log 7). -/
  userGap : List (Option Word)
  /-- The user (R85): the words entered at once when an INI comes to wait (log 7). -/
  userIni : List Word
  /-- The next free draw (log 4). -/
  freeCount : Nat
  /-- Page-table words the instruction in progress has updated, with what each held before (R156, log 5). -/
  touched : List (Nat × Option Word)
  deriving DecidableEq, Repr

/-- R34, R160: start-up.  Registers and ports hold `Int(0)` (log 1), the configuration is the reference one (log 2), the disk holds
no value (log 3). -/
def State.reset : State where
  cfg := Config.reference
  gpr := Vector.replicate 20 (.int 0)
  bp := .int 0
  sp := .int 0
  ip := .int 0
  ptbr := .int 0
  ptlr := .int 0
  eip := .int 0
  ec := .int 0
  epn := .int 0
  ema := .int 0
  port := Vector.replicate 4 (.int 0)
  mode := .priv
  mem := []
  disk := []
  timerCount := 0
  diskOp := .idle
  consoleWait := false
  p0Valid := false
  pendTimer := false
  pendDisk := false
  pendConsole := false
  termOut := []
  halted := false
  waiting := false
  userGap := []
  userIni := []
  freeCount := 0
  touched := []

end Sys2Proof.Machine
end

