-- ==== Sys2Proof/Machine/Ops.lean ====
section
/-! DEFINITION. Memory, the disk, address translation, the stack, and taking an exception: the operations every meaning is built of. -/

namespace Sys2Proof.Machine

/-! ### Words by address -/

/-- What an address holds; `d` says what an unlisted address reads as. -/
def Cells.read (d : Nat → Option Word) : Cells → Nat → Option Word
  | [], a => d a
  | (b, w) :: m, a => if a < b then d a else if a = b then w else Cells.read d m a

/-- Writes one address, keeping the list sorted and listing nothing equal to what an unlisted address reads as. -/
def Cells.write (d : Nat → Option Word) : Cells → Nat → Option Word → Cells
  | [], a, v => if v = d a then [] else [(a, v)]
  | (b, w) :: m, a, v =>
    if a < b then (if v = d a then (b, w) :: m else (a, v) :: (b, w) :: m)
    else if a = b then (if v = d a then m else (a, v) :: m)
    else (b, w) :: Cells.write d m a v

/-- The canonical form: addresses strictly rising and below `size`, no entry equal to what an unlisted address reads as. -/
abbrev Cells.wf (d : Nat → Option Word) (size : Nat) (m : Cells) : Prop :=
  m.Pairwise (fun c e => c.1 < e.1) ∧ ∀ c ∈ m, c.1 < size ∧ c.2 ≠ d c.1

/-- R52: `n` words from `base` on are replaced, word `i` by `src i`; the cells below and above stay. -/
def Cells.copy (d : Nat → Option Word) (base : Nat) (src : Nat → Option Word) (n : Nat) (m : Cells) : Cells :=
  m.filter (fun c => decide (c.1 < base)) ++
    ((List.range n).filterMap (fun i => if src i = d (base + i) then none else some (base + i, src i)) ++
      m.filter (fun c => decide (base + n ≤ c.1)))

/-- R43: where the handler of interrupt `k` begins. -/
def handler (k : Nat) : Nat := 1024 * (k + 1)

/-- R34, R44, R161: what an unlisted address of memory reads as: the ROM's instructions and vector table, elsewhere no value. -/
def romWord (cfg : Config) (a : Nat) : Option Word :=
  if a = 0 then some cfg.romLoad.1
  else if a = 1 then some cfg.romLoad.2
  else if a = 2 then some cfg.romJump.1
  else if a = 3 then some cfg.romJump.2
  else if 492 ≤ a ∧ a ≤ 510 then some (.int (handler (a - 492)))
  else none

/-- R34: a disk word that nothing has written holds no value. -/
def diskWord (_ : Nat) : Option Word := none

/-- `M[a]` (R11). -/
def State.peek (s : State) (a : Nat) : Option Word := Cells.read (romWord s.cfg) s.mem a

/-- `M[a] <- v` (R11), without the checks of R46 and R138. -/
def State.poke (s : State) (a : Nat) (v : Option Word) : State :=
  { s with mem := Cells.write (romWord s.cfg) s.mem a v }

/-- `DISK[b][i]` (R11), at `512 * b + i`. -/
def State.peekDisk (s : State) (a : Nat) : Option Word := Cells.read diskWord s.disk a

/-- The memory's canonical form: 65536 words (R37). -/
abbrev State.memWf (s : State) : Prop := Cells.wf (romWord s.cfg) 65536 s.mem

/-- The disk's canonical form: 512 blocks of 512 words (R26). -/
abbrev State.diskWf (s : State) : Prop := Cells.wf diskWord 262144 s.disk

/-! ### Outcomes inside an instruction -/

/-- R12: what a part of an instruction comes to: a value and a state, an exception to take from a state in which the instruction
has written nothing but reference and dirty bits, a fault or a refusal. -/
inductive Res (α : Type) where
  | ok (a : α) (s : State)
  | exc (c : Cause) (s : State)
  | fault (f : Fault)
  | refuse (r : Refusal)
  deriving DecidableEq, Repr

/-- Goes on with the value and the state, or stops as the first part does. -/
def Res.bind {α β : Type} (x : Res α) (f : α → State → Res β) : Res β :=
  match x with
  | .ok a s => f a s
  | .exc c s => .exc c s
  | .fault g => .fault g
  | .refuse r => .refuse r

/-- R12: the machine's outcomes. -/
abbrev Out := Host.Outcome State Fault Refusal

/-! ### Words (R10, R11) -/

/-- `any` (R11): the free word of draw `n`, a word of the machine (log 4). -/
def anyWord (cfg : Config) (n : Nat) : Word := fitWord cfg (Config.freeWord n)

/-- Draws a free word. -/
def drawWord (s : State) : Res Word := .ok (anyWord s.cfg s.freeCount) { s with freeCount := s.freeCount + 1 }

/-- R10: the word `Int(z)`; where z lies outside `INT_MIN..INT_MAX` the spec states no word and it is a free one (log 6). -/
def exactWord (z : Int) (s : State) : Res Word := if immInRange s.cfg z then .ok (.int z) s else drawWord s

/-! ### Physical memory -/

/-- R38, R40: a word that is a physical address. -/
def physAddr : Word → Option Nat
  | .int z => if 0 ≤ z ∧ z ≤ 65535 then some z.toNat else none
  | .str _ => none

/-- R138: reading this address is barred while a load of its page is pending. -/
def readLocked (s : State) (a : Nat) : Bool :=
  match s.diskOp with
  | .busy .load p _ _ => a / 512 == p.val
  | _ => false

/-- R138: writing this address is barred while a load or a store of its page is pending. -/
def writeLocked (s : State) (a : Nat) : Bool :=
  match s.diskOp with
  | .busy _ p _ _ => a / 512 == p.val
  | .idle => false

/-- R11, R12, R138: reads a physical word. -/
def physRead (a : Nat) (s : State) : Res Word :=
  if readLocked s a then .refuse .pageLocked
  else
    match s.peek a with
    | some w => .ok w s
    | none => .fault .noValue

/-- R11, R46, R138: writes a physical word. -/
def physWrite (a : Nat) (v : Word) (s : State) : Res Unit :=
  if a < 512 then .refuse .romWrite
  else if writeLocked s a then .refuse .pageLocked
  else .ok () (s.poke a (some v))

/-! ### Translation (R41, R120 to R123) -/

/-- R121: the auxiliary information of a page-table entry: reference, valid, write and dirty bits. -/
structure Aux where
  ref : Bool
  valid : Bool
  write : Bool
  dirty : Bool
  deriving DecidableEq, Repr

/-- R121: a bit's character. -/
def bitOfChar (c : Char) : Option Bool := if c = '0' then some false else if c = '1' then some true else none

/-- R121: a bit as a character. -/
def charOfBit (b : Bool) : Char := if b then '1' else '0'

/-- R121: the auxiliary word, a `Str` of four characters each `0` or `1`. -/
def auxOfWord : Word → Option Aux
  | .str [r, v, w, d] =>
    match bitOfChar r, bitOfChar v, bitOfChar w, bitOfChar d with
    | some r, some v, some w, some d => some ⟨r, v, w, d⟩
    | _, _, _, _ => none
  | _ => none

/-- R121: the auxiliary word of these bits. -/
def wordOfAux (x : Aux) : Word := .str [charOfBit x.ref, charOfBit x.valid, charOfBit x.write, charOfBit x.dirty]

/-- R123: a successful translation sets the reference bit and, for a write, the dirty bit. -/
def auxAfter (k : Access) (x : Aux) : Aux := { x with ref := true, dirty := x.dirty || (k == .write) }

/-- R121: a page number, an `Int` in 0..127. -/
def pageOfWord : Word → Option Nat
  | .int z => if 0 ≤ z ∧ z ≤ 127 then some z.toNat else none
  | .str _ => none

/-- R123, R156: updates a word of the page table, noting what it held before the instruction if that is noted nowhere yet. -/
def updateAux (a : Nat) (old : Option Word) (new : Word) (s : State) : Res Unit :=
  (physWrite a new s).bind fun _ s =>
    .ok () (if old = some new ∨ a ∈ s.touched.map Prod.fst then s else { s with touched := (a, old) :: s.touched })

/-- R120: the logical page of an address that lies in the logical address space, with the offset in it. -/
def logicalPage (s : State) : Word → Option (Nat × Nat)
  | .int z =>
    match s.ptlr with
    | .int n => if z < 0 ∨ n ≤ z / 512 then none else some (z.toNat / 512, z.toNat % 512)
    | .str _ => none
  | .str _ => none

/-- R121: the physical address of an entry's first word; its second is the next one (log 12). -/
def entryAddr (s : State) (lp : Nat) : Option Nat :=
  match s.ptbr with
  | .int b => if 0 ≤ b + 2 * lp ∧ b + 2 * lp + 1 ≤ 65535 then some (b + 2 * lp).toNat else none
  | .str _ => none

/-- R121, R122: the checks on an entry at `e`, in order, and the physical address they give.  The page number of a valid entry is looked at
before the write bit (log 11). -/
def walkEntry (k : Access) (L : Word) (lp off e : Nat) (s : State) : Res Nat :=
  (physRead (e + 1) s).bind fun auxWord s =>
    match auxOfWord auxWord with
    | none => .refuse .pageTableEntry
    | some x =>
      if !x.valid then .exc (.pageFault (.int lp)) s
      else
        (physRead e s).bind fun pageWord s =>
          match pageOfWord pageWord with
          | none => .refuse .pageTableEntry
          | some p =>
            if k = .write ∧ x.write = false then .exc (.illegalMem L) s
            else (updateAux (e + 1) (some auxWord) (wordOfAux (auxAfter k x)) s).bind fun _ s => .ok (512 * p + off) s

/-- R120 to R123: the reference Translate. -/
def referenceTranslate (k : Access) (L : Word) (s : State) : Res Nat :=
  match logicalPage s L with
  | none => .exc (.illegalMem L) s
  | some (lp, off) =>
    match entryAddr s lp with
    | none => .refuse .pageTableAddress
    | some e => walkEntry k L lp off e s

/-- R41: the writes of an open Translate, in order. -/
def writeTable : List (Fin 65536 × Word) → State → Res Unit
  | [], s => .ok () s
  | (a, v) :: ws, s => (updateAux a.val (s.peek a.val) (fitWord s.cfg v) s).bind fun _ s => writeTable ws s

/-- R41, R138: an open walk, each of its reads made by the machine; a word it reads that holds no value is a fault (R12; log 18). -/
def Walk.run : Walk → State → Res Nat
  | .illegalMem a, s => .exc (.illegalMem a) s
  | .pageFault n, s => .exc (.pageFault n) s
  | .addr p ws, s => (writeTable ws s).bind fun _ s => .ok p.val s
  | .read a next, s => (physRead a.val s).bind fun w s => (next w).run s

/-- R41, R148: an open Translate. -/
def openTranslate (k : Access) (L : Word) (s : State) : Res Nat := (Config.openTranslate s.ptbr s.ptlr L k).run s

/-- R41, R148: Translate.  An address that is not an `Int` is an illegal memory access; a number that is no word is no `Int` (log 6). -/
def translate (k : Access) (L : Word) (s : State) : Res Nat :=
  match L with
  | .str _ => .exc (.illegalMem L) s
  | .int z =>
    if immInRange s.cfg z then
      match s.cfg.translator with
      | .reference => referenceTranslate k L s
      | .opened => openTranslate k L s
    else .exc (.illegalMem L) s

/-- R38, R40, R41: the physical address of an access as the current mode sees it. -/
def memAddr (k : Access) (L : Word) (s : State) : Res Nat :=
  match s.mode with
  | .priv =>
    match physAddr L with
    | some a => .ok a s
    | none => .exc (.illegalMem L) s
  | .unpriv => translate k L s

/-- `MemRead(a, 1)` (R11). -/
def memRead (k : Access) (L : Word) (s : State) : Res Word := (memAddr k L s).bind physRead

/-- `MemWrite(a, 1, v)` (R11). -/
def memWrite (L v : Word) (s : State) : Res Unit := (memAddr .write L s).bind fun a s => physWrite a v s

/-! ### The stack (R119) -/

/-- R106, R119: adds 1 to SP and writes there. -/
def push (v : Word) (s : State) : Res Unit :=
  match s.sp with
  | .str _ => .exc (.illegalMem s.sp) s
  | .int z => (memWrite (.int (z + 1)) v s).bind fun _ s => .ok () { s with sp := .int (z + 1) }

/-- R107, R119: SP goes down by 1. -/
def dropTop (z : Int) (s : State) : Res Unit := (exactWord (z - 1) s).bind fun w s => .ok () { s with sp := w }

/-- R107, R119: reads at SP and subtracts 1 from it. -/
def pop (s : State) : Res Word :=
  match s.sp with
  | .str _ => .exc (.illegalMem s.sp) s
  | .int z => (memRead .read (.int z) s).bind fun v s => (dropTop z s).bind fun _ s => .ok v s

/-! ### Block transfers (R52) -/

/-- R52, R78: block `b` to page `p`. -/
def blockToPage (p : Fin 128) (b : Fin 512) (s : State) : State :=
  { s with mem := Cells.copy (romWord s.cfg) (512 * p.val) (fun i => s.peekDisk (512 * b.val + i)) 512 s.mem }

/-- R52, R80: page `p` to block `b`. -/
def pageToBlock (p : Fin 128) (b : Fin 512) (s : State) : State :=
  { s with disk := Cells.copy diskWord (512 * b.val) (fun i => s.peek (512 * p.val + i)) 512 s.disk }

/-- R136: DiskComplete. -/
def diskComplete (kind : Transfer) (p : Fin 128) (b : Fin 512) (s : State) : State :=
  { (match kind with | .load => blockToPage p b s | .store => pageToBlock p b s) with diskOp := .idle, pendDisk := true }

/-! ### Taking an exception (R149 to R151) -/

/-- R156: each page-table word the faulting instruction touched is again as it was, but that with the reference Translate it keeps its
update or not, by a free choice (I36, log 5). -/
def settleTouched : List (Nat × Option Word) → State → State
  | [], s => s
  | (a, old) :: t, s =>
    settleTouched t
      { (if s.cfg.translator = .opened ∨ Config.freeBit s.freeCount then s.poke a old else s) with freeCount := s.freeCount + 1 }

/-- R148: the code of a cause. -/
def Cause.code (cfg : Config) : Cause → Word
  | .illegalInstr => cfg.ecIllegalInstr
  | .illegalMem _ => cfg.ecIllegalMem
  | .pageFault _ => cfg.ecPageFault
  | .arith => cfg.ecArith

/-- R150: what EPN or EMA receives: what the cause reports if that is a word, else a free word. -/
def reportWord (cfg : Config) (n : Nat) : Option Word → Word
  | some w => if wordFits cfg w then w else anyWord cfg n
  | none => anyWord cfg n

/-- R150: the page a cause reports to EPN. -/
def Cause.page : Cause → Option Word
  | .pageFault w => some w
  | .illegalInstr | .illegalMem _ | .arith => none

/-- R150: the address a cause reports to EMA. -/
def Cause.addr : Cause → Option Word
  | .illegalMem w => some w
  | .illegalInstr | .pageFault _ | .arith => none

/-- R150: EC, EIP, EPN and EMA; what does not concern the cause becomes a free word. -/
def recordCause (c : Cause) (s : State) : State :=
  { s with
    ec := c.code s.cfg
    eip := s.ip
    epn := reportWord s.cfg s.freeCount c.page
    ema := reportWord s.cfg (s.freeCount + 1) c.addr
    freeCount := s.freeCount + 2 }

/-- R146, R149: `Int(IP)` is pushed through Translate; an IP that is no `Int` word has no such push (R10, R17). -/
def pushIp (s : State) : Res Unit :=
  match s.ip with
  | .int n => if immInRange s.cfg n then push (.int n) s else .refuse .badIp
  | .str _ => .refuse .badIp

/-- R149, R151: takes an exception. -/
def raise (c : Cause) (s : State) : Out :=
  match s.mode with
  | .priv => .fault (.privileged c)
  | .unpriv =>
    let t := recordCause c (settleTouched s.touched s)
    match pushIp t with
    | .ok _ u => .next { u with mode := .priv, ip := .int (handler 0) }
    | .exc _ _ => .refused .exceptionPush
    | .fault f => .fault f
    | .refuse r => .refused r

/-- R12: the outcome of an instruction, its exception taken. -/
def finish (x : Res Unit) : Out :=
  match x with
  | .ok _ s => .next s
  | .exc c s => raise c s
  | .fault f => .fault f
  | .refuse r => .refused r

/-! ### The return from a trap (R112, R154) -/

/-- R112: pops IP from the logical stack of the program returned to. -/
def returnFromTrap (s : State) : Res Unit :=
  match s.sp with
  | .str _ => .refuse .iretTranslate
  | .int z =>
    match translate .read (.int z) s with
    | .ok p s => (physRead p s).bind fun v s => (dropTop z s).bind fun _ s => .ok () { s with ip := v, mode := .unpriv }
    | .exc _ _ => .refuse .iretTranslate
    | .fault f => .fault f
    | .refuse r => .refuse r

/-! ### IP -/

/-- R17, R12: goes on with IP as an integer. -/
def withIp (s : State) (f : Int → Res Unit) : Res Unit :=
  match s.ip with
  | .int n => f n
  | .str _ => .refuse .badIp

/-- R17: `IP <- IP + 2`. -/
def advance (s : State) : Res Unit := withIp s fun n => .ok () { s with ip := .int (n + 2) }

/-- R66, R88: an instruction that only PRIV mode may execute. -/
def privilegedOnly (s : State) (x : Res Unit) : Res Unit :=
  match s.mode with
  | .priv => x
  | .unpriv => .exc .illegalInstr s

end Sys2Proof.Machine
end

