-- ==== Sys2Proof/Machine/Cycle.lean ====
section
/-! DEFINITION. What surrounds an instruction in the processor's step (60_exceptions R132 to R146): the fetch, the user, the counting
of instructions and the device interrupts. -/

namespace Sys2Proof.Machine

/-- R139, R140, R85: the user enters a word: the processor's INI takes it if it waits for one, else the console if it waits for an IN;
else it is ignored (log 7). -/
def userEnters (w : Word) (s : State) : State :=
  if s.waiting then { s with userIni := w :: s.userIni }
  else if s.consoleWait then { s with port := s.port.set 0 w, p0Valid := true, consoleWait := false, pendConsole := true } else s

/-- R139: what the user does in the gap before this step (log 7). -/
def userGapStep (s : State) : State :=
  match s.userGap with
  | [] => s
  | none :: gs => { s with userGap := gs }
  | some w :: gs => userEnters w { s with userGap := gs }

/-- R17, R49: IP may be fetched at: an even integer whose two words lie in the address space, in PRIV mode 0..65535, in UNPRIV mode
addresses that are words (R35). -/
def fetchable (s : State) : Bool :=
  match s.ip, s.mode with
  | .int z, .priv => decide (z % 2 = 0 ∧ 0 ≤ z ∧ z ≤ 65534)
  | .int z, .unpriv => decide (z % 2 = 0) && immInRange s.cfg z && immInRange s.cfg (z + 1)
  | .str _, _ => false

/-- R60: `MemRead(IP, 2)`, the lower address first.  The instruction has touched no auxiliary word yet (R156).  That the word at IP is
read before IP + 1 is translated, so that one which holds no value or is barred stops the fetch before an exception of that
translation, is the model's order: R11, R60 and R152 (1) place the two translations, not the reads (log 21). -/
def fetch (s : State) : Res (Word × Word) :=
  if fetchable s then
    withIpWords { s with touched := [] }
  else .refuse .badIp
where
  /-- The two words at IP. -/
  withIpWords (s : State) : Res (Word × Word) :=
    match s.ip with
    | .int z =>
      (memRead .fetch (.int z) s).bind fun w0 s => (memRead .fetch (.int (z + 1)) s).bind fun w1 s => .ok (w0, w1) s
    | .str _ => .refuse .badIp

/-- R134: TimerCount. -/
def timerCountOne (s : State) : State :=
  match s.cfg.ticks with
  | none => s
  | some t =>
    if s.timerCount + 1 = t then { s with pendTimer := true, timerCount := 0 } else { s with timerCount := s.timerCount + 1 }

/-- R136: DiskCount. -/
def diskCountOne (s : State) : State :=
  match s.diskOp with
  | .idle => s
  | .busy kind p b c =>
    if s.cfg.dtime ≤ c + 1 then diskComplete kind p b s else { s with diskOp := .busy kind p b (c + 1) }

/-- R133: CountOne. -/
def countOne (s : State) : State := diskCountOne (timerCountOne s)

/-- R133: the end of an instruction that began in mode `m`: it is counted if that was UNPRIV, whatever became of it. -/
def retire (m : Mode) (x : Out) : Out :=
  match x with
  | .next s => .next { (match m with | .unpriv => countOne s | .priv => s) with touched := [] }
  | .fault f => .fault f
  | .refused r => .refused r

/-- R130: the interrupt number of a device. -/
def Device.number : Device → Nat
  | .timer => 1
  | .disk => 2
  | .console => 3

/-- R30: PEND_k. -/
def State.pending (s : State) : Device → Bool
  | .timer => s.pendTimer
  | .disk => s.pendDisk
  | .console => s.pendConsole

/-- R142: PEND_k is cleared. -/
def State.clearPending (s : State) : Device → State
  | .timer => { s with pendTimer := false }
  | .disk => { s with pendDisk := false }
  | .console => { s with pendConsole := false }

/-- The devices whose interrupt is pending. -/
def State.pendingDevices (s : State) : List Device := [Device.timer, Device.disk, Device.console].filter s.pending

/-- R132, R144: which pending interrupt is taken: a free choice when there are several. -/
def chooseDevice (s : State) : Option (Device × State) :=
  match s.pendingDevices with
  | [] => none
  | [k] => some (k, s)
  | k :: ks => some ((k :: ks).getD (Config.freePick s.freeCount % (k :: ks).length) k, { s with freeCount := s.freeCount + 1 })

/-- R145, R146: TakeInterrupt(k). -/
def takeInterrupt (k : Device) (s : State) : Out :=
  match pushIp s with
  | .ok _ t => .next { t.clearPending k with mode := .priv, ip := .int (handler k.number), touched := [] }
  | .exc _ _ => .refused .interruptPush
  | .fault f => .fault f
  | .refuse r => .refused r

/-- R132: the interrupt to take before the next instruction, if there is one: none in PRIV mode. -/
def dueInterrupt (s : State) : Option (Device × State) :=
  match s.mode with
  | .priv => none
  | .unpriv => chooseDevice s

end Sys2Proof.Machine
end

