-- ==== Sys2Proof/Machine/Flags.lean ====
section
/-! DEFINITION. The machine has no flags (10_state R23).  Here stand the results the instructions compute: the arithmetic of
44_isa_supplement R96 and the comparison of R103. -/

namespace Sys2Proof.Machine

/-- R89 to R93: the arithmetic operations. -/
inductive ArithOp where
  | add
  | sub
  | mul
  | div
  | mod
  deriving DecidableEq, Repr

/-- R96 (3): the result as a word, if it lies within `INT_MIN..INT_MAX`. -/
def narrow (r : Int) (s : State) : Res Word :=
  if s.cfg.intMin ≤ r ∧ r ≤ s.cfg.intMax then .ok (.int r) s else .refuse .overflow

/-- R96 (4), (5): DIV and MOD of two numbers, with the operation `f` on a non-negative dividend and a positive divisor. -/
def divide (f : Int → Int → Int) (x y : Int) (s : State) : Res Word :=
  if x < 0 ∨ y ≤ 0 then .refuse .negativeDivision else narrow (f x y) s

/-- R92, R93, R96 (4): the arithmetic condition, looked at first. -/
def dividesByZero (op : ArithOp) (b : Word) : Bool :=
  match op with
  | .div | .mod => b == .int 0
  | .add | .sub | .mul => false

/-- R96: `arith(op, a, b)`. -/
def arith (op : ArithOp) (a b : Word) (s : State) : Res Word :=
  if dividesByZero op b then .exc .arith s
  else
    match a, b with
    | .int x, .int y =>
      match op with
      | .add => narrow (x + y) s
      | .sub => narrow (x - y) s
      | .mul => narrow (x * y) s
      | .div => divide (· / ·) x y s
      | .mod => divide (· % ·) x y s
    | _, _ => .refuse .stringArith

/-- R97 to R102: the relations. -/
inductive Relation where
  | lt
  | gt
  | eq
  | ne
  | ge
  | le
  deriving DecidableEq, Repr

/-- R97 to R103: the relation on two numbers, signed. -/
def Relation.holds : Relation → Int → Int → Bool
  | .lt, x, y => decide (x < y)
  | .gt, x, y => decide (y < x)
  | .eq, x, y => decide (x = y)
  | .ne, x, y => decide (x ≠ y)
  | .ge, x, y => decide (y ≤ x)
  | .le, x, y => decide (x ≤ y)

/-- R97 to R103: the word a comparison writes. -/
def compareWords (rel : Relation) (a b : Word) (s : State) : Res Word :=
  match a, b with
  | .int x, .int y => .ok (Word.ofBool (rel.holds x y)) s
  | .str x, .str y =>
    match rel with
    | .eq => .ok (Word.ofBool (decide (x = y))) s
    | .ne => .ok (Word.ofBool (decide (x ≠ y))) s
    | .lt | .gt | .ge | .le => .refuse .stringOrder
  | .int _, .str _ | .str _, .int _ => .refuse .mixedComparison

end Sys2Proof.Machine
end

