-- ==== Sys2Proof/Machine/Operands.lean ====
section
/-! DEFINITION. The registers by name and the operand checks (10_state R21; 40_data_transfer R72, R73; 42_disk_macros R77). -/

namespace Sys2Proof.Machine

/-- What the register or port of that name holds (R11). -/
def State.reg (s : State) : Reg → Word
  | .gpr i => s.gpr[i]
  | .bp => s.bp
  | .sp => s.sp
  | .ip => s.ip
  | .ptbr => s.ptbr
  | .ptlr => s.ptlr
  | .eip => s.eip
  | .ec => s.ec
  | .epn => s.epn
  | .ema => s.ema
  | .port i => s.port[i]

/-- `reg(r) <- v` (R11). -/
def State.setReg (s : State) (r : Reg) (v : Word) : State :=
  match r with
  | .gpr i => { s with gpr := s.gpr.set i v }
  | .bp => { s with bp := v }
  | .sp => { s with sp := v }
  | .ip => { s with ip := v }
  | .ptbr => { s with ptbr := v }
  | .ptlr => { s with ptlr := v }
  | .eip => { s with eip := v }
  | .ec => { s with ec := v }
  | .epn => { s with epn := v }
  | .ema => { s with ema := v }
  | .port i => { s with port := s.port.set i v }

/-- R19: the exception status registers. -/
def isStatus : Reg → Bool
  | .eip | .ec | .epn | .ema => true
  | .gpr _ | .bp | .sp | .ip | .ptbr | .ptlr | .port _ => false

/-- R150: the register keeps what it holds against every instruction but MOV, where the machine has it so (log 24). -/
def State.keeps (s : State) (r : Reg) : Bool := isStatus r && s.cfg.statusWrites == .byMov

/-- The result of an instruction other than MOV goes to the register it names (R88), if that takes it (R150; log 24). -/
def State.setResult (s : State) (r : Reg) (v : Word) : State := if s.keeps r then s else s.setReg r v

/-- R73: check_operands. -/
def checkRegs (rs : List Reg) (s : State) : Res Unit :=
  if Reg.ip ∈ rs then .refuse .ipOperand
  else if s.mode = .unpriv ∧ rs.any Reg.privileged then .exc .illegalInstr s
  else .ok () s

/-- `reg(r)` (R11); P0 while it is not valid reads as a free word (R86). -/
def readReg (r : Reg) (s : State) : Res Word :=
  if r = .port 0 ∧ s.p0Valid = false then drawWord s
  else .ok (s.reg r) s

/-- R72: MOV's write of a register; a MOV to P0 makes P0 valid (R86). -/
def movToReg (r : Reg) (v : Word) (s : State) : State :=
  if r = .port 0 then { s.setReg r v with p0Valid := true } else s.setReg r v

/-- The registers an operand names. -/
def operandRegs : Operand → List Reg
  | .reg r | .memReg r => [r]
  | .imm _ | .memImm _ | .str _ => []

/-- The registers an instruction names as operands (R73). -/
def instrRegs (i : Instr) : List Reg := i.operands.flatMap operandRegs

/-- The registers a disk macro's operand names. -/
def regsOf : RegImm → List Reg
  | .reg r => [r]
  | .imm _ => []

/-- R77: the value of a disk macro's operand. -/
def readRegImm (o : RegImm) (s : State) : Res Word :=
  match o with
  | .reg r => readReg r s
  | .imm z => .ok (.int z) s

/-- R77: an operand as a number below `n`. -/
def indexOfWord (n : Nat) : Word → Option (Fin n)
  | .int z => if h : 0 ≤ z ∧ z.toNat < n then some ⟨z.toNat, h.2⟩ else none
  | .str _ => none

end Sys2Proof.Machine
end

