-- ==== Sys2Proof/Machine/Arith.lean ====
section
/-! DEFINITION. The arithmetic instructions (44_isa_supplement R89 to R96). -/

namespace Sys2Proof.Machine

/-- R89 to R95: `reg(Ri) <- arith(op, reg(Ri), b)`, where `operand` reads `b`. -/
def arithTo (op : ArithOp) (ri : Reg) (operand : State → Res Word) (s : State) : Res Unit :=
  (readReg ri s).bind fun a s => (operand s).bind fun b s => (arith op a b s).bind fun v s => advance (s.setResult ri v)

/-- R89 to R93, `op Ri, Rj`. -/
def arithRegReg (op : ArithOp) (ri rj : Reg) (s : State) : Out :=
  finish <| (checkRegs [ri, rj] s).bind fun _ s => arithTo op ri (readReg rj) s

/-- R89 to R95, `op Ri, n`. -/
def arithRegImm (op : ArithOp) (ri : Reg) (n : Int) (s : State) : Out :=
  finish <| (checkRegs [ri] s).bind fun _ s => arithTo op ri (fun s => .ok (.int n) s) s

/-- R89: `ADD Ri, Rj`. -/
def execAddRegReg (ri rj : Reg) (s : State) : Out := arithRegReg .add ri rj s

/-- R89: `ADD Ri, n`. -/
def execAddRegImm (ri : Reg) (n : Int) (s : State) : Out := arithRegImm .add ri n s

/-- R90: `SUB Ri, Rj`. -/
def execSubRegReg (ri rj : Reg) (s : State) : Out := arithRegReg .sub ri rj s

/-- R90: `SUB Ri, n`. -/
def execSubRegImm (ri : Reg) (n : Int) (s : State) : Out := arithRegImm .sub ri n s

/-- R91: `MUL Ri, Rj`. -/
def execMulRegReg (ri rj : Reg) (s : State) : Out := arithRegReg .mul ri rj s

/-- R91: `MUL Ri, n`. -/
def execMulRegImm (ri : Reg) (n : Int) (s : State) : Out := arithRegImm .mul ri n s

/-- R92: `DIV Ri, Rj`. -/
def execDivRegReg (ri rj : Reg) (s : State) : Out := arithRegReg .div ri rj s

/-- R92: `DIV Ri, n`. -/
def execDivRegImm (ri : Reg) (n : Int) (s : State) : Out := arithRegImm .div ri n s

/-- R93: `MOD Ri, Rj`. -/
def execModRegReg (ri rj : Reg) (s : State) : Out := arithRegReg .mod ri rj s

/-- R93: `MOD Ri, n`. -/
def execModRegImm (ri : Reg) (n : Int) (s : State) : Out := arithRegImm .mod ri n s

/-- R94: `INR Ri`. -/
def execInr (ri : Reg) (s : State) : Out := arithRegImm .add ri 1 s

/-- R95: `DCR Ri`. -/
def execDcr (ri : Reg) (s : State) : Out := arithRegImm .sub ri 1 s

end Sys2Proof.Machine
end

