-- ==== Sys2Proof/Machine/Console.lean ====
section
/-! DEFINITION. The console instructions OUT, IN and INI (43_console_io R83 to R86). -/

namespace Sys2Proof.Machine

/-- R83: `OUT`. -/
def execConsoleOut (s : State) : Out :=
  finish <| privilegedOnly s <| advance { s with termOut := s.termOut ++ [s.port[1]] }

/-- R84: `IN`. -/
def execConsoleIn (s : State) : Out :=
  finish <| privilegedOnly s <|
    if s.consoleWait then .refuse .inWhileWaiting else advance { s with consoleWait := true, p0Valid := false }

/-- R85: `INI`.  While the user has entered no word the processor waits (log 7). -/
def execConsoleIni (s : State) : Out :=
  finish <| privilegedOnly s <|
    if s.cfg.debug = false then .refuse .iniOutsideDebug
    else if s.consoleWait then .refuse .iniWhileWaiting
    else
      match s.userIni with
      | [] => .ok () { s with waiting := true }
      | w :: ws => advance { s with port := s.port.set 0 w, p0Valid := true, userIni := ws, waiting := false }

end Sys2Proof.Machine
end

