-- ==== Sys2Proof/Machine/Control.lean ====
section
/-! DEFINITION. Control transfer: JMP, INT (41_control_transfer R74 to R76), JZ, JNZ, CALL, RET (44_isa_supplement R104, R105,
R108, R109). -/

namespace Sys2Proof.Machine

/-- R74: `JMP target`. -/
def execJmp (target : Int) (s : State) : Out := .next { s with ip := .int target }

/-- R75, R108: pushes the address of the next instruction, `Int(IP + 2)`. -/
def pushReturn (ip : Int) (s : State) : Res Unit := (exactWord (ip + 2) s).bind fun w s => push w s

/-- R75, R76: `INT n`.  The vector table is hard-coded, so the handler's address is `handler n` (R45). -/
def execIntr (n : Int) (s : State) : Out :=
  match s.mode with
  | .priv => .refused .intInPriv
  | .unpriv =>
    finish <|
      if n < 0 ∨ 18 < n then .exc .illegalInstr s
      else
        withIp s fun ip =>
          (pushReturn ip s).bind fun _ s => .ok () { s with mode := .priv, ip := .int (handler n.toNat) }

/-- R104, R105: branches to `target` when the register's being zero is `onZero`. -/
def branch (onZero : Bool) (ri : Reg) (target : Int) (s : State) : Res Unit :=
  (checkRegs [ri] s).bind fun _ s =>
    (readReg ri s).bind fun v s =>
      match v with
      | .int z => if decide (z = 0) = onZero then .ok () { s with ip := .int target } else advance s
      | .str _ => .refuse .stringBranch

/-- R104: `JZ Ri, target`. -/
def execJz (ri : Reg) (target : Int) (s : State) : Out := finish (branch true ri target s)

/-- R105: `JNZ Ri, target`. -/
def execJnz (ri : Reg) (target : Int) (s : State) : Out := finish (branch false ri target s)

/-- R108: `CALL target`. -/
def execCall (target : Int) (s : State) : Out :=
  finish <| withIp s fun ip => (pushReturn ip s).bind fun _ s => .ok () { s with ip := .int target }

/-- R109: `RET`. -/
def execRet (s : State) : Out := finish <| (pop s).bind fun v s => .ok () { s with ip := v }

end Sys2Proof.Machine
end

