-- ==== Sys2Proof/Machine/Disk.lean ====
section
/-! DEFINITION. The disk access macros LOADI, LOAD and STORE (42_disk_macros R77 to R82). -/

namespace Sys2Proof.Machine

/-- R77, R82: the checks common to the three macros, in order, and then the transfer `f` of a page and a block. -/
def diskMacroStep (page block : RegImm) (f : Fin 128 → Fin 512 → State → Res Unit) (s : State) : Res Unit :=
  privilegedOnly s <|
    (checkRegs (regsOf page ++ regsOf block) s).bind fun _ s =>
      (readRegImm page s).bind fun p s =>
        (readRegImm block s).bind fun b s =>
          match indexOfWord 128 p, indexOfWord 512 b with
          | some p, some b => if s.diskOp = .idle then f p b s else .refuse .diskBusy
          | _, _ => .fault .diskOperand

/-- R79, R80, R136: DISK_OP becomes busy; with XSM_DTIME = 0 the transfer completes at once. -/
def startTransfer (kind : Transfer) (p : Fin 128) (b : Fin 512) (s : State) : State :=
  if s.cfg.dtime = 0 then diskComplete kind p b s else { s with diskOp := .busy kind p b 0 }

/-- R78: `LOADI page, block`. -/
def execLoadi (page block : RegImm) (s : State) : Out :=
  finish <| diskMacroStep page block (fun p b s => if p = 0 then .refuse .romWrite else advance (blockToPage p b s)) s

/-- R79: `LOAD page, block`. -/
def execLoad (page block : RegImm) (s : State) : Out :=
  finish <| diskMacroStep page block (fun p b s => if p = 0 then .refuse .romWrite else advance (startTransfer .load p b s)) s

/-- R80: `STORE page, block`. -/
def execStore (page block : RegImm) (s : State) : Out :=
  finish <| diskMacroStep page block (fun p b s => advance (startTransfer .store p b s)) s

end Sys2Proof.Machine
end

