-- ==== Sys2Proof/Machine/Logic.lean ====
section
/-! DEFINITION. The comparison ("logical") instructions (44_isa_supplement R97 to R103). -/

namespace Sys2Proof.Machine

/-- R97 to R102: `reg(Ri) <- Int(1)` or `Int(0)` as the relation holds between Ri and Rj. -/
def compareRegs (rel : Relation) (ri rj : Reg) (s : State) : Out :=
  finish <|
    (checkRegs [ri, rj] s).bind fun _ s =>
      (readReg ri s).bind fun a s =>
        (readReg rj s).bind fun b s => (compareWords rel a b s).bind fun v s => advance (s.setResult ri v)

/-- R97: `LT Ri, Rj`. -/
def execLt (ri rj : Reg) (s : State) : Out := compareRegs .lt ri rj s

/-- R98: `GT Ri, Rj`. -/
def execGt (ri rj : Reg) (s : State) : Out := compareRegs .gt ri rj s

/-- R99: `EQ Ri, Rj`. -/
def execEq (ri rj : Reg) (s : State) : Out := compareRegs .eq ri rj s

/-- R100: `NE Ri, Rj`. -/
def execNe (ri rj : Reg) (s : State) : Out := compareRegs .ne ri rj s

/-- R101: `GE Ri, Rj`. -/
def execGe (ri rj : Reg) (s : State) : Out := compareRegs .ge ri rj s

/-- R102: `LE Ri, Rj`. -/
def execLe (ri rj : Reg) (s : State) : Out := compareRegs .le ri rj s

end Sys2Proof.Machine
end

