-- ==== Sys2Proof/Machine/Stack.lean ====
section
/-! DEFINITION. PUSH, POP (44_isa_supplement R106, R107), BACKUP and RESTORE (R114, R115). -/

namespace Sys2Proof.Machine

/-- R106: `PUSH Ri`. -/
def execPush (ri : Reg) (s : State) : Out :=
  finish <| (checkRegs [ri] s).bind fun _ s => (readReg ri s).bind fun v s => (push v s).bind fun _ s => advance s

/-- R107: `POP Ri`; the write of Ri is last. -/
def execPop (ri : Reg) (s : State) : Out :=
  finish <| (checkRegs [ri] s).bind fun _ s => (pop s).bind fun v s => advance (s.setResult ri v)

/-- R114: pushes registers in order. -/
def pushAll : List Reg → State → Res Unit
  | [], s => .ok () s
  | r :: rs, s => (push (s.reg r) s).bind fun _ s => pushAll rs s

/-- R115: pops into registers in order. -/
def popAll : List Reg → State → Res Unit
  | [], s => .ok () s
  | r :: rs, s => (pop s).bind fun v s => popAll rs (s.setReg r v)

/-- R114: `BACKUP`. -/
def execBackup (s : State) : Out :=
  finish <| privilegedOnly s <| (pushAll s.cfg.backupOrder s).bind fun _ s => advance s

/-- R115: `RESTORE`. -/
def execRestore (s : State) : Out :=
  finish <| privilegedOnly s <| (popAll s.cfg.backupOrder.reverse s).bind fun _ s => advance s

end Sys2Proof.Machine
end

