-- ==== Sys2Proof/Machine/System.lean ====
section
/-! DEFINITION. NOP, BRKP, IRET, HALT and ENCRYPT (44_isa_supplement R110 to R113, R116). -/

namespace Sys2Proof.Machine

/-- R110: `NOP`. -/
def execNop (s : State) : Out := finish (advance s)

/-- R111: `BRKP`, which changes no architectural state of its own. -/
def execBrkp (s : State) : Out := finish (advance s)

/-- R112: `IRET`. -/
def execIret (s : State) : Out := finish <| privilegedOnly s <| returnFromTrap s

/-- I40, R113: the block of a store still pending when the run ends holds, word by word, its old or its new contents. -/
def abandonStore (s : State) : State :=
  match s.diskOp with
  | .busy .store p b _ =>
    { s with
      disk := Cells.copy diskWord (512 * b.val)
        (fun i => if Config.freeBit (s.freeCount + i) then s.peek (512 * p.val + i) else s.peekDisk (512 * b.val + i)) 512 s.disk
      freeCount := s.freeCount + 512 }
  | _ => s

/-- R113: `HALT`; the machine stops and IP still addresses the HALT. -/
def execHalt (s : State) : Out := finish <| privilegedOnly s <| .ok () { abandonStore s with halted := true }

/-- R116: `Encrypt`, a word of the machine for each word. -/
def encryptWord (cfg : Config) (w : Word) : Word := fitWord cfg (Config.encrypt w)

/-- R116: `ENCRYPT Ri`. -/
def execEncrypt (ri : Reg) (s : State) : Out :=
  finish <| privilegedOnly s <|
    (checkRegs [ri] s).bind fun _ s => (readReg ri s).bind fun v s => advance (s.setResult ri (encryptWord s.cfg v))

end Sys2Proof.Machine
end

