-- ==== Sys2Proof/Machine/Transfer.lean ====
section
/-! DEFINITION. MOV, its seven shapes (40_data_transfer R71 to R73; 44_isa_supplement R117). -/

namespace Sys2Proof.Machine

/-- R72: a value read by `src` goes to the register `dst`. -/
def movReg (dst : Reg) (src : Res Word) : Res Unit := src.bind fun v s => advance (movToReg dst v s)

/-- R72: a register goes to the memory word whose address `addr` reads. -/
def movMem (src : Reg) (addr : State → Res Word) (s : State) : Res Unit :=
  (readReg src s).bind fun v s => (addr s).bind fun a s => (memWrite a v s).bind fun _ s => advance s

/-- R72, shape 1: `MOV dst, src`. -/
def execMovRegReg (dst src : Reg) (s : State) : Out :=
  finish <| (checkRegs [dst, src] s).bind fun _ s => movReg dst (readReg src s)

/-- R72, shape 2: `MOV dst, n`. -/
def execMovRegImm (dst : Reg) (n : Int) (s : State) : Out :=
  finish <| (checkRegs [dst] s).bind fun _ s => movReg dst (.ok (.int n) s)

/-- R72, shape 3: `MOV dst, [a]` with `a` a register. -/
def execMovRegIndReg (dst a : Reg) (s : State) : Out :=
  finish <| (checkRegs [dst, a] s).bind fun _ s => movReg dst ((readReg a s).bind fun L s => memRead .read L s)

/-- R72, shape 4: `MOV dst, [n]`. -/
def execMovRegIndImm (dst : Reg) (n : Int) (s : State) : Out :=
  finish <| (checkRegs [dst] s).bind fun _ s => movReg dst (memRead .read (.int n) s)

/-- R72, shape 5: `MOV [a], src` with `a` a register. -/
def execMovIndRegReg (a src : Reg) (s : State) : Out :=
  finish <| (checkRegs [a, src] s).bind fun _ s => movMem src (readReg a) s

/-- R72, shape 6: `MOV [n], src`. -/
def execMovIndImmReg (n : Int) (src : Reg) (s : State) : Out :=
  finish <| (checkRegs [src] s).bind fun _ s => movMem src (fun s => .ok (.int n) s) s

/-- R117, shape 7: `MOV dst, "chars"`. -/
def execMovRegStr (dst : Reg) (chars : List Char) (s : State) : Out :=
  finish <| (checkRegs [dst] s).bind fun _ s => movReg dst (.ok (.str chars) s)

end Sys2Proof.Machine
end

