-- ==== Sys2Proof/Machine/Dispatch.lean ====
section
/-! DEFINITION. The dispatch: one arm per constructor of Instr, each one call of that instruction's meaning. -/

namespace Sys2Proof.Machine

def exec (i : Instr) (s : State) : Host.Outcome State Fault Refusal :=
  match i with
  | .movRegReg dst src => Sys2Proof.Machine.execMovRegReg dst src s
  | .movRegImm dst n => Sys2Proof.Machine.execMovRegImm dst n s
  | .movRegIndReg dst a => Sys2Proof.Machine.execMovRegIndReg dst a s
  | .movRegIndImm dst n => Sys2Proof.Machine.execMovRegIndImm dst n s
  | .movIndRegReg a src => Sys2Proof.Machine.execMovIndRegReg a src s
  | .movIndImmReg n src => Sys2Proof.Machine.execMovIndImmReg n src s
  | .jmp target => Sys2Proof.Machine.execJmp target s
  | .intr n => Sys2Proof.Machine.execIntr n s
  | .loadi page block => Sys2Proof.Machine.execLoadi page block s
  | .load page block => Sys2Proof.Machine.execLoad page block s
  | .store page block => Sys2Proof.Machine.execStore page block s
  | .consoleOut => Sys2Proof.Machine.execConsoleOut s
  | .consoleIn => Sys2Proof.Machine.execConsoleIn s
  | .consoleIni => Sys2Proof.Machine.execConsoleIni s
  | .movRegStr dst chars => Sys2Proof.Machine.execMovRegStr dst chars s
  | .addRegReg ri rj => Sys2Proof.Machine.execAddRegReg ri rj s
  | .addRegImm ri n => Sys2Proof.Machine.execAddRegImm ri n s
  | .subRegReg ri rj => Sys2Proof.Machine.execSubRegReg ri rj s
  | .subRegImm ri n => Sys2Proof.Machine.execSubRegImm ri n s
  | .mulRegReg ri rj => Sys2Proof.Machine.execMulRegReg ri rj s
  | .mulRegImm ri n => Sys2Proof.Machine.execMulRegImm ri n s
  | .divRegReg ri rj => Sys2Proof.Machine.execDivRegReg ri rj s
  | .divRegImm ri n => Sys2Proof.Machine.execDivRegImm ri n s
  | .modRegReg ri rj => Sys2Proof.Machine.execModRegReg ri rj s
  | .modRegImm ri n => Sys2Proof.Machine.execModRegImm ri n s
  | .inr ri => Sys2Proof.Machine.execInr ri s
  | .dcr ri => Sys2Proof.Machine.execDcr ri s
  | .lt ri rj => Sys2Proof.Machine.execLt ri rj s
  | .gt ri rj => Sys2Proof.Machine.execGt ri rj s
  | .eq ri rj => Sys2Proof.Machine.execEq ri rj s
  | .ne ri rj => Sys2Proof.Machine.execNe ri rj s
  | .ge ri rj => Sys2Proof.Machine.execGe ri rj s
  | .le ri rj => Sys2Proof.Machine.execLe ri rj s
  | .jz ri target => Sys2Proof.Machine.execJz ri target s
  | .jnz ri target => Sys2Proof.Machine.execJnz ri target s
  | .push ri => Sys2Proof.Machine.execPush ri s
  | .pop ri => Sys2Proof.Machine.execPop ri s
  | .call target => Sys2Proof.Machine.execCall target s
  | .ret => Sys2Proof.Machine.execRet s
  | .nop => Sys2Proof.Machine.execNop s
  | .brkp => Sys2Proof.Machine.execBrkp s
  | .iret => Sys2Proof.Machine.execIret s
  | .halt => Sys2Proof.Machine.execHalt s
  | .backup => Sys2Proof.Machine.execBackup s
  | .restore => Sys2Proof.Machine.execRestore s
  | .encrypt ri => Sys2Proof.Machine.execEncrypt ri s

end Sys2Proof.Machine
end

