-- ==== Sys2Proof/Machine/Extension.lean ====
section
/-! DEFINITION. The instructions of an open ISA_EXT (00_scope R9; 92_eei_decisions D4): what their semantics say, done by the machine's own
accesses, in the order of 60_exceptions R152 and under the rules that bind every instruction. -/

namespace Sys2Proof.Machine

/-- What a register or port reads as: nothing where the mode gives no access to it (R21, R128); P0 while it is not valid is a free word
(R86). -/
def State.readsAs (s : State) (r : Reg) : Option Word :=
  if s.mode = .unpriv ∧ r.privileged then none
  else if r = .port 0 ∧ s.p0Valid = false then some (anyWord s.cfg s.freeCount)
  else some (s.reg r)

/-- R9: what the semantics say the instruction does in this state. -/
def behaviourOf (i : Instr) (s : State) : Behaviour := Config.openBehaviour i s.mode s.readsAs s.freeCount

/-- R152 (5): the words read, in order, each through the current mode's view of memory, and the effect they lead to. -/
def Behaviour.run : Behaviour → State → Res Effect
  | .act e, s => .ok e s
  | .read L next, s => (memRead .read L s).bind fun w s => (next w).run s

/-- R128, R129: only PRIV mode admits the effect: it writes a privileged register or port, returns from a trap or ends the run. -/
def Effect.needsPriv (e : Effect) : Bool :=
  e.regs.any (fun x => x.1.privileged) || e.ending == .toUnpriv || e.ending == .halt

/-- R152 (5), R156: every address stored to is translated before anything is written. -/
def locateAll : List (Word × Word) → State → Res (List (Nat × Word))
  | [], s => .ok [] s
  | (L, v) :: ws, s => (memAddr .write L s).bind fun a s => (locateAll ws s).bind fun as s => .ok ((a, v) :: as) s

/-- R46, R138: the words stored, in order. -/
def storeAll : List (Nat × Word) → State → Res Unit
  | [], s => .ok () s
  | (a, v) :: ws, s => (physWrite a (fitWord s.cfg v) s).bind fun _ s => storeAll ws s

/-- Whether an instruction may write a register: not IP, which its end alone sets (D37), and an exception status register only if it
names it and, where R150 binds it so, is a MOV (log 24). -/
def mayWrite (cfg : Config) (i : Instr) (r : Reg) : Bool :=
  r != .ip && (!isStatus r || ((instrRegs i).contains r && (i.mnemonic == .mov || cfg.statusWrites == .byName)))

/-- The registers and ports written, in order. -/
def setAll (i : Instr) : List (Reg × Word) → State → State
  | [], s => s
  | (r, v) :: ws, s => setAll i ws (if mayWrite s.cfg i r then s.setReg r (fitWord s.cfg v) else s)

/-- R17, R88, R154, R167: where control goes once everything else is written; a return from a trap that names no target is that of
R112. -/
def Effect.conclude (e : Effect) (s : State) : Res Unit :=
  match e.ending, e.target with
  | .goOn, none => advance s
  | .goOn, some w => .ok () { s with ip := fitWord s.cfg w }
  | .toUnpriv, none => returnFromTrap s
  | .toUnpriv, some w => .ok () { s with ip := fitWord s.cfg w, mode := .unpriv }
  | .halt, _ => .ok () { abandonStore s with halted := true }
  | .arith, _ => .exc .arith s
  | .refuse, _ => .refuse .extension

/-- R72, R86: a MOV that writes P0 makes it valid; no other instruction of the supplement does (log 15). -/
def Effect.validates (i : Instr) (e : Effect) : Bool := i.mnemonic == .mov && e.regs.any (fun x => x.1 == .port 0)

/-- R88, R148, R152 (5), (6): the effect, once the instruction has read.  What the mode does not admit (R128) is an illegal instruction,
at a place that R152 does not name (log 18); the addresses stored to are translated; an arithmetic condition or a refusal comes after
that and before any write. -/
def Effect.apply (i : Instr) (e : Effect) (s : State) : Res Unit :=
  if s.mode = .unpriv ∧ e.needsPriv then .exc .illegalInstr s
  else
    (locateAll e.stores s).bind fun as s =>
      match e.ending with
      | .arith => .exc .arith s
      | .refuse => .refuse .extension
      | .goOn | .toUnpriv | .halt =>
        (storeAll as s).bind fun _ s =>
          (e.conclude (setAll i e.regs s)).bind fun _ s => .ok () { s with p0Valid := s.p0Valid || e.validates i }

/-- An instruction of an open ISA_EXT: its privilege (R66, R152 (3)), the registers it names (R73, R152 (4)), what it reads, its effect.
The draw it may use is spent. -/
def extension (i : Instr) (s : State) : Res Unit :=
  if s.mode = .unpriv ∧ Config.openPrivileged i then .exc .illegalInstr s
  else
    (checkRegs (instrRegs i) s).bind fun _ s =>
      ((behaviourOf i s).run { s with freeCount := s.freeCount + 1 }).bind fun e s => e.apply i s

end Sys2Proof.Machine
end

