-- ==== Sys2Proof/Machine/Step.lean ====
section
/-! DEFINITION. One step of the machine (60_exceptions R132), and placing an instruction where the step fetches it. -/

namespace Sys2Proof.Machine

/-- R9, R61: executes an instruction: one of the supplement has the meaning ISA_EXT gives it, which the reference one takes from R88 to
R118. -/
def execute (i : Instr) (s : State) : Host.Outcome State Fault Refusal :=
  if i.supplement ∧ s.cfg.isaMeaning = .opened then finish (extension i s) else exec i s

/-- R132, R152 (2), R67: the two words fetched are decoded and executed; an illegal instruction is an exception condition. -/
def execWords (w : Word × Word) (s : State) : Host.Outcome State Fault Refusal :=
  match decodeWords s.cfg w.1 w.2 with
  | .ok i => execute i s
  | .error _ => raise .illegalInstr s

/-- R132: fetches and executes one instruction, and counts it (R133). -/
def runInstruction (s : State) : Host.Outcome State Fault Refusal :=
  retire s.mode <|
    match fetch s with
    | .ok w t => execWords w t
    | .exc c t => raise c t
    | .fault f => .fault f
    | .refuse r => .refused r

/-- R132: ProcessorStep: an interrupt entry or an instruction. -/
def processorStep (s : State) : Host.Outcome State Fault Refusal :=
  match dueInterrupt s with
  | some (k, t) => takeInterrupt k t
  | none => runInstruction s

/-- One step: nothing once halted (R132, R113), else what the user does in the gap before it (R139), then the processor's step. -/
def step (s : State) : Host.Outcome State Fault Refusal :=
  if s.halted then .next s else processorStep (userGapStep s)

/-- The state with two words where the next step fetches them: the machine runs, no interrupt is due before the instruction, and the
words stand at IP as the current mode sees it (log 9). -/
def State.withFetchWord (s : State) (nbits w : Nat) : State :=
  let t := { s with halted := false, userGap := [], pendTimer := false, pendDisk := false, pendConsole := false }
  match memAddr .fetch t.ip t with
  | .ok a _ => (t.poke a (some (wordsOfBits nbits w).1)).poke (a + 1) (some (wordsOfBits nbits w).2)
  | _ => t

end Sys2Proof.Machine
end

