-- ==== Sys2Proof/WellFormed.lean ====
section
/-! DEFINITION. Which instructions have an encoding (30_encoding R62, R63; 44_isa_supplement R117), and which configurations the spec
admits (00_scope R8, R9). -/

namespace Sys2Proof

/-- An operand that the configuration admits. -/
def operandFits (cfg : Config) : Operand → Bool
  | .reg _ | .memReg _ => true
  | .imm z | .memImm z => immInRange cfg z
  | .str cs => strFits cfg cs

/-- R62, R63: an instruction is well formed when its operands are admitted and its text fits in two words. -/
def WellFormed (cfg : Config) (i : Instr) : Bool :=
  i.operands.all (operandFits cfg) && decide ((instrText i).length ≤ 2 * cfg.wordChars)

/-- R161: the two words are words of the machine, and its decoder reads the instruction in them. -/
abbrev Spells (cfg : Config) (w : Word × Word) (i : Instr) : Prop :=
  wordFits cfg w.1 = true ∧ wordFits cfg w.2 = true ∧ (decodeWords cfg w.1 w.2).toOption = some i

/-- R61: every instruction that a machine with an open decoder admits is spelled by some pair of words.  (For Decode_ref this is R62's
round trip, on the instructions whose text fits.) -/
def Config.SpellsAll (c : Config) : Prop :=
  c.decoder = .opened → ∀ i, admits c i = true → ∃ w : Word × Word, Spells c w i

/-- The domains R8, R9 and R114 give the parameters, and the ROM of R161.  With the reference decoder no configuration with WORD_CHARS
under 5 is admissible, since not even the text `LOADI 1,0` fits in two words (R62); an open decoder may spell it (log 23). -/
abbrev Config.InDomain (c : Config) : Prop :=
  c.intMin ≤ 0 ∧ 65535 ≤ c.intMax ∧ 1 ≤ c.wordChars ∧ c.ticks ≠ some 0 ∧
  [c.ecPageFault, c.ecIllegalInstr, c.ecIllegalMem, c.ecArith].Nodup ∧
  c.backupOrder.Perm Config.referenceBackupOrder ∧
  (∀ w ∈ [c.ecPageFault, c.ecIllegalInstr, c.ecIllegalMem, c.ecArith], wordFits c w = true) ∧
  Spells c c.romLoad bootLoad ∧ Spells c c.romJump bootJump

/-- The configurations the spec admits: parameters in their domains, and Decode's contract. -/
structure Config.Admissible (c : Config) : Prop where
  inDomain : c.InDomain
  spellsAll : c.SpellsAll

end Sys2Proof
end

