-- ==== Sys2Proof/Safety.lean ====
section
/-! DEFINITION. The terms statements are made in: what a safe state is, when operands are accepted, and what an instruction leaves
unchanged. -/

namespace Sys2Proof.Machine

/-- Page 0 holds the ROM (R44, R46, R161). -/
def State.RomIntact (s : State) : Prop := ∀ a, a < 512 → s.peek a = romWord s.cfg a

/-- The pending transfer is one that LOAD or STORE can have started and that has not run out (R46, R79, R80, R136). -/
def State.TransferSound (s : State) : Prop :=
  ∀ kind p b c, s.diskOp = .busy kind p b c → c < s.cfg.dtime ∧ (kind = .load → p ≠ 0)

/-- The timer has not expired (R134). -/
def State.TimerSound (s : State) : Prop := ∀ t, s.cfg.ticks = some t → s.timerCount < t

/-- The invariant of the machine between two steps. -/
structure State.Inv (s : State) : Prop where
  admissible : s.cfg.Admissible
  memWf : s.memWf
  diskWf : s.diskWf
  rom : s.RomIntact
  transfer : s.TransferSound
  timer : s.TimerSound
  untouched : s.touched = []

/-- R10, R35: every register and port, every word of memory and disk, every word displayed or still to come from the user is a word of the
machine.  IP alone may be an integer past INT_MAX, which R17 stores as it is. -/
structure State.WordsFit (s : State) : Prop where
  regs : ∀ r, r ≠ .ip → wordFits s.cfg (s.reg r) = true
  ip : wordFits s.cfg s.ip = true ∨ ∃ z, s.ip = .int z ∧ s.cfg.intMax < z
  mem : ∀ a w, s.peek a = some w → wordFits s.cfg w = true
  disk : ∀ a w, s.peekDisk a = some w → wordFits s.cfg w = true
  term : ∀ w ∈ s.termOut, wordFits s.cfg w = true
  gap : ∀ w, some w ∈ s.userGap → wordFits s.cfg w = true
  ini : ∀ w ∈ s.userIni, wordFits s.cfg w = true

/-- The word of an exact result: the number where that is a word of the machine, else some free word (log 6). -/
def IsExact (cfg : Config) (z : Int) (w : Word) : Prop :=
  (immInRange cfg z = true → w = .int z) ∧ (immInRange cfg z = false → ∃ j, w = anyWord cfg j)

/-- What the register `r` holds after an instruction other than MOV gave it the result `v` (R88): where R150 binds the machine so, an
exception status register what it held (log 24). -/
def State.taken (s : State) (r : Reg) (v : Word) : Word := if s.keeps r then s.reg r else v

/-- Where the reads of an open walk lead, the words being what memory holds (R41). -/
def Walk.last (s : State) : Walk → Walk
  | .read a next =>
    match s.peek a.val with
    | some v => (next v).last s
    | none => .read a next
  | .illegalMem a => .illegalMem a
  | .pageFault n => .pageFault n
  | .addr p ws => .addr p ws

/-- R73 (3): the registers an instruction names are accepted: none is IP, and in UNPRIV mode none is privileged. -/
def Accepts (rs : List Reg) (s : State) : Prop :=
  Reg.ip ∉ rs ∧ (s.mode = .unpriv → ∀ r ∈ rs, r.privileged = false)

/-- Every register and port outside `rs` holds in `t` what it holds in `s`. -/
def SameRegs (rs : List Reg) (s t : State) : Prop := ∀ r, r ∉ rs → t.reg r = s.reg r

/-- Every word of memory outside the addresses `as` holds in `t` what it holds in `s`. -/
def SameMem (as : List Nat) (s t : State) : Prop := ∀ a, a ∉ as → t.peek a = s.peek a

/-- Every word of the disk holds in `t` what it holds in `s`. -/
def SameDisk (s t : State) : Prop := ∀ a, t.peekDisk a = s.peekDisk a

/-- The configuration, the timer, the console, what is pending, the terminal, the halt, the wait and the user's input are unchanged. -/
structure SameDevices (s t : State) : Prop where
  cfg : t.cfg = s.cfg
  timerCount : t.timerCount = s.timerCount
  consoleWait : t.consoleWait = s.consoleWait
  pendTimer : t.pendTimer = s.pendTimer
  pendConsole : t.pendConsole = s.pendConsole
  termOut : t.termOut = s.termOut
  halted : t.halted = s.halted
  waiting : t.waiting = s.waiting
  userGap : t.userGap = s.userGap
  userIni : t.userIni = s.userIni

/-- The disk controller is unchanged: DISK_OP, PEND_DISK and the disk. -/
structure SameController (s t : State) : Prop where
  diskOp : t.diskOp = s.diskOp
  pendDisk : t.pendDisk = s.pendDisk
  disk : SameDisk s t

/-- An instruction's frame: only the registers `rs` and the memory words `as` may differ; the mode, the devices and the disk
controller are unchanged.  Not part of it: P0_VALID, which each statement gives by itself, the free-value counter and the note of
touched auxiliary words (logs 4, 5). -/
structure Frame (rs : List Reg) (as : List Nat) (s t : State) : Prop where
  regs : SameRegs rs s t
  mem : SameMem as s t
  mode : t.mode = s.mode
  devices : SameDevices s t
  controller : SameController s t

/-- No transfer is pending on the page of this address (R138). -/
def Unlocked (s : State) (a : Nat) : Prop := ∀ kind p b c, s.diskOp = .busy kind p b c → a / 512 ≠ p.val

/-- In PRIV mode the first `j` words above `z` can be pushed to: each an address of memory outside the ROM, on no page of a pending
transfer. -/
def Pushable (s : State) (z : Int) (j : Nat) : Prop := ∀ i : Nat, i < j → ∃ p : Nat, z + 1 + i = p ∧ 512 ≤ p ∧ p ≤ 65535 ∧ Unlocked s p

/-- In PRIV mode the `j` words from `z` down can be popped: each an address of memory that holds a value, on no page of a pending load. -/
def Poppable (s : State) (z : Int) (j : Nat) : Prop :=
  ∀ i : Nat, i < j → ∃ p : Nat, z - i = p ∧ p ≤ 65535 ∧ readLocked s p = false ∧ ∃ v, s.peek p = some v

/-- R118: the instructions only PRIV mode may execute. -/
def privilegedInstr : Instr → Bool
  | .loadi _ _ | .load _ _ | .store _ _ | .consoleIn | .consoleIni | .consoleOut => true
  | .iret | .halt | .backup | .restore | .encrypt _ => true
  | .movRegReg _ _ | .movRegImm _ _ | .movRegIndReg _ _ | .movRegIndImm _ _ | .movIndRegReg _ _ | .movIndImmReg _ _ => false
  | .movRegStr _ _ | .jmp _ | .intr _ | .jz _ _ | .jnz _ _ | .push _ | .pop _ | .call _ | .ret | .nop | .brkp => false
  | .addRegReg _ _ | .addRegImm _ _ | .subRegReg _ _ | .subRegImm _ _ | .mulRegReg _ _ | .mulRegImm _ _ => false
  | .divRegReg _ _ | .divRegImm _ _ | .modRegReg _ _ | .modRegImm _ _ | .inr _ | .dcr _ => false
  | .lt _ _ | .gt _ _ | .eq _ _ | .ne _ _ | .ge _ _ | .le _ _ => false

end Sys2Proof.Machine
end

