-- ==== Sys2Proof/Certificates/Slice0/Obligations.lean ====
section
/-! DEFINITION. The statements for the provers: what the rules of spec/ say the machine does. -/

open Sys2Proof Sys2Proof.Machine

/-! ### Start-up -/

/-- R159 and the start-up values of 10_state R34 that are the spec's own: the machine starts by fetching the first two words of page 0,
in privileged mode, devices idle, nothing pending, the terminal empty, memory outside the ROM without value. -/
def Obligations.StartUpFetchesFirstWordOfPageZero : Prop :=
  State.reset.ip = .int 0 ∧
  (∃ w0 w1, State.reset.peek 0 = some w0 ∧ State.reset.peek 1 = some w1 ∧ fetch State.reset = .ok (w0, w1) State.reset) ∧
  State.reset.mode = .priv ∧ State.reset.timerCount = 0 ∧ State.reset.diskOp = .idle ∧ State.reset.consoleWait = false ∧
  State.reset.p0Valid = false ∧ State.reset.halted = false ∧ State.reset.waiting = false ∧
  (∀ k, State.reset.pending k = false) ∧ State.reset.termOut = [] ∧
  (∀ a, 512 ≤ a → State.reset.peek a = none)

/-- R44, R161: while page 0 holds the ROM, its first four words decode, under every admissible configuration, to the two boot
instructions, whatever the machine's decoder (log 23); the words up to the vector table and word 511 hold no value, and the table holds
the handler addresses. -/
def Obligations.BootRomHoldsTwoInstructions : Prop :=
  ∀ s : State, s.cfg.Admissible → s.RomIntact →
    (∃ w0 w1 w2 w3, s.peek 0 = some w0 ∧ s.peek 1 = some w1 ∧ s.peek 2 = some w2 ∧ s.peek 3 = some w3 ∧
      decodeWords s.cfg w0 w1 = .ok (.loadi (.imm 1) (.imm 0)) ∧ decodeWords s.cfg w2 w3 = .ok (.jmp 512)) ∧
    (∀ a, 4 ≤ a → a ≤ 491 → s.peek a = none) ∧ s.peek 511 = none ∧
    (∀ k, k ≤ 18 → s.peek (492 + k) = some (.int (1024 * (k + 1))))

/-- R162: the boot sequence: from IP 0 in privileged mode, with the ROM in place and no transfer pending, two steps bring disk
block 0 into page 1 and reach its first word, and the third executes the boot block's first instruction.  Stated where the user does
nothing (the schedule `userGap` is the model's, log 7). -/
def Obligations.BootRunsTheBootBlock : Prop :=
  ∀ s : State, s.cfg.Admissible → s.memWf → s.RomIntact → s.mode = .priv → s.ip = .int 0 → s.diskOp = .idle →
    s.halted = false → s.userGap = [] →
    ∃ t u : State, step s = .next t ∧ (∀ i, i < 512 → t.peek (512 + i) = s.peekDisk i) ∧ t.ip = .int 2 ∧
      step t = .next u ∧ (∀ i, i < 512 → u.peek (512 + i) = s.peekDisk i) ∧ u.ip = .int 512 ∧ u.mode = .priv ∧
      ∀ w0 w1 i, s.peekDisk 0 = some w0 → s.peekDisk 1 = some w1 → decodeWords s.cfg w0 w1 = .ok i → step u = retire .priv (execute i u)

/-! ### Encoding -/

/-- R62: `Decode_ref(Encode_ref(i)) = i` for every instruction with an encoding, every operand and every configuration; a machine whose
decoder is Decode_ref reads the instruction if it is the source's or of its ISA_EXT.  R61: under an admissible configuration, whatever
its decoder, some pair of words spells each such instruction. -/
def Obligations.DecodeOfEncodeIsTheInstruction : Prop :=
  ∀ (cfg : Config) (i : Instr), WellFormed cfg i = true →
    decode cfg (encode cfg i).1 (encode cfg i).2 = .ok i ∧
    ((i.supplement = true → i.mnemonic ∈ cfg.isaExt) →
      (cfg.decoder = .reference → decodeWords cfg (encode cfg i).1 (encode cfg i).2 = .ok i) ∧
      (cfg.Admissible → ∃ w : Word × Word, Spells cfg w i))

/-- R62, R63: words written out from the spec's own encodings decode to the instructions they stand for (vectors V10, V19, V20 and
programs P1, P3, P4).  Under the reference configuration (the model's choice, log 2). -/
def Obligations.SpecTextsDecodeAsWritten : Prop :=
  decode Config.reference (.str "MOV R0, 3".toList) (.str []) = .ok (.movRegImm (.gpr 0) 3) ∧
  decode Config.reference (.str "MOV R0, ".toList) (.str "3".toList) = .ok (.movRegImm (.gpr 0) 3) ∧
  decode Config.reference (.str "MOV IP, 5".toList) (.str []) = .ok (.movRegImm .ip 5) ∧
  decode Config.reference (.str "INT 19".toList) (.str []) = .ok (.intr 19) ∧
  decode Config.reference (.str "MOV P1, R0".toList) (.str []) = .ok (.movRegReg (.port 1) (.gpr 0)) ∧
  decode Config.reference (.str "LOADI 1, 0".toList) (.str []) = .ok (.loadi (.imm 1) (.imm 0)) ∧
  decode Config.reference (.str "JNZ R1, 516".toList) (.str []) = .ok (.jnz (.gpr 1) 516) ∧
  decode Config.reference (.str "OUT".toList) (.str []) = .ok .consoleOut ∧
  decode Config.reference (.str "MOV R0, \"0100\"".toList) (.str []) = .ok (.movRegStr (.gpr 0) ['0', '1', '0', '0'])

/-- R67: two words that do not decode are an illegal instruction: an exception in UNPRIV mode, a fault in PRIV mode.  So are words that
spell an instruction outside ISA_EXT, or one with an operand that is no word of the machine (R9, R63; log 18). -/
def Obligations.IllegalWordsTrapOrFault : Prop :=
  ∀ (s : State) (w : Word × Word),
    (∀ e, decodeWords s.cfg w.1 w.2 = .error e →
      (s.mode = .unpriv → execWords w s = raise .illegalInstr s) ∧
      (s.mode = .priv → execWords w s = .fault (.privileged .illegalInstr))) ∧
    (∀ e, spelled s.cfg w.1 w.2 = .error e → decodeWords s.cfg w.1 w.2 = .error e) ∧
    (∀ i, spelled s.cfg w.1 w.2 = .ok i →
      ((i.supplement = true ∧ i.mnemonic ∉ s.cfg.isaExt) ∨ (∃ o ∈ i.operands, operandInRange s.cfg o = false) →
        decodeWords s.cfg w.1 w.2 = .error .notAdmitted) ∧
      ((i.supplement = true → i.mnemonic ∈ s.cfg.isaExt) → (∀ o ∈ i.operands, operandInRange s.cfg o = true) →
        execWords w s = execute i s))

/-! ### Memory and translation -/

/-- Two memories in canonical form (the model's representation, log 10), under one configuration, that read alike are equal data. -/
def Obligations.CanonicalMemoriesThatReadAlikeAreEqual : Prop :=
  ∀ s t : State, s.cfg = t.cfg → s.memWf → t.memWf → (∀ a, s.peek a = t.peek a) → s.mem = t.mem

/-- R38, R40: in PRIV mode an address from 0 to 65535 is the physical word of that number; any other word is an exception condition,
which that mode turns into a fault.  In UNPRIV mode the check belongs to Translate. -/
def Obligations.PrivilegedAddressesArePhysical : Prop :=
  ∀ (s : State) (k : Access),
    (s.mode = .priv →
      (∀ n : Nat, n ≤ 65535 → memAddr k (.int n) s = .ok n s) ∧
      (∀ L : Word, (∀ n : Nat, n ≤ 65535 → L ≠ .int n) →
        memAddr k L s = .exc (.illegalMem L) s ∧ raise (.illegalMem L) s = .fault (.privileged (.illegalMem L)))) ∧
    (s.mode = .unpriv → ∀ L : Word, memAddr k L s = translate k L s)

/-- R121 to R123, the reference Translate: with a valid entry, writable for a write, in unlocked memory outside the ROM, a
translation gives the page's word, sets the reference bit and, for a write, the dirty bit, and changes no other word and no register. -/
def Obligations.TranslationFollowsTheEntryAndSetsItsBits : Prop :=
  ∀ (s : State) (k : Access) (z n b : Int) (e q : Nat) (x : Aux), s.cfg.translator = .reference → immInRange s.cfg z = true →
    s.memWf → s.ptlr = .int n → s.ptbr = .int b → 0 ≤ z → z / 512 < n → (e : Int) = b + 2 * (z / 512) → 511 ≤ e → e + 1 ≤ 65535 →
    s.peek (e + 1) = some (wordOfAux x) → x.valid = true → (k = .write → x.write = true) →
    s.peek e = some (.int q) → q ≤ 127 → Unlocked s e → Unlocked s (e + 1) →
    ∃ t, translate k (.int z) s = .ok (512 * q + (z % 512).toNat) t ∧
      t.peek (e + 1) = some (wordOfAux { x with ref := true, dirty := x.dirty || decide (k = .write) }) ∧
      Frame [] [e + 1] s t ∧ t.p0Valid = s.p0Valid

/-- R120 to R122, the reference Translate: an address that is negative or lies in a page at or past PTLR, or any address while PTLR is not
an Int, is an illegal memory access at that address; an entry whose words lie outside physical memory, or any while PTBR is not an Int,
is refused (log 12); an auxiliary word of another shape is refused; an entry whose valid bit is 0 is a page fault with its page number;
a valid entry whose page number is not an Int in 0..127 is refused; a write through any other entry whose write bit is 0 is an illegal
memory access.  That the page number comes before the write bit is the model's reading (log 11). -/
def Obligations.TranslationRejectsInOrder : Prop :=
  ∀ (s : State) (k : Access) (z : Int), s.cfg.translator = .reference → immInRange s.cfg z = true →
    (((∃ cs, s.ptlr = .str cs) ∨ z < 0 ∨ (∃ n, s.ptlr = .int n ∧ n ≤ z / 512)) →
      translate k (.int z) s = .exc (.illegalMem (.int z)) s) ∧
    (∀ n : Int, s.ptlr = .int n → 0 ≤ z → z / 512 < n →
      (((∃ cs, s.ptbr = .str cs) ∨ ∃ b, s.ptbr = .int b ∧ (b + 2 * (z / 512) < 0 ∨ 65535 < b + 2 * (z / 512) + 1)) →
        translate k (.int z) s = .refuse .pageTableAddress) ∧
      (∀ (b : Int) (e : Nat) (v : Word), s.ptbr = .int b → (e : Int) = b + 2 * (z / 512) → e + 1 ≤ 65535 → Unlocked s (e + 1) →
        s.peek (e + 1) = some v →
        ((∀ x : Aux, v ≠ wordOfAux x) → translate k (.int z) s = .refuse .pageTableEntry) ∧
        (∀ x : Aux, v = wordOfAux x →
          (x.valid = false → translate k (.int z) s = .exc (.pageFault (.int (z / 512))) s) ∧
          (∀ w, x.valid = true → Unlocked s e → s.peek e = some w →
            ((∀ q : Nat, q ≤ 127 → w ≠ .int q) → translate k (.int z) s = .refuse .pageTableEntry) ∧
            (∀ q : Nat, q ≤ 127 → w = .int q → k = .write → x.write = false →
              translate k (.int z) s = .exc (.illegalMem (.int z)) s)))))

/-- What addressing changes (R38, R41): nothing in PRIV mode; in UNPRIV mode, with the reference Translate only the auxiliary word of the
address's entry, with an open one only the words it says it writes.  R148: in UNPRIV mode a word that is not an Int (or a number that is
no word, log 6) is an illegal memory access whatever the Translate, and no access raises any exception but that and a page fault.  An
open Translate is a walk that depends on PTBR, PTLR, the address, the kind and the physical words it reads; its answer is where its
reads lead, and a word it reads that is barred or holds no value stops it (R12, R138; log 18). -/
def Obligations.AddressingChangesOnlyTheEntrysBits : Prop :=
  ∀ (s t : State) (k : Access) (L : Word) (p : Nat) (w : Walk), s.memWf → w = Config.openTranslate s.ptbr s.ptlr L k →
    (memAddr k L s = .ok p t →
      p ≤ 65535 ∧ t.p0Valid = s.p0Valid ∧ (s.mode = .priv → t = s) ∧
      (∀ lp off e, s.mode = .unpriv → s.cfg.translator = .reference → logicalPage s L = some (lp, off) → entryAddr s lp = some e →
        Frame [] [e + 1] s t) ∧
      (s.mode = .unpriv → s.cfg.translator = .opened →
        ∃ q ws, w.last s = .addr q ws ∧ p = q.val ∧ Frame [] (ws.map fun x => x.1.val) s t)) ∧
    (∀ c, memAddr k L s = .exc c t → t = s ∧ ((∃ a, c = .illegalMem a) ∨ ∃ n, c = .pageFault n)) ∧
    (s.mode = .unpriv → (∃ cs, L = .str cs) ∨ wordFits s.cfg L = false → memAddr k L s = .exc (.illegalMem L) s) ∧
    (∀ z, s.mode = .unpriv → s.cfg.translator = .opened → L = .int z → immInRange s.cfg z = true → memAddr k L s = w.run s) ∧
    (∀ a, (Walk.illegalMem a).run s = .exc (.illegalMem a) s) ∧ (∀ n, (Walk.pageFault n).run s = .exc (.pageFault n) s) ∧
    (∀ (a : Fin 65536) (next : Word → Walk),
      (∀ v, physRead a.val s = .ok v s → (Walk.read a next).run s = (next v).run s) ∧
      (∀ f, physRead a.val s = .fault f → (Walk.read a next).run s = .fault f) ∧
      (∀ r, physRead a.val s = .refuse r → (Walk.read a next).run s = .refuse r))

/-- R46, R138: no word of page 0 is written; while a load of a page is pending no word of the page is read or written; while a store is
pending none is written, and reading it is not barred.  A word that holds no value is not read (R12). -/
def Obligations.RomAndPendingPagesAreBarred : Prop :=
  ∀ (s : State) (a : Nat) (v : Word),
    (a < 512 → physWrite a v s = .refuse .romWrite) ∧
    (∀ kind p b c, s.diskOp = .busy kind p b c → a / 512 = p.val →
      (512 ≤ a → physWrite a v s = .refuse .pageLocked) ∧ (kind = .load → physRead a s = .refuse .pageLocked) ∧
      (kind = .store → ∀ w, s.peek a = some w → physRead a s = .ok w s)) ∧
    (readLocked s a = false → s.peek a = none → physRead a s = .fault .noValue)

/-! ### Data transfer -/

/-- R72, R117: MOV of a register, a number or a string to a register.  A MOV to P0 makes P0 valid. -/
def Obligations.MovToRegisterCompletes : Prop :=
  ∀ (s t : State) (dst src : Reg) (v : Word) (n m : Int) (cs : List Char), s.ip = .int n →
    (Accepts [dst, src] s → readReg src s = .ok v t →
      ∃ u, exec (.movRegReg dst src) s = .next u ∧ u.reg dst = v ∧ u.ip = .int (n + 2) ∧ Frame [dst, .ip] [] s u ∧
        u.p0Valid = (s.p0Valid || decide (dst = .port 0))) ∧
    (Accepts [dst] s →
      (∃ u, exec (.movRegImm dst m) s = .next u ∧ u.reg dst = .int m ∧ u.ip = .int (n + 2) ∧ Frame [dst, .ip] [] s u ∧
        u.p0Valid = (s.p0Valid || decide (dst = .port 0))) ∧
      (∃ u, exec (.movRegStr dst cs) s = .next u ∧ u.reg dst = .str cs ∧ u.ip = .int (n + 2) ∧ Frame [dst, .ip] [] s u ∧
        u.p0Valid = (s.p0Valid || decide (dst = .port 0))))

/-- R72: MOV of a memory word to a register, its address in a register or given.  `t` is the state after the address is translated. -/
def Obligations.MovFromMemoryCompletes : Prop :=
  ∀ (s s1 t : State) (dst a : Reg) (L v : Word) (n m : Int) (p : Nat), s.ip = .int n → t.peek p = some v →
    readLocked t p = false →
    (Accepts [dst, a] s → readReg a s = .ok L s1 → memAddr .read L s1 = .ok p t →
      ∃ u, exec (.movRegIndReg dst a) s = .next u ∧ u.reg dst = v ∧ u.ip = .int (n + 2) ∧ Frame [dst, .ip] [] t u ∧
        u.p0Valid = (t.p0Valid || decide (dst = .port 0))) ∧
    (Accepts [dst] s → memAddr .read (.int m) s = .ok p t →
      ∃ u, exec (.movRegIndImm dst m) s = .next u ∧ u.reg dst = v ∧ u.ip = .int (n + 2) ∧ Frame [dst, .ip] [] t u ∧
        u.p0Valid = (t.p0Valid || decide (dst = .port 0)))

/-- R72: MOV of a register to a memory word, its address in a register or given, outside the ROM and a locked page.  The source is read
before the address; `t` is the state after the address is translated. -/
def Obligations.MovToMemoryCompletes : Prop :=
  ∀ (s s1 s2 t : State) (a src : Reg) (L v : Word) (n m : Int) (p : Nat), s.memWf → s.ip = .int n →
    readReg src s = .ok v s1 → 512 ≤ p → Unlocked t p →
    (Accepts [a, src] s → readReg a s1 = .ok L s2 → memAddr .write L s2 = .ok p t →
      ∃ u, exec (.movIndRegReg a src) s = .next u ∧ u.peek p = some v ∧ u.ip = .int (n + 2) ∧ Frame [.ip] [p] t u ∧
        u.p0Valid = t.p0Valid) ∧
    (Accepts [src] s → memAddr .write (.int m) s1 = .ok p t →
      ∃ u, exec (.movIndImmReg m src) s = .next u ∧ u.peek p = some v ∧ u.ip = .int (n + 2) ∧ Frame [.ip] [p] t u ∧
        u.p0Valid = t.p0Valid)

/-- R86: P0 while it is not valid reads as a free word; every other read of a register or port gives what it holds.  That the free word is
that of a counter which the read advances is the model's choice (log 4), and so is that a register holds a word from start-up on (log 1). -/
def Obligations.InvalidP0ReadsAsAnyWord : Prop :=
  ∀ (s : State) (r : Reg),
    (r = .port 0 → s.p0Valid = false →
      readReg r s = .ok (anyWord s.cfg s.freeCount) { s with freeCount := s.freeCount + 1 }) ∧
    (¬ (r = .port 0 ∧ s.p0Valid = false) → readReg r s = .ok (s.reg r) s)

/-- R73: an instruction that names IP is refused; one that names a privileged register or port in UNPRIV mode raises the illegal
instruction exception; otherwise the operands are accepted.  Before that (R152), each privileged-only instruction (R118) in UNPRIV mode
raises the illegal instruction exception and has no other effect (R66). -/
def Obligations.PrivilegeAndNamedRegistersAreChecked : Prop :=
  ∀ (i : Instr) (s : State), (privilegedInstr i = true → s.mode = .unpriv → exec i s = raise .illegalInstr s) ∧
    ((privilegedInstr i = true → s.mode = .priv) →
    (Reg.ip ∈ instrRegs i → exec i s = .refused .ipOperand) ∧
    (Reg.ip ∉ instrRegs i → s.mode = .unpriv → (∃ r ∈ instrRegs i, r.privileged = true) → exec i s = raise .illegalInstr s) ∧
    (Reg.ip ∉ instrRegs i → (s.mode = .unpriv → ∀ r ∈ instrRegs i, r.privileged = false) → checkRegs (instrRegs i) s = .ok () s))

/-! ### Control transfer -/

/-- R75: INT n in UNPRIV mode pushes the address of the next instruction through Translate, enters PRIV mode and goes to handler n.  An
address past INT_MAX is pushed as a free word (log 6). -/
def Obligations.IntEntersItsHandler : Prop :=
  ∀ (s t : State) (n ip z : Int) (p : Nat), s.memWf → s.mode = .unpriv → 0 ≤ n → n ≤ 18 → s.ip = .int ip → s.sp = .int z →
    memAddr .write (.int (z + 1)) s = .ok p t → 512 ≤ p → Unlocked t p →
    ∃ u w, exec (.intr n) s = .next u ∧ u.peek p = some w ∧ IsExact s.cfg (ip + 2) w ∧ u.sp = .int (z + 1) ∧ u.mode = .priv ∧
      u.ip = .int (1024 * (n + 1)) ∧ SameRegs [.sp, .ip] t u ∧ SameMem [p] t u ∧ SameDevices t u ∧ SameController t u ∧
      u.p0Valid = t.p0Valid

/-- R75, R76: INT in PRIV mode is refused; in UNPRIV mode a number outside 0..18 raises the illegal instruction exception, an SP that is not
an Int the illegal memory exception, and a push address that is an exception condition that exception.  A free word may have been
drawn before it where IP + 2 is past INT_MAX (log 6). -/
def Obligations.IntThatCannotEnterTraps : Prop :=
  ∀ (s t : State) (n ip z : Int) (c : Cause), (s.mode = .priv → exec (.intr n) s = .refused .intInPriv) ∧
    (s.mode = .unpriv → (n < 0 ∨ 18 < n) → exec (.intr n) s = raise .illegalInstr s) ∧
    (s.mode = .unpriv → 0 ≤ n → n ≤ 18 → s.ip = .int ip →
      ((∃ cs, s.sp = .str cs) → ∃ j, exec (.intr n) s = raise (.illegalMem s.sp) { s with freeCount := j } ∧
        (immInRange s.cfg (ip + 2) = true → j = s.freeCount)) ∧
      (s.sp = .int z → memAddr .write (.int (z + 1)) s = .exc c t →
        ∃ j, exec (.intr n) s = raise c { t with freeCount := j } ∧ (immInRange s.cfg (ip + 2) = true → j = t.freeCount)))

/-- R74, R104, R105: JMP sets IP and changes nothing else; JZ and JNZ on a number branch to the target or go on, and change nothing but IP;
on a string they are refused. -/
def Obligations.JumpsAndBranchesSetOnlyIp : Prop :=
  ∀ (s t : State) (ri : Reg) (v : Word) (n target : Int),
    (∃ u, exec (.jmp target) s = .next u ∧ u.ip = .int target ∧ Frame [.ip] [] s u ∧ u.p0Valid = s.p0Valid) ∧
    (Accepts [ri] s → s.ip = .int n → readReg ri s = .ok v t →
      (∀ z, v = .int z →
        (∃ u, exec (.jz ri target) s = .next u ∧ u.ip = .int (if z = 0 then target else n + 2) ∧ Frame [.ip] [] s u ∧
          u.p0Valid = s.p0Valid) ∧
        (∃ u, exec (.jnz ri target) s = .next u ∧ u.ip = .int (if z = 0 then n + 2 else target) ∧ Frame [.ip] [] s u ∧
          u.p0Valid = s.p0Valid)) ∧
      (∀ cs, v = .str cs →
        exec (.jz ri target) s = .refused .stringBranch ∧ exec (.jnz ri target) s = .refused .stringBranch))

/-- R108, R109: CALL pushes the address of the next instruction and goes to its target; RET pops IP, whatever word it is, and changes
neither the mode nor anything else.  An address past INT_MAX, or an SP below INT_MIN, is a free word (log 6). -/
def Obligations.CallPushesAndRetPopsIp : Prop :=
  ∀ (s t : State) (v : Word) (target n z : Int) (p : Nat), s.memWf → s.ip = .int n → s.sp = .int z →
    (memAddr .write (.int (z + 1)) s = .ok p t → 512 ≤ p → Unlocked t p →
      ∃ u w, exec (.call target) s = .next u ∧ u.peek p = some w ∧ IsExact s.cfg (n + 2) w ∧ u.sp = .int (z + 1) ∧ u.ip = .int target ∧
        Frame [.sp, .ip] [p] t u ∧ u.p0Valid = t.p0Valid) ∧
    (memAddr .read (.int z) s = .ok p t → readLocked t p = false → t.peek p = some v →
      ∃ u, exec .ret s = .next u ∧ u.ip = v ∧ IsExact s.cfg (z - 1) u.sp ∧ Frame [.sp, .ip] [] t u ∧ u.p0Valid = t.p0Valid)

/-! ### Disk -/

/-- R78: LOADI copies block b to page p, word for word and whatever the words hold, and changes nothing else but IP. -/
def Obligations.LoadiCopiesTheBlock : Prop :=
  ∀ (s s1 s2 : State) (page block : RegImm) (n : Int) (p : Fin 128) (b : Fin 512), s.memWf → s.mode = .priv → s.ip = .int n →
    Accepts (regsOf page ++ regsOf block) s → readRegImm page s = .ok (.int p.val) s1 →
    readRegImm block s1 = .ok (.int b.val) s2 → s.diskOp = .idle → p ≠ 0 →
    ∃ u, exec (.loadi page block) s = .next u ∧ u.ip = .int (n + 2) ∧
      (∀ i, i < 512 → u.peek (512 * p.val + i) = s.peekDisk (512 * b.val + i)) ∧
      (∀ a, a / 512 ≠ p.val → u.peek a = s.peek a) ∧ SameRegs [.ip] s u ∧ u.mode = s.mode ∧ SameDevices s u ∧
      SameController s u ∧ u.p0Valid = s.p0Valid

/-- R79, R80, R136: LOAD and STORE make the disk controller busy with their page and block, and change nothing else but IP, when XSM_DTIME
is positive. That memory (for LOAD) and the disk (for STORE) are still unchanged then is the model's choice: R138 leaves open when the
words move, and the model moves them at completion (log 13). -/
def Obligations.LoadAndStoreStartATransfer : Prop :=
  ∀ (s s1 s2 : State) (page block : RegImm) (n : Int) (p : Fin 128) (b : Fin 512), s.mode = .priv → s.ip = .int n →
    Accepts (regsOf page ++ regsOf block) s → readRegImm page s = .ok (.int p.val) s1 →
    readRegImm block s1 = .ok (.int b.val) s2 → s.diskOp = .idle → 0 < s.cfg.dtime →
    (p ≠ 0 → ∃ u, exec (.load page block) s = .next u ∧ u.ip = .int (n + 2) ∧ u.diskOp = .busy .load p b 0 ∧
      u.pendDisk = s.pendDisk ∧ SameDisk s u ∧ SameRegs [.ip] s u ∧ SameMem [] s u ∧ u.mode = s.mode ∧ SameDevices s u ∧
      u.p0Valid = s.p0Valid) ∧
    (∃ u, exec (.store page block) s = .next u ∧ u.ip = .int (n + 2) ∧ u.diskOp = .busy .store p b 0 ∧
      u.pendDisk = s.pendDisk ∧ SameDisk s u ∧ SameRegs [.ip] s u ∧ SameMem [] s u ∧ u.mode = s.mode ∧ SameDevices s u ∧
      u.p0Valid = s.p0Valid)

/-- R79, R80, R136: with XSM_DTIME = 0 the transfer is complete and the disk interrupt pending when LOAD or STORE ends.  (R138 leaves open
when the words move; the model moves them at completion, log 13.) -/
def Obligations.TransferWithNoDelayCompletesAtOnce : Prop :=
  ∀ (s s1 s2 : State) (page block : RegImm) (n : Int) (p : Fin 128) (b : Fin 512), s.memWf → s.diskWf → s.mode = .priv →
    s.ip = .int n → Accepts (regsOf page ++ regsOf block) s → readRegImm page s = .ok (.int p.val) s1 →
    readRegImm block s1 = .ok (.int b.val) s2 → s.diskOp = .idle → s.cfg.dtime = 0 →
    (p ≠ 0 → ∃ u, exec (.load page block) s = .next u ∧ u.ip = .int (n + 2) ∧ u.diskOp = .idle ∧ u.pendDisk = true ∧
      (∀ i, i < 512 → u.peek (512 * p.val + i) = s.peekDisk (512 * b.val + i)) ∧ SameDisk s u ∧
      (∀ a, a / 512 ≠ p.val → u.peek a = s.peek a) ∧ SameRegs [.ip] s u) ∧
    (∃ u, exec (.store page block) s = .next u ∧ u.ip = .int (n + 2) ∧ u.diskOp = .idle ∧ u.pendDisk = true ∧
      (∀ i, i < 512 → u.peekDisk (512 * b.val + i) = s.peek (512 * p.val + i)) ∧ SameMem [] s u ∧
      (∀ a, a / 512 ≠ b.val → u.peekDisk a = s.peekDisk a) ∧ SameRegs [.ip] s u)

/-- R77, R82, R46: a disk macro faults unless its page is an Int in 0..127 and its block an Int in 0..511, and is refused while a transfer
is pending; LOADI and LOAD of page 0 are refused.  That the operands are looked at before the pending transfer, and that before page 0,
is the model's order (log 21). -/
def Obligations.DiskMacrosCheckTheirOperands : Prop :=
  ∀ (s s1 s2 : State) (page block : RegImm) (p b : Word), s.mode = .priv → Accepts (regsOf page ++ regsOf block) s →
    readRegImm page s = .ok p s1 → readRegImm block s1 = .ok b s2 →
    (((∀ n : Nat, n ≤ 127 → p ≠ .int n) ∨ (∀ m : Nat, m ≤ 511 → b ≠ .int m)) →
      exec (.loadi page block) s = .fault .diskOperand ∧ exec (.load page block) s = .fault .diskOperand ∧
      exec (.store page block) s = .fault .diskOperand) ∧
    (∀ n m : Nat, n ≤ 127 → m ≤ 511 → p = .int n → b = .int m →
      (s.diskOp ≠ .idle → exec (.loadi page block) s = .refused .diskBusy ∧ exec (.load page block) s = .refused .diskBusy ∧
        exec (.store page block) s = .refused .diskBusy) ∧
      (s.diskOp = .idle → n = 0 → exec (.loadi page block) s = .refused .romWrite ∧
        exec (.load page block) s = .refused .romWrite))

/-! ### Console -/

/-- R83, R84: OUT appends P1 to the terminal's words and changes nothing else but IP; IN starts the console's wait and makes P0 invalid, and
while the console already waits it is refused. -/
def Obligations.OutDisplaysP1AndInStartsTheWait : Prop :=
  ∀ (s : State) (n : Int), s.mode = .priv → s.ip = .int n →
    (∃ u, exec .consoleOut s = .next u ∧ u.termOut = s.termOut ++ [s.reg (.port 1)] ∧ u.ip = .int (n + 2) ∧
      SameRegs [.ip] s u ∧ SameMem [] s u ∧ u.mode = s.mode ∧ SameDevices { s with termOut := u.termOut } u ∧
      SameController s u ∧ u.p0Valid = s.p0Valid) ∧
    (s.consoleWait = true → exec .consoleIn s = .refused .inWhileWaiting) ∧
    (s.consoleWait = false → ∃ u, exec .consoleIn s = .next u ∧ u.consoleWait = true ∧ u.p0Valid = false ∧ u.ip = .int (n + 2) ∧
      SameRegs [.ip] s u ∧ SameMem [] s u ∧ u.mode = s.mode ∧ SameDevices { s with consoleWait := true } u ∧ SameController s u)

/-- R85: in debug mode, the console not waiting for an IN, INI takes the user's next word into P0 and pends no interrupt; while the user
has entered none the processor waits; outside debug mode, or while the console waits, it is refused.  That the wait (R12 (e)) is a
state marked `waiting`, and the user's words a list `userIni`, is the model's choice (log 7). -/
def Obligations.IniTakesTheUsersWord : Prop :=
  ∀ (s : State) (n : Int) (w : Word) (ws : List Word), s.mode = .priv → s.ip = .int n →
    (s.cfg.debug = false → exec .consoleIni s = .refused .iniOutsideDebug) ∧
    (s.cfg.debug = true → s.consoleWait = true → exec .consoleIni s = .refused .iniWhileWaiting) ∧
    (s.cfg.debug = true → s.consoleWait = false → s.userIni = [] → exec .consoleIni s = .next { s with waiting := true }) ∧
    (s.cfg.debug = true → s.consoleWait = false → s.userIni = w :: ws →
      ∃ u, exec .consoleIni s = .next u ∧ u.reg (.port 0) = w ∧ u.p0Valid = true ∧ u.ip = .int (n + 2) ∧
        SameRegs [.port 0, .ip] s u ∧ SameMem [] s u ∧ u.mode = s.mode ∧ SameDevices { s with userIni := ws, waiting := false } u ∧
        SameController s u)

/-- R139, R140: a word the user enters while the console waits goes to P0, makes it valid, ends the wait and pends the console
interrupt; entered while the processor waits at an INI it is that INI's; entered at any other moment it changes nothing.  What the
user does before a step is the first entry of the schedule `userGap` (the model's, log 7). -/
def Obligations.UserInputReachesOnlyAWaitingConsole : Prop :=
  ∀ (s : State) (w : Word) (gs : List (Option Word)),
    (s.userGap = [] → userGapStep s = s) ∧
    (s.userGap = none :: gs → userGapStep s = { s with userGap := gs }) ∧
    (s.userGap = some w :: gs → userGapStep s = userEnters w { s with userGap := gs }) ∧
    (s.waiting = true → userEnters w s = { s with userIni := w :: s.userIni }) ∧
    (s.waiting = false → s.consoleWait = false → userEnters w s = s) ∧
    (s.waiting = false → s.consoleWait = true → (userEnters w s).reg (.port 0) = w ∧ (userEnters w s).p0Valid = true ∧
      (userEnters w s).consoleWait = false ∧ (userEnters w s).pendConsole = true ∧ SameRegs [.port 0] s (userEnters w s) ∧
      SameMem [] s (userEnters w s) ∧ (userEnters w s).mode = s.mode ∧ SameController s (userEnters w s) ∧
      (userEnters w s).pendTimer = s.pendTimer ∧ (userEnters w s).termOut = s.termOut)

/-! ### Arithmetic and comparison -/

/-- R89 to R91, R94, R95, R96: ADD, SUB, MUL, INR and DCR of numbers whose exact result lies within INT_MIN..INT_MAX write it to Ri and
change nothing else but IP.  Where Ri is EIP, EC, EPN or EMA, R88 gives it the result and R150 has it keep what it held, as the
configuration says (log 24).  P0_VALID stays even where Ri is P0 (log 15). -/
def Obligations.ArithmeticWritesTheExactResult : Prop :=
  ∀ (s s1 s2 : State) (ri rj : Reg) (n m x y : Int), s.ip = .int n → readReg ri s = .ok (.int x) s1 →
    (Accepts [ri, rj] s → readReg rj s1 = .ok (.int y) s2 →
      ∀ i r, (i, r) ∈ [(Instr.addRegReg ri rj, x + y), (.subRegReg ri rj, x - y), (.mulRegReg ri rj, x * y)] →
        s.cfg.intMin ≤ r → r ≤ s.cfg.intMax →
        ∃ u, exec i s = .next u ∧ u.reg ri = s.taken ri (.int r) ∧ u.ip = .int (n + 2) ∧ Frame [ri, .ip] [] s u ∧ u.p0Valid = s.p0Valid) ∧
    (Accepts [ri] s →
      ∀ i r, (i, r) ∈ [(Instr.addRegImm ri m, x + m), (.subRegImm ri m, x - m), (.mulRegImm ri m, x * m), (.inr ri, x + 1),
          (.dcr ri, x - 1)] →
        s.cfg.intMin ≤ r → r ≤ s.cfg.intMax →
        ∃ u, exec i s = .next u ∧ u.reg ri = s.taken ri (.int r) ∧ u.ip = .int (n + 2) ∧ Frame [ri, .ip] [] s u ∧ u.p0Valid = s.p0Valid)

/-- R92, R93, R96: DIV and MOD of a non-negative dividend in range by a positive divisor write the floor quotient and the remainder to
Ri and change nothing else but IP.  Where Ri is EIP, EC, EPN or EMA, R88 gives it the result and R150 has it keep what it held, as the
configuration says (log 24).  P0_VALID stays even where Ri is P0 (log 15). -/
def Obligations.DivisionWritesQuotientAndRemainder : Prop :=
  ∀ (s s1 s2 : State) (ri rj : Reg) (n m x y : Int), s.cfg.Admissible → s.ip = .int n → readReg ri s = .ok (.int x) s1 → 0 ≤ x →
    x ≤ s.cfg.intMax →
    (Accepts [ri, rj] s → readReg rj s1 = .ok (.int y) s2 → 0 < y → ∃ u v q r,
      exec (.divRegReg ri rj) s = .next u ∧ exec (.modRegReg ri rj) s = .next v ∧ u.reg ri = s.taken ri (.int q) ∧
      v.reg ri = s.taken ri (.int r) ∧ x = y * q + r ∧ 0 ≤ r ∧ r < y ∧ u.ip = .int (n + 2) ∧ v.ip = .int (n + 2) ∧ Frame [ri, .ip] [] s u ∧
      Frame [ri, .ip] [] s v ∧ u.p0Valid = s.p0Valid ∧ v.p0Valid = s.p0Valid) ∧
    (Accepts [ri] s → 0 < m → ∃ u v q r,
      exec (.divRegImm ri m) s = .next u ∧ exec (.modRegImm ri m) s = .next v ∧ u.reg ri = s.taken ri (.int q) ∧ v.reg ri = s.taken ri (.int r) ∧
      x = m * q + r ∧ 0 ≤ r ∧ r < m ∧ u.ip = .int (n + 2) ∧ v.ip = .int (n + 2) ∧ Frame [ri, .ip] [] s u ∧
      Frame [ri, .ip] [] s v ∧ u.p0Valid = s.p0Valid ∧ v.p0Valid = s.p0Valid)

/-- R96: the arithmetic laws: a division or remainder by zero is the arithmetic exception condition, looked at first; a string operand, a
result outside INT_MIN..INT_MAX and a division with a negative operand are refused; any other result is the exact one.  That a zero
divisor comes before a string dividend follows the pseudocode of R92 and R93 (log 21). -/
def Obligations.ArithmeticLaws : Prop :=
  ∀ (op : ArithOp) (a b : Word) (s : State),
    ((op = .div ∨ op = .mod) → b = .int 0 → arith op a b s = .exc .arith s) ∧
    (¬ ((op = .div ∨ op = .mod) ∧ b = .int 0) →
      ((∃ cs, a = .str cs) ∨ (∃ cs, b = .str cs) → arith op a b s = .refuse .stringArith) ∧
      (∀ x y, a = .int x → b = .int y →
        ((op = .div ∨ op = .mod) ∧ (x < 0 ∨ y < 0) → arith op a b s = .refuse .negativeDivision) ∧
        (¬ ((op = .div ∨ op = .mod) ∧ (x < 0 ∨ y < 0)) →
          ∀ r, r = (match op with | .add => x + y | .sub => x - y | .mul => x * y | .div => x / y | .mod => x % y) →
            (s.cfg.intMin ≤ r → r ≤ s.cfg.intMax → arith op a b s = .ok (.int r) s) ∧
            (r < s.cfg.intMin ∨ s.cfg.intMax < r → arith op a b s = .refuse .overflow))))

/-- R92, R93: DIV and MOD by the number zero, given or in a register, raise the arithmetic exception in UNPRIV mode and fault in PRIV mode.
R89 to R96: where `arith` of the operands is refused (a string, an overflow, a negative division) so is the instruction.  That a string
divided by zero traps, where R96 (1) alone would refuse it, follows the order of the pseudocode of R92 and R93 (log 21). -/
def Obligations.ArithmeticTrapsAndRefusals : Prop :=
  ∀ (s s1 s2 : State) (ri rj : Reg) (a b : Word) (n : Int) (x : Refusal), readReg ri s = .ok a s1 →
    (Accepts [ri] s → ∀ i ∈ [Instr.divRegImm ri 0, .modRegImm ri 0],
      (s.mode = .priv → exec i s = .fault (.privileged .arith)) ∧ (s.mode = .unpriv → exec i s = raise .arith s)) ∧
    (Accepts [ri, rj] s → readReg rj s1 = .ok (.int 0) s2 → ∀ i ∈ [Instr.divRegReg ri rj, .modRegReg ri rj],
      (s.mode = .priv → exec i s = .fault (.privileged .arith)) ∧ (s.mode = .unpriv → exec i s = raise .arith s)) ∧
    (Accepts [ri, rj] s → readReg rj s1 = .ok b s2 →
      ∀ i op, (i, op) ∈ [(Instr.addRegReg ri rj, ArithOp.add), (.subRegReg ri rj, .sub), (.mulRegReg ri rj, .mul),
          (.divRegReg ri rj, .div), (.modRegReg ri rj, .mod)] →
        arith op a b s2 = .refuse x → exec i s = .refused x) ∧
    (Accepts [ri] s →
      ∀ i op m, (i, op, m) ∈ [(Instr.addRegImm ri n, ArithOp.add, n), (.subRegImm ri n, .sub, n), (.mulRegImm ri n, .mul, n),
          (.divRegImm ri n, .div, n), (.modRegImm ri n, .mod, n), (.inr ri, .add, 1), (.dcr ri, .sub, 1)] →
        arith op a (.int m) s1 = .refuse x → exec i s = .refused x)

/-- R97 to R103: the comparisons of two numbers write 1 or 0 to Ri as the relation holds, signed, and EQ and NE of two strings as they are
the same characters; nothing else changes but IP.  The other comparisons of two strings, and every comparison of a number with a
string, are refused.  Where Ri is EIP, EC, EPN or EMA, R88 gives it the result and R150 has it keep what it held, as the configuration
says (log 24).  P0_VALID stays even where Ri is P0 (log 15). -/
def Obligations.ComparisonsWriteOneOrZero : Prop :=
  ∀ (s s1 s2 : State) (ri rj : Reg) (n : Int) (a b : Word), s.ip = .int n → Accepts [ri, rj] s →
    readReg ri s = .ok a s1 → readReg rj s1 = .ok b s2 →
    (∀ i c, ((∃ x y, a = .int x ∧ b = .int y ∧ (i, c) ∈ [(Instr.lt ri rj, decide (x < y)), (.gt ri rj, decide (y < x)),
          (.eq ri rj, decide (x = y)), (.ne ri rj, decide (x ≠ y)), (.ge ri rj, decide (y ≤ x)), (.le ri rj, decide (x ≤ y))]) ∨
        (∃ x y, a = .str x ∧ b = .str y ∧ (i, c) ∈ [(Instr.eq ri rj, decide (x = y)), (.ne ri rj, decide (x ≠ y))])) →
      ∃ u, exec i s = .next u ∧ u.reg ri = s.taken ri (.int (if c then 1 else 0)) ∧ u.ip = .int (n + 2) ∧ Frame [ri, .ip] [] s u ∧
        u.p0Valid = s.p0Valid) ∧
    (∀ x y, a = .str x → b = .str y →
      ∀ i ∈ [Instr.lt ri rj, .gt ri rj, .ge ri rj, .le ri rj], exec i s = .refused .stringOrder) ∧
    (∀ x y, (a = .int x ∧ b = .str y) ∨ (a = .str y ∧ b = .int x) →
      ∀ i ∈ [Instr.lt ri rj, .gt ri rj, .eq ri rj, .ne ri rj, .ge ri rj, .le ri rj], exec i s = .refused .mixedComparison)

/-! ### The stack -/

/-- R106, R107, R119: PUSH writes the register's word at SP + 1 and adds 1 to SP; POP reads the word at SP, subtracts 1 from SP and writes
the word to Ri last, so that POP SP leaves the word in SP.  An SP below INT_MIN is a free word (log 6).  Where Ri is EIP, EC, EPN or
EMA, R88 gives it the word popped and R150 has it keep what it held, as the configuration says (log 24).  P0_VALID stays even where Ri
is P0 (log 15). -/
def Obligations.PushAndPopMoveTheTop : Prop :=
  ∀ (s s1 t : State) (ri : Reg) (v : Word) (n z : Int) (p : Nat), s.memWf → Accepts [ri] s → s.ip = .int n → s.sp = .int z →
    (readReg ri s = .ok v s1 → memAddr .write (.int (z + 1)) s1 = .ok p t → 512 ≤ p → Unlocked t p →
      ∃ u, exec (.push ri) s = .next u ∧ u.peek p = some v ∧ u.sp = .int (z + 1) ∧ u.ip = .int (n + 2) ∧
        Frame [.sp, .ip] [p] t u ∧ u.p0Valid = t.p0Valid) ∧
    (memAddr .read (.int z) s = .ok p t → readLocked t p = false → t.peek p = some v →
      ∃ u, exec (.pop ri) s = .next u ∧ u.reg ri = s.taken ri v ∧ (ri ≠ .sp → IsExact s.cfg (z - 1) u.sp) ∧ u.ip = .int (n + 2) ∧
        Frame [ri, .sp, .ip] [] t u ∧ u.p0Valid = t.p0Valid)

/-- R114: BACKUP, with room on the stack outside the ROM and any pending transfer's page, raises SP by 21 and writes the registers of
BACKUP_ORDER, in order, in the words above the old top. -/
def Obligations.BackupPushesTheRegisters : Prop :=
  ∀ (s : State) (n : Int) (z : Nat), s.cfg.Admissible → s.memWf → s.mode = .priv → s.ip = .int n → s.sp = .int z → 511 ≤ z →
    z + 21 ≤ 65535 → (∀ j, 1 ≤ j → j ≤ 21 → Unlocked s (z + j)) →
    ∃ u, exec .backup s = .next u ∧ u.sp = .int (z + 21) ∧ u.ip = .int (n + 2) ∧
      (∀ j r, s.cfg.backupOrder[j]? = some r → u.peek (z + 1 + j) = some (s.reg r)) ∧
      Frame [.sp, .ip] ((List.range 21).map (z + 1 + ·)) s u ∧ u.p0Valid = s.p0Valid

/-- R115: RESTORE, where the 21 words below and at the top of the stack hold values, lowers SP by 21 and gives the registers of
BACKUP_ORDER, from the last to the first, the words from the top down. -/
def Obligations.RestorePopsTheRegisters : Prop :=
  ∀ (s : State) (n : Int) (z : Nat) (vs : List Word), s.cfg.Admissible → s.mode = .priv → s.ip = .int n → s.sp = .int (z + 21) →
    z + 21 ≤ 65535 → vs.length = 21 → (∀ j v, vs[j]? = some v → s.peek (z + 1 + j) = some v) →
    (∀ j, 1 ≤ j → j ≤ 21 → readLocked s (z + j) = false) →
    ∃ u, exec .restore s = .next u ∧ u.sp = .int z ∧ u.ip = .int (n + 2) ∧
      (∀ (j : Nat) (r : Reg) (v : Word), s.cfg.backupOrder[j]? = some r → vs[j]? = some v → u.reg r = v) ∧
      Frame (.sp :: .ip :: s.cfg.backupOrder) [] s u ∧ u.p0Valid = s.p0Valid

/-- R115: RESTORE undoes a BACKUP made at the same SP, whatever BACKUP_ORDER is: from any state that kept the words BACKUP wrote, the SP
it left, the configuration, PRIV mode and unlocked words, the 21 registers and SP come back. -/
def Obligations.RestoreUndoesBackup : Prop :=
  ∀ (s u w : State) (n m : Int) (z : Nat), s.cfg.Admissible → s.memWf → s.mode = .priv → s.ip = .int n → s.sp = .int z → 511 ≤ z →
    z + 21 ≤ 65535 → exec .backup s = .next u → w.cfg = s.cfg → w.mode = .priv → w.ip = .int m → w.sp = u.sp →
    (∀ j, 1 ≤ j → j ≤ 21 → w.peek (z + j) = u.peek (z + j) ∧ readLocked w (z + j) = false) →
    ∃ x, exec .restore w = .next x ∧ x.sp = s.sp ∧ (∀ r ∈ s.cfg.backupOrder, x.reg r = s.reg r)

/-- R72, R106 to R109: where the address of a memory operand or of the top of the stack is an exception condition, MOV, PUSH, POP, CALL and
RET raise it; with an SP that is not an Int the condition is an illegal memory access.  CALL may have drawn a free word before it where
IP + 2 is past INT_MAX (log 6).  R114, R115, R151: BACKUP and RESTORE fault with an SP that is not an Int, and BACKUP at its first push,
RESTORE at its first pop, whose address lies outside 0..65535 (an SP gone below INT_MIN apart, log 6). -/
def Obligations.MemoryOperandsAndStackTrap : Prop :=
  ∀ (s s1 s2 t : State) (c : Cause) (dst src a : Reg) (L v : Word) (n m z target : Int),
    (Accepts [dst, a] s → readReg a s = .ok L s1 → memAddr .read L s1 = .exc c t → exec (.movRegIndReg dst a) s = raise c t) ∧
    (Accepts [dst] s → memAddr .read (.int m) s = .exc c t → exec (.movRegIndImm dst m) s = raise c t) ∧
    (Accepts [a, src] s → readReg src s = .ok v s1 → readReg a s1 = .ok L s2 → memAddr .write L s2 = .exc c t →
      exec (.movIndRegReg a src) s = raise c t) ∧
    (Accepts [src] s → readReg src s = .ok v s1 → memAddr .write (.int m) s1 = .exc c t → exec (.movIndImmReg m src) s = raise c t) ∧
    (s.sp = .int z →
      (Accepts [src] s → readReg src s = .ok v s1 → memAddr .write (.int (z + 1)) s1 = .exc c t → exec (.push src) s = raise c t) ∧
      (s.ip = .int n → memAddr .write (.int (z + 1)) s = .exc c t → ∃ j, exec (.call target) s = raise c { t with freeCount := j } ∧
        (immInRange s.cfg (n + 2) = true → j = t.freeCount)) ∧
      (memAddr .read (.int z) s = .exc c t → (Accepts [dst] s → exec (.pop dst) s = raise c t) ∧ exec .ret s = raise c t)) ∧
    ((∃ cs, s.sp = .str cs) →
      (Accepts [src] s → readReg src s = .ok v s1 → exec (.push src) s = raise (.illegalMem s.sp) s1) ∧
      (s.ip = .int n → ∃ j, exec (.call target) s = raise (.illegalMem s.sp) { s with freeCount := j } ∧
        (immInRange s.cfg (n + 2) = true → j = s.freeCount)) ∧
      (Accepts [dst] s → exec (.pop dst) s = raise (.illegalMem s.sp) s) ∧ exec .ret s = raise (.illegalMem s.sp) s ∧
      (s.mode = .priv → s.cfg.Admissible → exec .backup s = .fault (.privileged (.illegalMem s.sp)) ∧
        exec .restore s = .fault (.privileged (.illegalMem s.sp)))) ∧
    (∀ j : Nat, j < 21 → s.mode = .priv → s.cfg.Admissible → s.sp = .int z →
      (Pushable s z j → z + 1 + j < 0 ∨ 65535 < z + 1 + j →
        exec .backup s = .fault (.privileged (.illegalMem (.int (z + 1 + j))))) ∧
      (Poppable s z j → z - j < 0 ∨ 65535 < z - j → s.cfg.intMin ≤ z - j →
        exec .restore s = .fault (.privileged (.illegalMem (.int (z - j))))))

/-- R12, R46, R138: where the word a MOV, POP or RET reads, or a MOV, PUSH, CALL or INT writes, is barred (in the ROM, in the page of a
pending transfer) or holds no value, the instruction stops as the access does.  So do BACKUP at its first push, and RESTORE at its first
pop, to or from such a word (R114, R115). -/
def Obligations.BarredMemoryStopsTheInstruction : Prop :=
  ∀ (s s1 s2 t : State) (dst src a : Reg) (L v : Word) (n m z k target : Int) (p : Nat) (x : Res Word) (out : Out) (r : Refusal),
    (((∃ f, x = .fault f ∧ out = .fault f) ∨ (∃ q, x = .refuse q ∧ out = .refused q)) → physRead p t = x →
      (Accepts [dst, a] s → readReg a s = .ok L s1 → memAddr .read L s1 = .ok p t → exec (.movRegIndReg dst a) s = out) ∧
      (Accepts [dst] s → memAddr .read (.int m) s = .ok p t → exec (.movRegIndImm dst m) s = out) ∧
      (s.sp = .int z → memAddr .read (.int z) s = .ok p t → (Accepts [dst] s → exec (.pop dst) s = out) ∧ exec .ret s = out)) ∧
    ((∀ w, physWrite p w t = .refuse r) →
      (Accepts [a, src] s → readReg src s = .ok v s1 → readReg a s1 = .ok L s2 → memAddr .write L s2 = .ok p t →
        exec (.movIndRegReg a src) s = .refused r) ∧
      (Accepts [src] s → readReg src s = .ok v s1 → memAddr .write (.int m) s1 = .ok p t →
        exec (.movIndImmReg m src) s = .refused r) ∧
      (s.sp = .int z →
        (Accepts [src] s → readReg src s = .ok v s1 → memAddr .write (.int (z + 1)) s1 = .ok p t →
          exec (.push src) s = .refused r) ∧
        (s.ip = .int n → memAddr .write (.int (z + 1)) s = .ok p t → exec (.call target) s = .refused r ∧
          (s.mode = .unpriv → 0 ≤ k → k ≤ 18 → exec (.intr k) s = .refused r)))) ∧
    (∀ j : Nat, j < 21 → s.mode = .priv → s.cfg.Admissible → s.sp = .int z →
      (Pushable s z j → z + 1 + j = p →
        (p < 512 → exec .backup s = .refused .romWrite) ∧
        (512 ≤ p → p ≤ 65535 → ¬ Unlocked s p → exec .backup s = .refused .pageLocked)) ∧
      (Poppable s z j → z - j = p → p ≤ 65535 →
        (readLocked s p = true → exec .restore s = .refused .pageLocked) ∧
        (readLocked s p = false → s.peek p = none → exec .restore s = .fault .noValue)))

/-! ### System instructions -/

/-- R110, R111: NOP and BRKP advance IP and change nothing else, whether DEBUG is true or false. -/
def Obligations.NopAndBrkpOnlyAdvance : Prop :=
  ∀ (s : State) (n : Int), s.ip = .int n →
    (∃ u, exec .nop s = .next u ∧ u.ip = .int (n + 2) ∧ Frame [.ip] [] s u ∧ u.p0Valid = s.p0Valid) ∧
    (∃ u, exec .brkp s = .next u ∧ u.ip = .int (n + 2) ∧ Frame [.ip] [] s u ∧ u.p0Valid = s.p0Valid)

/-- R112, R154: IRET takes IP from the word at SP, a logical address, subtracts 1 from SP and enters UNPRIV mode; no other register
changes.  An SP that is not an Int or does not translate is refused.  An SP below INT_MIN is a free word (log 6). -/
def Obligations.IretReturnsToUnprivilegedMode : Prop :=
  ∀ (s t : State) (v : Word) (z : Int) (p : Nat), s.mode = .priv →
    (s.sp = .int z → translate .read (.int z) s = .ok p t → readLocked t p = false → t.peek p = some v →
      ∃ u, exec .iret s = .next u ∧ u.ip = v ∧ IsExact s.cfg (z - 1) u.sp ∧ u.mode = .unpriv ∧ SameRegs [.sp, .ip] t u ∧
        SameMem [] t u ∧ SameDevices t u ∧ SameController t u ∧ u.p0Valid = t.p0Valid) ∧
    (∀ c, s.sp = .int z → translate .read (.int z) s = .exc c t → exec .iret s = .refused .iretTranslate) ∧
    ((∃ cs, s.sp = .str cs) → exec .iret s = .refused .iretTranslate)

/-- R113, R132: HALT in PRIV mode stops the machine with every register, IP among them, and memory unchanged; the disk and the terminal
keep their contents, but that the block of a store still pending holds, word by word, its old or its new contents.  Once halted
the machine takes no further step.  That IP stays, that the step of a halted machine answers the same state and that the abandoned
block is settled by HALT itself is the model's choice (log 14). -/
def Obligations.HaltStopsTheMachine : Prop :=
  (∀ (s : State), s.mode = .priv → s.diskWf →
    ∃ u, exec .halt s = .next u ∧ u.halted = true ∧ SameRegs [] s u ∧ SameMem [] s u ∧ u.mode = s.mode ∧
      SameDevices { s with halted := true } u ∧ u.p0Valid = s.p0Valid ∧ u.diskOp = s.diskOp ∧ u.pendDisk = s.pendDisk ∧
      (∀ a, u.peekDisk a = s.peekDisk a ∨ ∃ p b c, s.diskOp = .busy .store p b c ∧ a / 512 = b.val ∧
        u.peekDisk a = s.peek (512 * p.val + a % 512))) ∧
  (∀ s : State, s.halted = true → step s = .next s)

/-- R116: ENCRYPT writes the function Encrypt (an open one that gives words of the machine, logs 4 and 6) of the register's word to the
register and changes nothing else but IP.  Where the register is EIP, EC, EPN or EMA, R88 gives it the result and R150 has it keep what
it held, as the configuration says (log 24).  P0_VALID stays even where it is P0 (log 15). -/
def Obligations.EncryptAppliesTheFunction : Prop :=
  ∀ (s t : State) (ri : Reg) (v : Word) (n : Int), s.mode = .priv → ri ≠ .ip → s.ip = .int n → readReg ri s = .ok v t →
    ∃ u, exec (.encrypt ri) s = .next u ∧ u.reg ri = s.taken ri (encryptWord s.cfg v) ∧ u.ip = .int (n + 2) ∧ Frame [ri, .ip] [] s u ∧
      u.p0Valid = s.p0Valid

/-! ### Exceptions and interrupts -/

/-- R149, R150: an exception in UNPRIV mode records its cause and the faulting IP, and the address or page that concerns it, the other
register of the two becoming a free word (log 4); it pushes the faulting IP through Translate, enters PRIV mode and goes to address
1024.  The page-table words the faulting instruction updated are settled first (R156), in the state `settleTouched s.touched s`.  What
is reported and is no word of the machine is recorded as a free word (log 6). -/
def Obligations.ExceptionEntry : Prop :=
  ∀ (c : Cause) (s t : State) (n z : Int) (p : Nat), s.mode = .unpriv → s.memWf → (∀ x ∈ s.touched, x.1 < 65536) →
    s.ip = .int n → immInRange s.cfg n = true → s.sp = .int z →
    memAddr .write (.int (z + 1)) (settleTouched s.touched s) = .ok p t → 512 ≤ p → Unlocked t p →
    ∃ u, raise c s = .next u ∧ u.ec = c.code s.cfg ∧ u.eip = .int n ∧
      (∀ w, c = .pageFault w → wordFits s.cfg w = true → u.epn = w) ∧
      ((∀ w, c = .pageFault w → wordFits s.cfg w = false) → ∃ j, u.epn = anyWord s.cfg j) ∧
      (∀ w, c = .illegalMem w → wordFits s.cfg w = true → u.ema = w) ∧
      ((∀ w, c = .illegalMem w → wordFits s.cfg w = false) → ∃ j, u.ema = anyWord s.cfg j) ∧
      u.peek p = some (.int n) ∧ u.sp = .int (z + 1) ∧ u.mode = .priv ∧ u.ip = .int 1024 ∧
      SameRegs [.ec, .eip, .epn, .ema, .sp, .ip] s u ∧ SameMem [p] t u ∧ SameDevices s u ∧ SameController s u ∧
      u.p0Valid = s.p0Valid

/-- R156: when a faulting instruction has updated words of the page table, each is afterwards either as it was before the instruction or as
it was updated (log 5), before the push of the entry; with an open Translate each is as it was before, since R156 excepts the reference
Translate alone (I36); every other word, every register, the mode and the devices are unchanged. -/
def Obligations.FaultLeavesTouchedWordsOldOrNew : Prop :=
  ∀ (s : State) (l : List (Nat × Option Word)), s.memWf → (l.map Prod.fst).Nodup → (∀ x ∈ l, x.1 < 65536) →
    (∀ a old, (a, old) ∈ l → (settleTouched l s).peek a = old ∨ (settleTouched l s).peek a = s.peek a) ∧
    (s.cfg.translator = .opened → ∀ a old, (a, old) ∈ l → (settleTouched l s).peek a = old) ∧
    Frame [] (l.map Prod.fst) s (settleTouched l s) ∧ (settleTouched l s).p0Valid = s.p0Valid

/-- R151, D40: an exception condition in PRIV mode faults; in UNPRIV mode, with an SP that is not an Int or a push address that is itself
an exception condition, the entry is refused.  So it is with an IP that is no Int word (log 16), with a push address in the ROM (R46) or
in the page of a pending transfer (R138, I34), and where the translation of the push address itself stops. -/
def Obligations.ExceptionsThatCannotBeTaken : Prop :=
  ∀ (c d : Cause) (s t : State) (n z : Int) (p : Nat) (f : Fault) (r : Refusal), (s.mode = .priv → raise c s = .fault (.privileged c)) ∧
    (s.mode = .unpriv → wordFits s.cfg s.ip = false ∨ (∃ cs, s.ip = .str cs) → raise c s = .refused .badIp) ∧
    (s.mode = .unpriv → s.ip = .int n → immInRange s.cfg n = true →
      ((∃ cs, s.sp = .str cs) → raise c s = .refused .exceptionPush) ∧
      (s.sp = .int z → (memAddr .write (.int (z + 1)) (settleTouched s.touched s) = .exc d t → raise c s = .refused .exceptionPush) ∧
        (memAddr .write (.int (z + 1)) (settleTouched s.touched s) = .fault f → raise c s = .fault f) ∧
        (memAddr .write (.int (z + 1)) (settleTouched s.touched s) = .refuse r → raise c s = .refused r) ∧
        (memAddr .write (.int (z + 1)) (settleTouched s.touched s) = .ok p t →
          (p < 512 → raise c s = .refused .romWrite) ∧ (512 ≤ p → ¬ Unlocked t p → raise c s = .refused .pageLocked))))

/-- R145, R146: a device interrupt pushes the interrupted program's IP through Translate, clears its own pending flag, enters PRIV mode and
goes to its handler: 2048, 3072 or 4096; nothing else changes.  Where the push fails it is refused (D40), also where its address lies in
the ROM (R46) or in the page of a pending transfer (R138, I34), and so it is with an IP that is no Int word, for which R146 has no
`Int(IP)` (log 16). -/
def Obligations.DeviceInterruptEntry : Prop :=
  ∀ (k : Device) (s t : State) (n z : Int) (p : Nat) (c : Cause) (f : Fault) (r : Refusal), s.mode = .unpriv →
    (wordFits s.cfg s.ip = false ∨ (∃ cs, s.ip = .str cs) → takeInterrupt k s = .refused .badIp) ∧
    (s.ip = .int n → immInRange s.cfg n = true →
      ((∃ cs, s.sp = .str cs) → takeInterrupt k s = .refused .interruptPush) ∧
      (s.sp = .int z → (memAddr .write (.int (z + 1)) s = .exc c t → takeInterrupt k s = .refused .interruptPush) ∧
        (memAddr .write (.int (z + 1)) s = .fault f → takeInterrupt k s = .fault f) ∧
        (memAddr .write (.int (z + 1)) s = .refuse r → takeInterrupt k s = .refused r) ∧
        (memAddr .write (.int (z + 1)) s = .ok p t →
          (p < 512 → takeInterrupt k s = .refused .romWrite) ∧ (512 ≤ p → ¬ Unlocked t p → takeInterrupt k s = .refused .pageLocked))) ∧
      (s.sp = .int z → s.memWf → memAddr .write (.int (z + 1)) s = .ok p t → 512 ≤ p → Unlocked t p →
        ∃ u, takeInterrupt k s = .next u ∧ u.peek p = some (.int n) ∧ u.sp = .int (z + 1) ∧ u.pending k = false ∧
          (∀ j, j ≠ k → u.pending j = s.pending j) ∧ u.mode = .priv ∧
          u.ip = .int (match k with | .timer => 2048 | .disk => 3072 | .console => 4096) ∧ SameRegs [.sp, .ip] s u ∧
          SameMem [p] t u ∧ SameDisk s u ∧ u.diskOp = s.diskOp ∧ u.timerCount = s.timerCount ∧ u.consoleWait = s.consoleWait ∧
          u.p0Valid = s.p0Valid ∧ u.termOut = s.termOut))

/-- R132, R144: in UNPRIV mode, while interrupts are pending, the step takes one of them and executes no instruction; in PRIV mode none is
taken.  Stated where the user does nothing in the gap before the step (the schedule is the model's, log 7). -/
def Obligations.PendingInterruptComesBeforeTheInstruction : Prop :=
  ∀ s : State, s.halted = false → s.userGap = [] →
    (s.mode = .unpriv → (∃ k, s.pending k = true) →
      ∃ k t, s.pending k = true ∧ t = { s with freeCount := t.freeCount } ∧ step s = takeInterrupt k t) ∧
    (s.mode = .priv → step s = runInstruction s)

/-- R132: where no interrupt is due and the words at IP decode to an instruction, the step is exec of that instruction at the state after
the fetch, or, for an instruction of an ISA_EXT whose semantics are open, what those say (R9, log 18); a next state is counted if the
instruction began in UNPRIV mode (R133) and forgets which words were touched (logs 5 and 7).  R152 (1), (2): where the fetch is an
exception condition, or the words are illegal, the step raises that exception instead, counted alike; where the fetch faults or is
refused, so does the step. -/
def Obligations.StepRunsTheDecodedInstruction : Prop :=
  ∀ (s t : State) (w : Word × Word) (i : Instr) (e : Illegal) (c : Cause), s.halted = false → dueInterrupt (userGapStep s) = none →
    (fetch (userGapStep s) = .ok w t → decodeWords t.cfg w.1 w.2 = .ok i →
      (i.supplement = false ∨ t.cfg.isaMeaning = .reference →
        (∀ u, exec i t = .next u →
          step s = .next { (if (userGapStep s).mode = .unpriv then countOne u else u) with touched := [] }) ∧
        (∀ f, exec i t = .fault f → step s = .fault f) ∧ (∀ r, exec i t = .refused r → step s = .refused r)) ∧
      (i.supplement = true → t.cfg.isaMeaning = .opened →
        step s = retire (userGapStep s).mode (finish (extension i t)))) ∧
    (fetch (userGapStep s) = .ok w t → decodeWords t.cfg w.1 w.2 = .error e →
      step s = retire (userGapStep s).mode (raise .illegalInstr t)) ∧
    (fetch (userGapStep s) = .exc c t → step s = retire (userGapStep s).mode (raise c t)) ∧
    (∀ f, fetch (userGapStep s) = .fault f → step s = .fault f) ∧
    (∀ r, fetch (userGapStep s) = .refuse r → step s = .refused r)

/-- What an instruction of an open ISA_EXT is bound by (R9, log 18), in the order of R152. A privileged-only one in UNPRIV mode is an
illegal instruction (R66); then one that names IP is refused, and one that names a privileged register or port in UNPRIV mode is an
illegal instruction (R73); else it reads, each word by an access of the mode, and then has its effect. In UNPRIV mode it is given no
privileged register or port, and an effect on one, a return from a trap or a halt is an illegal instruction (R128, R129). What it stores
to is translated before the arithmetic condition and before any write (R88, R156). Going on, it writes the registers and the words it says
and no other, but EIP, EC, EPN and EMA only if it names them and, where R150 binds it, is a MOV (log 24); IP becomes the word it says or
the next instruction's address; a MOV that writes P0 makes it valid (R86), and that no other instruction does is the model's choice (log
15). Returning from a trap, it enters UNPRIV mode at the word it says, or else as IRET does (R112); ending the run, it halts (R167). -/
def Obligations.OpenInstructionsObeyTheMachinesRules : Prop :=
  ∀ (s s1 s2 s3 : State) (i : Instr) (e : Effect) (as : List (Nat × Word)) (c : Cause) (n : Int),
    (s.mode = .unpriv → Config.openPrivileged i = true → extension i s = .exc .illegalInstr s) ∧
    (s.mode = .priv ∨ Config.openPrivileged i = false →
      (Reg.ip ∈ instrRegs i → extension i s = .refuse .ipOperand) ∧
      (Reg.ip ∉ instrRegs i → s.mode = .unpriv → (∃ r ∈ instrRegs i, r.privileged = true) → extension i s = .exc .illegalInstr s) ∧
      (Accepts (instrRegs i) s →
        ((behaviourOf i s).run { s with freeCount := s.freeCount + 1 } = .exc c s1 → extension i s = .exc c s1) ∧
        ((behaviourOf i s).run { s with freeCount := s.freeCount + 1 } = .ok e s1 → extension i s = e.apply i s1))) ∧
    (∀ L next,
      (memRead .read L s = .exc c s1 → (Behaviour.read L next).run s = .exc c s1) ∧
      (∀ v, memRead .read L s = .ok v s1 → (Behaviour.read L next).run s = (next v).run s1)) ∧
    (s.mode = .unpriv → (∀ r, r.privileged = true → s.readsAs r = none) ∧
      ((∃ r v, (r, v) ∈ e.regs ∧ r.privileged = true) ∨ e.ending = .toUnpriv ∨ e.ending = .halt → e.apply i s = .exc .illegalInstr s)) ∧
    (s.mode = .priv ∨ e.needsPriv = false →
      (locateAll e.stores s = .exc c s2 → e.apply i s = .exc c s2) ∧
      (locateAll e.stores s = .ok as s2 →
        (e.ending = .arith → e.apply i s = .exc .arith s2) ∧
        (e.ending = .refuse → e.apply i s = .refuse .extension) ∧
        (e.ending = .goOn → s.memWf → s.ip = .int n → storeAll as s2 = .ok () s3 →
          ∃ u, e.apply i s = .ok () u ∧ Frame (.ip :: e.regs.map Prod.fst) (as.map Prod.fst) s2 u ∧
            u.ip = (match e.target with | none => .int (n + 2) | some w => fitWord s.cfg w) ∧
            (u.p0Valid = true ↔ s.p0Valid = true ∨ (i.mnemonic = .mov ∧ ∃ v, (.port 0, v) ∈ e.regs)) ∧
            (∀ r ∈ [Reg.eip, .ec, .epn, .ema], r ∉ instrRegs i ∨ (i.mnemonic ≠ .mov ∧ s.cfg.statusWrites = .byMov) →
              u.reg r = s.reg r) ∧
            ((e.regs.map Prod.fst).Nodup → ∀ r v, (r, v) ∈ e.regs → mayWrite s.cfg i r = true → u.reg r = fitWord s.cfg v) ∧
            ((as.map Prod.fst).Nodup → ∀ a v, (a, v) ∈ as → u.peek a = some (fitWord s.cfg v))) ∧
        (∀ v, e.ending = .toUnpriv → e.target = some v → s.memWf → storeAll as s2 = .ok () s3 →
          ∃ u, e.apply i s = .ok () u ∧ u.mode = .unpriv ∧ u.ip = fitWord s.cfg v ∧ SameRegs (.ip :: e.regs.map Prod.fst) s2 u ∧
            SameMem (as.map Prod.fst) s2 u ∧ SameDevices s2 u ∧ SameController s2 u) ∧
        (e.ending = .toUnpriv → e.target = none → storeAll as s2 = .ok () s3 →
          (∀ t, returnFromTrap (setAll i e.regs s3) = .ok () t → ∃ b, e.apply i s = .ok () { t with p0Valid := b }) ∧
          (∀ f, returnFromTrap (setAll i e.regs s3) = .fault f → e.apply i s = .fault f) ∧
          (∀ r, returnFromTrap (setAll i e.regs s3) = .refuse r → e.apply i s = .refuse r)) ∧
        (e.ending = .halt → s.memWf → storeAll as s2 = .ok () s3 →
          ∃ u, e.apply i s = .ok () u ∧ u.halted = true ∧ u.mode = s.mode ∧ SameRegs (e.regs.map Prod.fst) s2 u ∧
            SameMem (as.map Prod.fst) s2 u ∧ SameDevices { s2 with halted := true } u)))

/-- R60, R17: in PRIV mode the fetch at an even IP from 0 to 65534 reads the words at IP and IP + 1 and changes nothing, and at any other IP
is refused.  In UNPRIV mode the fetch at an even IP reads the word at each of IP and IP + 1, in that order, through Translate with kind
fetch, and raises the exception of the first address that has one.  That it reads the word at IP before it translates IP + 1 (log 21),
and that it is refused where IP or IP + 1 is no word of the machine (log 6), is the model's choice.  In either mode an IP that is odd or
not an Int is refused. -/
def Obligations.FetchReadsTwoWordsAtAnEvenIp : Prop :=
  ∀ s : State,
    (s.mode = .priv →
      (∀ (n : Nat) (w0 w1 : Word), s.ip = .int n → n % 2 = 0 → n ≤ 65534 → s.peek n = some w0 → s.peek (n + 1) = some w1 →
        readLocked s n = false → readLocked s (n + 1) = false → fetch s = .ok (w0, w1) { s with touched := [] }) ∧
      ((∀ n : Nat, n ≤ 65534 → n % 2 = 0 → s.ip ≠ .int n) → fetch s = .refuse .badIp)) ∧
    (∀ (z : Int) (c : Cause) (w0 w1 : Word) (p q : Nat) (t u : State), s.mode = .unpriv → s.ip = .int z → z % 2 = 0 →
      ((immInRange s.cfg z = false ∨ immInRange s.cfg (z + 1) = false) → fetch s = .refuse .badIp) ∧
      (immInRange s.cfg z = true → immInRange s.cfg (z + 1) = true →
        (memAddr .fetch (.int z) { s with touched := [] } = .exc c t → fetch s = .exc c t) ∧
        (memAddr .fetch (.int z) { s with touched := [] } = .ok p t → readLocked t p = false → t.peek p = some w0 →
          (memAddr .fetch (.int (z + 1)) t = .exc c u → fetch s = .exc c u) ∧
          (memAddr .fetch (.int (z + 1)) t = .ok q u → readLocked u q = false → u.peek q = some w1 →
            fetch s = .ok (w0, w1) u)))) ∧
    ((∀ z : Int, s.ip = .int z → z % 2 = 1) → fetch s = .refuse .badIp)

/-- R133, R134: an instruction that began in UNPRIV mode adds 1 to the timer's count or, at XSM_TICKS, pends the timer interrupt and
restarts the count; one that began in PRIV mode changes neither; a timer that is not set never counts. -/
def Obligations.TimerCountsUnprivilegedInstructions : Prop :=
  ∀ (s u : State) (m : Mode), retire m (.next s) = .next u →
    (m = .priv → u.timerCount = s.timerCount ∧ u.pendTimer = s.pendTimer) ∧
    (s.cfg.ticks = none → u.timerCount = s.timerCount ∧ u.pendTimer = s.pendTimer) ∧
    (∀ t, m = .unpriv → s.cfg.ticks = some t →
      (s.timerCount + 1 = t → u.timerCount = 0 ∧ u.pendTimer = true) ∧
      (s.timerCount + 1 ≠ t → u.timerCount = s.timerCount + 1 ∧ u.pendTimer = s.pendTimer))

/-- R136, R138: an instruction that began in UNPRIV mode counts for a pending transfer; when XSM_DTIME are counted the words have moved,
DISK_OP is idle and the disk interrupt is pending.  (R138 leaves open when the words move, log 13.) -/
def Obligations.DiskTransferCompletesAfterItsTime : Prop :=
  ∀ (s u : State) (kind : Transfer) (p : Fin 128) (b : Fin 512) (c : Nat), s.memWf → s.diskWf → s.diskOp = .busy kind p b c →
    retire .unpriv (.next s) = .next u →
    (c + 1 < s.cfg.dtime → u.diskOp = .busy kind p b (c + 1) ∧ u.pendDisk = s.pendDisk ∧ SameMem [] s u ∧ SameDisk s u) ∧
    (s.cfg.dtime ≤ c + 1 → u.diskOp = .idle ∧ u.pendDisk = true ∧
      (kind = .load → (∀ i, i < 512 → u.peek (512 * p.val + i) = s.peekDisk (512 * b.val + i)) ∧
        (∀ a, a / 512 ≠ p.val → u.peek a = s.peek a) ∧ SameDisk s u) ∧
      (kind = .store → (∀ i, i < 512 → u.peekDisk (512 * b.val + i) = s.peek (512 * p.val + i)) ∧
        (∀ a, a / 512 ≠ b.val → u.peekDisk a = s.peekDisk a) ∧ SameMem [] s u))

/-! ### Whole-machine rules -/

/-- The invariant holds at start-up, and every word the machine holds there is a word of its configuration.  It is that of the model's
State.reset, whose Int 0 in the unspecified registers (log 1), reference configuration (log 2) and disk without values (log 3) are the
model's choices where R34 leaves them open. -/
def Obligations.StartUpMeetsTheInvariant : Prop := State.reset.Inv ∧ State.reset.WordsFit

/-- Every step keeps the invariant: memory and disk in canonical form, the ROM intact, the pending transfer and the timer sound, no touched
word noted (the canonical form and the touched words are the model's, logs 5 and 10). -/
def Obligations.EveryStepKeepsTheInvariant : Prop := ∀ s t : State, s.Inv → step s = .next t → t.Inv

/-- R10, R35: every step leaves in every register, port, memory and disk word a word of the machine: an integer within INT_MIN..INT_MAX or
a string of at most WORD_CHARS characters.  IP alone may be an integer past INT_MAX (R17).  The invariant is a premise. -/
def Obligations.EveryStepKeepsWordsInRange : Prop :=
  ∀ s t : State, s.Inv → s.WordsFit → step s = .next t → t.WordsFit

/-- R31, R32: no step changes the configuration or takes back a word the terminal displayed. -/
def Obligations.ConfigurationStaysAndTerminalGrows : Prop :=
  ∀ s t : State, step s = .next t → t.cfg = s.cfg ∧ ∃ ws, t.termOut = s.termOut ++ ws

/-- R129, R142: no instruction but IRET, or one of an open ISA_EXT (log 18), enters UNPRIV mode, and none clears a pending flag.  R88,
R150: an instruction changes EIP, EC, EPN or EMA only if it names it in PRIV mode, where the configuration lets R150 prevail over R88
only as a MOV (log 24), or in UNPRIV mode by entering the exception handler. -/
def Obligations.ModePendingFlagsAndStatusRegistersChangeByRule : Prop :=
  ∀ (i : Instr) (s t : State), execute i s = .next t →
    (s.mode = .priv → t.mode = .unpriv → i = .iret ∨ (i.supplement = true ∧ s.cfg.isaMeaning = .opened)) ∧
    (∀ k, s.pending k = true → t.pending k = true) ∧
    (∀ r ∈ [Reg.eip, .ec, .epn, .ema], s.cfg.Admissible → t.reg r ≠ s.reg r →
      (s.mode = .priv ∧ r ∈ instrRegs i ∧ (s.cfg.statusWrites = .byMov → i.mnemonic = .mov)) ∨
      (s.mode = .unpriv ∧ t.mode = .priv ∧ t.ip = .int 1024))

/-- R128: an instruction that leaves the machine in UNPRIV mode has changed no privileged register or port, no device and not the disk.
That an instruction of an open ISA_EXT reaches no device and not the disk is the model's limit (log 18). -/
def Obligations.UnprivilegedInstructionsLeavePrivilegedState : Prop :=
  ∀ (i : Instr) (s t : State), execute i s = .next t → s.mode = .unpriv → t.mode = .unpriv →
    (∀ r, r.privileged = true → t.reg r = s.reg r) ∧ t.p0Valid = s.p0Valid ∧ SameDevices s t ∧ SameController s t

/-- R51: no instruction but STORE, and one that ends the run with a store pending (HALT, log 14, or one of an open ISA_EXT), changes a
word of the disk. -/
def Obligations.OnlyStoreWritesTheDisk : Prop :=
  ∀ (i : Instr) (s t : State), execute i s = .next t → (∃ a, t.peekDisk a ≠ s.peekDisk a) →
    (∃ page block, i = .store page block) ∨
    ((i = .halt ∨ (i.supplement = true ∧ s.cfg.isaMeaning = .opened)) ∧ ∃ p b c, s.diskOp = .busy .store p b c)
end

