-- ==== Sys2Proof/Laws/Cells.lean ====
section
/-! SUPPORT. The laws of words by address: what a read gives after a write or a copy, and that both keep the canonical form. -/

namespace Sys2Proof.Machine

variable {d : Nat → Option Word} {size : Nat} {m : Cells}

/-- Below every listed address a read gives what an unlisted address reads as. -/
theorem Cells.read_below {a : Nat} (h : ∀ c ∈ m, a < c.1) : Cells.read d m a = d a := by
  cases m with
  | nil => rfl
  | cons c m =>
    obtain ⟨b, w⟩ := c
    have : a < b := h (b, w) (by simp)
    simp only [Cells.read, if_pos this]

theorem Cells.wf_nil : Cells.wf d size [] := ⟨List.Pairwise.nil, fun _ h => nomatch h⟩

theorem Cells.wf_tail {c : Nat × Option Word} (h : Cells.wf d size (c :: m)) : Cells.wf d size m :=
  ⟨(List.pairwise_cons.1 h.1).2, fun e he => h.2 e (by simp [he])⟩

theorem Cells.wf_head_lt {c : Nat × Option Word} (h : Cells.wf d size (c :: m)) : ∀ e ∈ m, c.1 < e.1 :=
  (List.pairwise_cons.1 h.1).1

/-- A read after a write: the word written at that address, elsewhere what stood there. -/
theorem Cells.read_write (h : Cells.wf d size m) (a b : Nat) (v : Option Word) :
    Cells.read d (Cells.write d m a v) b = if b = a then v else Cells.read d m b := by
  induction m with
  | nil =>
    simp only [Cells.write]
    split <;> rename_i hv
    · split <;> simp_all [Cells.read]
    · simp only [Cells.read]; split_ifs <;> first | rfl | omega
  | cons c m ih =>
    obtain ⟨e, w⟩ := c
    have hlt := Cells.wf_head_lt h
    have ih := ih (Cells.wf_tail h)
    have hbelow : ∀ x, x ≤ e → Cells.read d m x = d x := fun x hx =>
      Cells.read_below fun c hc => Nat.lt_of_le_of_lt hx (hlt c hc)
    simp only [Cells.write]
    rcases Nat.lt_trichotomy a e with hae | rfl | hae
    · by_cases hv : v = d a
      · rw [if_pos hae, if_pos hv]
        by_cases hb : b = a
        · subst hb; simp [Cells.read, hae, hv]
        · simp [hb]
      · rw [if_pos hae, if_neg hv]
        simp only [Cells.read]; split_ifs <;> first | rfl | omega
    · rw [if_neg (Nat.lt_irrefl _), if_pos rfl]
      by_cases hv : v = d a
      · rw [if_pos hv]
        by_cases hb : b = a
        · subst hb; simp [hbelow b le_rfl, hv]
        · rw [if_neg hb]; simp only [Cells.read, if_neg hb]
          split_ifs with h1
          · exact hbelow b (by omega)
          · rfl
      · rw [if_neg hv]; simp only [Cells.read]; split_ifs <;> first | rfl | omega
    · rw [if_neg (by omega), if_neg (by omega)]
      simp only [Cells.read, ih]; split_ifs <;> first | rfl | omega

theorem Cells.write_mem {a : Nat} {v : Option Word} {c : Nat × Option Word} (hc : c ∈ Cells.write d m a v) :
    c ∈ m ∨ (c = (a, v) ∧ v ≠ d a) := by
  induction m with
  | nil => simp only [Cells.write] at hc; split_ifs at hc <;> simp_all
  | cons e m ih =>
    obtain ⟨e, w⟩ := e
    simp only [Cells.write] at hc
    split_ifs at hc
    · exact .inl hc
    · rcases List.mem_cons.1 hc with h | h
      · exact .inr ⟨h, by assumption⟩
      · exact .inl h
    · exact .inl (by simp [hc])
    · rcases List.mem_cons.1 hc with h | h
      · exact .inr ⟨h, by assumption⟩
      · exact .inl (by simp [h])
    · rcases List.mem_cons.1 hc with h | h
      · exact .inl (by simp [h])
      · rcases ih h with h | h
        · exact .inl (by simp [h])
        · exact .inr h

/-- A write keeps the canonical form. -/
theorem Cells.write_wf {a : Nat} {v : Option Word} (h : Cells.wf d size m) (ha : a < size) :
    Cells.wf d size (Cells.write d m a v) := by
  refine ⟨?_, fun c hc => ?_⟩
  · induction m with
    | nil => simp only [Cells.write]; split_ifs <;> simp
    | cons e m ih =>
      obtain ⟨e, w⟩ := e
      have hlt := Cells.wf_head_lt h
      have ih := ih (Cells.wf_tail h)
      simp only [Cells.write]
      split_ifs with h1 h2 h2 h3
      · exact h.1
      · refine List.pairwise_cons.2 ⟨fun c hc => ?_, h.1⟩
        rcases List.mem_cons.1 hc with rfl | hc
        · exact h1
        · exact Nat.lt_trans h1 (hlt c hc)
      · exact (Cells.wf_tail h).1
      · subst h2; exact List.pairwise_cons.2 ⟨hlt, (Cells.wf_tail h).1⟩
      · refine List.pairwise_cons.2 ⟨fun c hc => ?_, ih⟩
        rcases Cells.write_mem hc with hc | ⟨rfl, -⟩
        · exact hlt c hc
        · show e < a
          omega
  · rcases Cells.write_mem hc with hc | ⟨rfl, hv⟩
    · exact h.2 c hc
    · exact ⟨ha, hv⟩

theorem Cells.read_mem {c : Nat × Option Word} (h : Cells.wf d size m) (hc : c ∈ m) : Cells.read d m c.1 = c.2 := by
  induction m with
  | nil => simp at hc
  | cons e m ih =>
    obtain ⟨b, w⟩ := e
    have hlt := Cells.wf_head_lt h
    rcases List.mem_cons.1 hc with rfl | hc
    · simp [Cells.read]
    · have := hlt c hc
      rw [← ih (Cells.wf_tail h) hc]
      simp only [Cells.read]; rw [if_neg (by omega), if_neg (by omega)]

/-- In canonical form an address is listed exactly where a read does not give what an unlisted address reads as. -/
theorem Cells.listed_iff (h : Cells.wf d size m) (a : Nat) : (∃ v, (a, v) ∈ m) ↔ Cells.read d m a ≠ d a := by
  constructor
  · rintro ⟨v, hv⟩
    rw [Cells.read_mem h hv]; exact (h.2 _ hv).2
  · intro hne
    induction m with
    | nil => exact absurd rfl hne
    | cons e m ih =>
      obtain ⟨b, w⟩ := e
      simp only [Cells.read] at hne
      split_ifs at hne with h1 h2
      · exact absurd rfl hne
      · exact ⟨w, by simp [h2]⟩
      · obtain ⟨v, hv⟩ := ih (Cells.wf_tail h) hne
        exact ⟨v, by simp [hv]⟩

/-- An address that is not listed reads as an unlisted address does. -/
theorem Cells.read_unlisted (h : Cells.wf d size m) {a : Nat} (ha : ∀ v, (a, v) ∉ m) : Cells.read d m a = d a := by
  by_contra hne
  obtain ⟨v, hv⟩ := (Cells.listed_iff h a).2 hne
  exact ha v hv

/-- What a copy lists. -/
theorem Cells.mem_copy {base n : Nat} {src : Nat → Option Word} {c : Nat × Option Word} :
    c ∈ Cells.copy d base src n m ↔
      (c ∈ m ∧ (c.1 < base ∨ base + n ≤ c.1)) ∨ ∃ i < n, src i ≠ d (base + i) ∧ c = (base + i, src i) := by
  simp only [Cells.copy, List.mem_append, List.mem_filter, List.mem_filterMap, List.mem_range, decide_eq_true_eq]
  constructor
  · rintro (⟨h, hb⟩ | ⟨i, hi, hs⟩ | ⟨h, hb⟩)
    · exact .inl ⟨h, .inl hb⟩
    · split_ifs at hs with he
      exact .inr ⟨i, hi, he, (Option.some.inj hs).symm⟩
    · exact .inl ⟨h, .inr hb⟩
  · rintro (⟨h, hb | hb⟩ | ⟨i, hi, he, rfl⟩)
    · exact .inl ⟨h, hb⟩
    · exact .inr (.inr ⟨h, hb⟩)
    · exact .inr (.inl ⟨i, hi, by rw [if_neg he]⟩)

/-- A copy keeps the canonical form. -/
theorem Cells.copy_wf {base n : Nat} {src : Nat → Option Word} (hn : base + n ≤ size) (h : Cells.wf d size m) :
    Cells.wf d size (Cells.copy d base src n m) := by
  constructor
  · have hmid : ((List.range n).filterMap
        (fun i => if src i = d (base + i) then none else some (base + i, src i))).Pairwise (fun c e => c.1 < e.1) := by
      refine List.Pairwise.filterMap _ (fun i j hij c hc e he => ?_) List.pairwise_lt_range
      split_ifs at hc he
      cases hc; cases he
      exact Nat.add_lt_add_left hij base
    refine List.pairwise_append.2 ⟨h.1.filter _, List.pairwise_append.2 ⟨hmid, h.1.filter _, ?_⟩, ?_⟩
    · intro c hc e he
      obtain ⟨i, hi, hs⟩ := List.mem_filterMap.1 hc
      split_ifs at hs
      cases hs
      have h1 := List.mem_range.1 hi
      have h2 : base + n ≤ e.1 := by simpa using (List.mem_filter.1 he).2
      show base + i < e.1
      omega
    · intro c hc e he
      have h1 : c.1 < base := by simpa using (List.mem_filter.1 hc).2
      rcases List.mem_append.1 he with he | he
      · obtain ⟨i, -, hs⟩ := List.mem_filterMap.1 he
        split_ifs at hs
        cases hs
        show c.1 < base + i
        omega
      · have h2 : base + n ≤ e.1 := by simpa using (List.mem_filter.1 he).2
        omega
  · intro c hc
    rcases Cells.mem_copy.1 hc with ⟨hc, -⟩ | ⟨i, hi, he, rfl⟩
    · exact h.2 c hc
    · exact ⟨by show base + i < size; omega, he⟩

/-- What a read gives after a copy. -/
theorem Cells.read_copy {base n : Nat} {src : Nat → Option Word} (hn : base + n ≤ size) (h : Cells.wf d size m) (b : Nat) :
    Cells.read d (Cells.copy d base src n m) b = if base ≤ b ∧ b < base + n then src (b - base) else Cells.read d m b := by
  have hw := Cells.copy_wf (src := src) hn h
  by_cases hb : base ≤ b ∧ b < base + n
  · rw [if_pos hb]
    have hbase : base + (b - base) = b := by omega
    by_cases he : src (b - base) = d b
    · rw [Cells.read_unlisted hw, he]
      intro v hv
      rcases Cells.mem_copy.1 hv with ⟨-, h1⟩ | ⟨i, -, hne, hi⟩
      · omega
      · cases hi
        rw [Nat.add_sub_cancel_left] at he
        exact hne he
    · exact Cells.read_mem hw (Cells.mem_copy.2 (.inr ⟨b - base, by omega, by rwa [hbase], by rw [hbase]⟩))
  · rw [if_neg hb]
    by_cases hl : ∃ v, (b, v) ∈ m
    · obtain ⟨v, hv⟩ := hl
      rw [Cells.read_mem h hv, Cells.read_mem hw (Cells.mem_copy.2 (.inl ⟨hv, by omega⟩))]
    · rw [Cells.read_unlisted h fun v hv => hl ⟨v, hv⟩, Cells.read_unlisted hw]
      intro v hv
      rcases Cells.mem_copy.1 hv with ⟨hv, -⟩ | ⟨i, hi, -, he⟩
      · exact hl ⟨v, hv⟩
      · cases he; omega

end Sys2Proof.Machine
end

