-- ==== Sys2Proof/Laws/State.lean ====
section
/-! SUPPORT. The small lemmas of the state's named updates: what each leaves of each field, so that no proof unfolds one. -/

namespace Sys2Proof.Machine

variable (s : State) (r q : Reg) (v : Word) (a : Nat) (o : Option Word) (p : Fin 128) (b : Fin 512) (kind : Transfer) (k : Device)

/-! ### `setReg` -/

@[simp] theorem State.setReg_cfg : (s.setReg r v).cfg = s.cfg := by cases r <;> rfl
@[simp] theorem State.setReg_mode : (s.setReg r v).mode = s.mode := by cases r <;> rfl
@[simp] theorem State.setReg_mem : (s.setReg r v).mem = s.mem := by cases r <;> rfl
@[simp] theorem State.setReg_disk : (s.setReg r v).disk = s.disk := by cases r <;> rfl
@[simp] theorem State.setReg_timerCount : (s.setReg r v).timerCount = s.timerCount := by cases r <;> rfl
@[simp] theorem State.setReg_diskOp : (s.setReg r v).diskOp = s.diskOp := by cases r <;> rfl
@[simp] theorem State.setReg_consoleWait : (s.setReg r v).consoleWait = s.consoleWait := by cases r <;> rfl
@[simp] theorem State.setReg_p0Valid : (s.setReg r v).p0Valid = s.p0Valid := by cases r <;> rfl
@[simp] theorem State.setReg_pendTimer : (s.setReg r v).pendTimer = s.pendTimer := by cases r <;> rfl
@[simp] theorem State.setReg_pendDisk : (s.setReg r v).pendDisk = s.pendDisk := by cases r <;> rfl
@[simp] theorem State.setReg_pendConsole : (s.setReg r v).pendConsole = s.pendConsole := by cases r <;> rfl
@[simp] theorem State.setReg_termOut : (s.setReg r v).termOut = s.termOut := by cases r <;> rfl
@[simp] theorem State.setReg_halted : (s.setReg r v).halted = s.halted := by cases r <;> rfl
@[simp] theorem State.setReg_waiting : (s.setReg r v).waiting = s.waiting := by cases r <;> rfl
@[simp] theorem State.setReg_userGap : (s.setReg r v).userGap = s.userGap := by cases r <;> rfl
@[simp] theorem State.setReg_userIni : (s.setReg r v).userIni = s.userIni := by cases r <;> rfl
@[simp] theorem State.setReg_freeCount : (s.setReg r v).freeCount = s.freeCount := by cases r <;> rfl
@[simp] theorem State.setReg_touched : (s.setReg r v).touched = s.touched := by cases r <;> rfl

@[simp] theorem State.setReg_peek : (s.setReg r v).peek a = s.peek a := by cases r <;> rfl
@[simp] theorem State.setReg_peekDisk : (s.setReg r v).peekDisk a = s.peekDisk a := by cases r <;> rfl
theorem State.setReg_ip (h : r ≠ .ip) : (s.setReg r v).ip = s.ip := by cases r <;> first | rfl | exact absurd rfl h
theorem State.setReg_sp (h : r ≠ .sp) : (s.setReg r v).sp = s.sp := by cases r <;> first | rfl | exact absurd rfl h

/-- A register holds what was written to it; every other register what it held. -/
theorem State.reg_setReg : (s.setReg r v).reg q = if q = r then v else s.reg q := by
  cases r <;> cases q <;> simp [State.setReg, State.reg, Vector.getElem_set, Fin.val_inj, eq_comm]

@[simp] theorem State.reg_setReg_self : (s.setReg r v).reg r = v := by rw [State.reg_setReg, if_pos rfl]

theorem State.reg_setReg_ne (h : q ≠ r) : (s.setReg r v).reg q = s.reg q := by rw [State.reg_setReg, if_neg h]

/-! ### `setResult` -/

/-- A result either goes to its register or changes nothing. -/
theorem State.setResult_eq : s.setResult r v = s ∨ s.setResult r v = s.setReg r v := by
  unfold State.setResult; split
  · exact .inl rfl
  · exact .inr rfl

@[simp] theorem State.setResult_cfg : (s.setResult r v).cfg = s.cfg := by unfold State.setResult; split <;> simp
@[simp] theorem State.setResult_mode : (s.setResult r v).mode = s.mode := by unfold State.setResult; split <;> simp
@[simp] theorem State.setResult_mem : (s.setResult r v).mem = s.mem := by unfold State.setResult; split <;> simp
@[simp] theorem State.setResult_disk : (s.setResult r v).disk = s.disk := by unfold State.setResult; split <;> simp
@[simp] theorem State.setResult_timerCount : (s.setResult r v).timerCount = s.timerCount := by unfold State.setResult; split <;> simp
@[simp] theorem State.setResult_diskOp : (s.setResult r v).diskOp = s.diskOp := by unfold State.setResult; split <;> simp
@[simp] theorem State.setResult_consoleWait : (s.setResult r v).consoleWait = s.consoleWait := by unfold State.setResult; split <;> simp
@[simp] theorem State.setResult_p0Valid : (s.setResult r v).p0Valid = s.p0Valid := by unfold State.setResult; split <;> simp
@[simp] theorem State.setResult_pendTimer : (s.setResult r v).pendTimer = s.pendTimer := by unfold State.setResult; split <;> simp
@[simp] theorem State.setResult_pendDisk : (s.setResult r v).pendDisk = s.pendDisk := by unfold State.setResult; split <;> simp
@[simp] theorem State.setResult_pendConsole : (s.setResult r v).pendConsole = s.pendConsole := by unfold State.setResult; split <;> simp
@[simp] theorem State.setResult_termOut : (s.setResult r v).termOut = s.termOut := by unfold State.setResult; split <;> simp
@[simp] theorem State.setResult_halted : (s.setResult r v).halted = s.halted := by unfold State.setResult; split <;> simp
@[simp] theorem State.setResult_waiting : (s.setResult r v).waiting = s.waiting := by unfold State.setResult; split <;> simp
@[simp] theorem State.setResult_userGap : (s.setResult r v).userGap = s.userGap := by unfold State.setResult; split <;> simp
@[simp] theorem State.setResult_userIni : (s.setResult r v).userIni = s.userIni := by unfold State.setResult; split <;> simp
@[simp] theorem State.setResult_freeCount : (s.setResult r v).freeCount = s.freeCount := by unfold State.setResult; split <;> simp
@[simp] theorem State.setResult_touched : (s.setResult r v).touched = s.touched := by unfold State.setResult; split <;> simp

@[simp] theorem State.setResult_peek : (s.setResult r v).peek a = s.peek a := by unfold State.setResult; split <;> simp
@[simp] theorem State.setResult_peekDisk : (s.setResult r v).peekDisk a = s.peekDisk a := by unfold State.setResult; split <;> simp
theorem State.setResult_ip (h : r ≠ .ip) : (s.setResult r v).ip = s.ip := by
  unfold State.setResult; split
  · rfl
  · exact State.setReg_ip s r v h
theorem State.setResult_sp (h : r ≠ .sp) : (s.setResult r v).sp = s.sp := by
  unfold State.setResult; split
  · rfl
  · exact State.setReg_sp s r v h

/-- Every other register holds what it held. -/
theorem State.reg_setResult_ne (h : q ≠ r) : (s.setResult r v).reg q = s.reg q := by
  unfold State.setResult; split
  · rfl
  · exact State.reg_setReg_ne s r q v h

/-! ### Registers by name -/

@[simp] theorem State.reg_sp : s.reg .sp = s.sp := rfl
@[simp] theorem State.reg_ip : s.reg .ip = s.ip := rfl
@[simp] theorem State.reg_bp : s.reg .bp = s.bp := rfl

/-- A register other than IP holds the same after IP is set. -/
theorem State.reg_withIp (h : q ≠ .ip) : ({ s with ip := v } : State).reg q = s.reg q := by
  cases q <;> first | rfl | exact absurd rfl h

/-- A register other than SP holds the same after SP is set. -/
theorem State.reg_withSp (h : q ≠ .sp) : ({ s with sp := v } : State).reg q = s.reg q := by
  cases q <;> first | rfl | exact absurd rfl h

/-! ### `poke` -/

@[simp] theorem State.poke_cfg : (s.poke a o).cfg = s.cfg := rfl
@[simp] theorem State.poke_gpr : (s.poke a o).gpr = s.gpr := rfl
@[simp] theorem State.poke_bp : (s.poke a o).bp = s.bp := rfl
@[simp] theorem State.poke_sp : (s.poke a o).sp = s.sp := rfl
@[simp] theorem State.poke_ip : (s.poke a o).ip = s.ip := rfl
@[simp] theorem State.poke_ptbr : (s.poke a o).ptbr = s.ptbr := rfl
@[simp] theorem State.poke_ptlr : (s.poke a o).ptlr = s.ptlr := rfl
@[simp] theorem State.poke_eip : (s.poke a o).eip = s.eip := rfl
@[simp] theorem State.poke_ec : (s.poke a o).ec = s.ec := rfl
@[simp] theorem State.poke_epn : (s.poke a o).epn = s.epn := rfl
@[simp] theorem State.poke_ema : (s.poke a o).ema = s.ema := rfl
@[simp] theorem State.poke_port : (s.poke a o).port = s.port := rfl
@[simp] theorem State.poke_mode : (s.poke a o).mode = s.mode := rfl
@[simp] theorem State.poke_disk : (s.poke a o).disk = s.disk := rfl
@[simp] theorem State.poke_timerCount : (s.poke a o).timerCount = s.timerCount := rfl
@[simp] theorem State.poke_diskOp : (s.poke a o).diskOp = s.diskOp := rfl
@[simp] theorem State.poke_consoleWait : (s.poke a o).consoleWait = s.consoleWait := rfl
@[simp] theorem State.poke_p0Valid : (s.poke a o).p0Valid = s.p0Valid := rfl
@[simp] theorem State.poke_pendTimer : (s.poke a o).pendTimer = s.pendTimer := rfl
@[simp] theorem State.poke_pendDisk : (s.poke a o).pendDisk = s.pendDisk := rfl
@[simp] theorem State.poke_pendConsole : (s.poke a o).pendConsole = s.pendConsole := rfl
@[simp] theorem State.poke_termOut : (s.poke a o).termOut = s.termOut := rfl
@[simp] theorem State.poke_halted : (s.poke a o).halted = s.halted := rfl
@[simp] theorem State.poke_waiting : (s.poke a o).waiting = s.waiting := rfl
@[simp] theorem State.poke_userGap : (s.poke a o).userGap = s.userGap := rfl
@[simp] theorem State.poke_userIni : (s.poke a o).userIni = s.userIni := rfl
@[simp] theorem State.poke_freeCount : (s.poke a o).freeCount = s.freeCount := rfl
@[simp] theorem State.poke_touched : (s.poke a o).touched = s.touched := rfl
@[simp] theorem State.poke_reg : (s.poke a o).reg q = s.reg q := by cases q <;> rfl
@[simp] theorem State.poke_peekDisk (c : Nat) : (s.poke a o).peekDisk c = s.peekDisk c := rfl

/-! ### `blockToPage` and `pageToBlock` -/

@[simp] theorem blockToPage_cfg : (blockToPage p b s).cfg = s.cfg := rfl
@[simp] theorem blockToPage_gpr : (blockToPage p b s).gpr = s.gpr := rfl
@[simp] theorem blockToPage_bp : (blockToPage p b s).bp = s.bp := rfl
@[simp] theorem blockToPage_sp : (blockToPage p b s).sp = s.sp := rfl
@[simp] theorem blockToPage_ip : (blockToPage p b s).ip = s.ip := rfl
@[simp] theorem blockToPage_ptbr : (blockToPage p b s).ptbr = s.ptbr := rfl
@[simp] theorem blockToPage_ptlr : (blockToPage p b s).ptlr = s.ptlr := rfl
@[simp] theorem blockToPage_eip : (blockToPage p b s).eip = s.eip := rfl
@[simp] theorem blockToPage_ec : (blockToPage p b s).ec = s.ec := rfl
@[simp] theorem blockToPage_epn : (blockToPage p b s).epn = s.epn := rfl
@[simp] theorem blockToPage_ema : (blockToPage p b s).ema = s.ema := rfl
@[simp] theorem blockToPage_port : (blockToPage p b s).port = s.port := rfl
@[simp] theorem blockToPage_mode : (blockToPage p b s).mode = s.mode := rfl
@[simp] theorem blockToPage_disk : (blockToPage p b s).disk = s.disk := rfl
@[simp] theorem blockToPage_timerCount : (blockToPage p b s).timerCount = s.timerCount := rfl
@[simp] theorem blockToPage_diskOp : (blockToPage p b s).diskOp = s.diskOp := rfl
@[simp] theorem blockToPage_consoleWait : (blockToPage p b s).consoleWait = s.consoleWait := rfl
@[simp] theorem blockToPage_p0Valid : (blockToPage p b s).p0Valid = s.p0Valid := rfl
@[simp] theorem blockToPage_pendTimer : (blockToPage p b s).pendTimer = s.pendTimer := rfl
@[simp] theorem blockToPage_pendDisk : (blockToPage p b s).pendDisk = s.pendDisk := rfl
@[simp] theorem blockToPage_pendConsole : (blockToPage p b s).pendConsole = s.pendConsole := rfl
@[simp] theorem blockToPage_termOut : (blockToPage p b s).termOut = s.termOut := rfl
@[simp] theorem blockToPage_halted : (blockToPage p b s).halted = s.halted := rfl
@[simp] theorem blockToPage_waiting : (blockToPage p b s).waiting = s.waiting := rfl
@[simp] theorem blockToPage_userGap : (blockToPage p b s).userGap = s.userGap := rfl
@[simp] theorem blockToPage_userIni : (blockToPage p b s).userIni = s.userIni := rfl
@[simp] theorem blockToPage_freeCount : (blockToPage p b s).freeCount = s.freeCount := rfl
@[simp] theorem blockToPage_touched : (blockToPage p b s).touched = s.touched := rfl
@[simp] theorem pageToBlock_cfg : (pageToBlock p b s).cfg = s.cfg := rfl
@[simp] theorem pageToBlock_gpr : (pageToBlock p b s).gpr = s.gpr := rfl
@[simp] theorem pageToBlock_bp : (pageToBlock p b s).bp = s.bp := rfl
@[simp] theorem pageToBlock_sp : (pageToBlock p b s).sp = s.sp := rfl
@[simp] theorem pageToBlock_ip : (pageToBlock p b s).ip = s.ip := rfl
@[simp] theorem pageToBlock_ptbr : (pageToBlock p b s).ptbr = s.ptbr := rfl
@[simp] theorem pageToBlock_ptlr : (pageToBlock p b s).ptlr = s.ptlr := rfl
@[simp] theorem pageToBlock_eip : (pageToBlock p b s).eip = s.eip := rfl
@[simp] theorem pageToBlock_ec : (pageToBlock p b s).ec = s.ec := rfl
@[simp] theorem pageToBlock_epn : (pageToBlock p b s).epn = s.epn := rfl
@[simp] theorem pageToBlock_ema : (pageToBlock p b s).ema = s.ema := rfl
@[simp] theorem pageToBlock_port : (pageToBlock p b s).port = s.port := rfl
@[simp] theorem pageToBlock_mode : (pageToBlock p b s).mode = s.mode := rfl
@[simp] theorem pageToBlock_mem : (pageToBlock p b s).mem = s.mem := rfl
@[simp] theorem pageToBlock_timerCount : (pageToBlock p b s).timerCount = s.timerCount := rfl
@[simp] theorem pageToBlock_diskOp : (pageToBlock p b s).diskOp = s.diskOp := rfl
@[simp] theorem pageToBlock_consoleWait : (pageToBlock p b s).consoleWait = s.consoleWait := rfl
@[simp] theorem pageToBlock_p0Valid : (pageToBlock p b s).p0Valid = s.p0Valid := rfl
@[simp] theorem pageToBlock_pendTimer : (pageToBlock p b s).pendTimer = s.pendTimer := rfl
@[simp] theorem pageToBlock_pendDisk : (pageToBlock p b s).pendDisk = s.pendDisk := rfl
@[simp] theorem pageToBlock_pendConsole : (pageToBlock p b s).pendConsole = s.pendConsole := rfl
@[simp] theorem pageToBlock_termOut : (pageToBlock p b s).termOut = s.termOut := rfl
@[simp] theorem pageToBlock_halted : (pageToBlock p b s).halted = s.halted := rfl
@[simp] theorem pageToBlock_waiting : (pageToBlock p b s).waiting = s.waiting := rfl
@[simp] theorem pageToBlock_userGap : (pageToBlock p b s).userGap = s.userGap := rfl
@[simp] theorem pageToBlock_userIni : (pageToBlock p b s).userIni = s.userIni := rfl
@[simp] theorem pageToBlock_freeCount : (pageToBlock p b s).freeCount = s.freeCount := rfl
@[simp] theorem pageToBlock_touched : (pageToBlock p b s).touched = s.touched := rfl
@[simp] theorem blockToPage_reg : (blockToPage p b s).reg q = s.reg q := by cases q <;> rfl
@[simp] theorem pageToBlock_reg : (pageToBlock p b s).reg q = s.reg q := by cases q <;> rfl
@[simp] theorem blockToPage_peekDisk (c : Nat) : (blockToPage p b s).peekDisk c = s.peekDisk c := rfl
@[simp] theorem pageToBlock_peek (c : Nat) : (pageToBlock p b s).peek c = s.peek c := rfl

/-! ### `diskComplete`, `startTransfer`, `movToReg` and `clearPending` -/

@[simp] theorem diskComplete_cfg : (diskComplete kind p b s).cfg = s.cfg := by cases kind <;> rfl
@[simp] theorem diskComplete_gpr : (diskComplete kind p b s).gpr = s.gpr := by cases kind <;> rfl
@[simp] theorem diskComplete_bp : (diskComplete kind p b s).bp = s.bp := by cases kind <;> rfl
@[simp] theorem diskComplete_sp : (diskComplete kind p b s).sp = s.sp := by cases kind <;> rfl
@[simp] theorem diskComplete_ip : (diskComplete kind p b s).ip = s.ip := by cases kind <;> rfl
@[simp] theorem diskComplete_ptbr : (diskComplete kind p b s).ptbr = s.ptbr := by cases kind <;> rfl
@[simp] theorem diskComplete_ptlr : (diskComplete kind p b s).ptlr = s.ptlr := by cases kind <;> rfl
@[simp] theorem diskComplete_eip : (diskComplete kind p b s).eip = s.eip := by cases kind <;> rfl
@[simp] theorem diskComplete_ec : (diskComplete kind p b s).ec = s.ec := by cases kind <;> rfl
@[simp] theorem diskComplete_epn : (diskComplete kind p b s).epn = s.epn := by cases kind <;> rfl
@[simp] theorem diskComplete_ema : (diskComplete kind p b s).ema = s.ema := by cases kind <;> rfl
@[simp] theorem diskComplete_port : (diskComplete kind p b s).port = s.port := by cases kind <;> rfl
@[simp] theorem diskComplete_mode : (diskComplete kind p b s).mode = s.mode := by cases kind <;> rfl
@[simp] theorem diskComplete_timerCount : (diskComplete kind p b s).timerCount = s.timerCount := by cases kind <;> rfl
@[simp] theorem diskComplete_diskOp : (diskComplete kind p b s).diskOp = .idle := by cases kind <;> rfl
@[simp] theorem diskComplete_consoleWait : (diskComplete kind p b s).consoleWait = s.consoleWait := by cases kind <;> rfl
@[simp] theorem diskComplete_p0Valid : (diskComplete kind p b s).p0Valid = s.p0Valid := by cases kind <;> rfl
@[simp] theorem diskComplete_pendTimer : (diskComplete kind p b s).pendTimer = s.pendTimer := by cases kind <;> rfl
@[simp] theorem diskComplete_pendDisk : (diskComplete kind p b s).pendDisk = true := by cases kind <;> rfl
@[simp] theorem diskComplete_pendConsole : (diskComplete kind p b s).pendConsole = s.pendConsole := by cases kind <;> rfl
@[simp] theorem diskComplete_termOut : (diskComplete kind p b s).termOut = s.termOut := by cases kind <;> rfl
@[simp] theorem diskComplete_halted : (diskComplete kind p b s).halted = s.halted := by cases kind <;> rfl
@[simp] theorem diskComplete_waiting : (diskComplete kind p b s).waiting = s.waiting := by cases kind <;> rfl
@[simp] theorem diskComplete_userGap : (diskComplete kind p b s).userGap = s.userGap := by cases kind <;> rfl
@[simp] theorem diskComplete_userIni : (diskComplete kind p b s).userIni = s.userIni := by cases kind <;> rfl
@[simp] theorem diskComplete_freeCount : (diskComplete kind p b s).freeCount = s.freeCount := by cases kind <;> rfl
@[simp] theorem diskComplete_touched : (diskComplete kind p b s).touched = s.touched := by cases kind <;> rfl
@[simp] theorem startTransfer_cfg : (startTransfer kind p b s).cfg = s.cfg := by
  unfold startTransfer; split <;> simp
@[simp] theorem startTransfer_gpr : (startTransfer kind p b s).gpr = s.gpr := by
  unfold startTransfer; split <;> simp
@[simp] theorem startTransfer_bp : (startTransfer kind p b s).bp = s.bp := by
  unfold startTransfer; split <;> simp
@[simp] theorem startTransfer_sp : (startTransfer kind p b s).sp = s.sp := by
  unfold startTransfer; split <;> simp
@[simp] theorem startTransfer_ip : (startTransfer kind p b s).ip = s.ip := by
  unfold startTransfer; split <;> simp
@[simp] theorem startTransfer_ptbr : (startTransfer kind p b s).ptbr = s.ptbr := by
  unfold startTransfer; split <;> simp
@[simp] theorem startTransfer_ptlr : (startTransfer kind p b s).ptlr = s.ptlr := by
  unfold startTransfer; split <;> simp
@[simp] theorem startTransfer_eip : (startTransfer kind p b s).eip = s.eip := by
  unfold startTransfer; split <;> simp
@[simp] theorem startTransfer_ec : (startTransfer kind p b s).ec = s.ec := by
  unfold startTransfer; split <;> simp
@[simp] theorem startTransfer_epn : (startTransfer kind p b s).epn = s.epn := by
  unfold startTransfer; split <;> simp
@[simp] theorem startTransfer_ema : (startTransfer kind p b s).ema = s.ema := by
  unfold startTransfer; split <;> simp
@[simp] theorem startTransfer_port : (startTransfer kind p b s).port = s.port := by
  unfold startTransfer; split <;> simp
@[simp] theorem startTransfer_mode : (startTransfer kind p b s).mode = s.mode := by
  unfold startTransfer; split <;> simp
@[simp] theorem startTransfer_timerCount : (startTransfer kind p b s).timerCount = s.timerCount := by
  unfold startTransfer; split <;> simp
@[simp] theorem startTransfer_consoleWait : (startTransfer kind p b s).consoleWait = s.consoleWait := by
  unfold startTransfer; split <;> simp
@[simp] theorem startTransfer_p0Valid : (startTransfer kind p b s).p0Valid = s.p0Valid := by
  unfold startTransfer; split <;> simp
@[simp] theorem startTransfer_pendTimer : (startTransfer kind p b s).pendTimer = s.pendTimer := by
  unfold startTransfer; split <;> simp
@[simp] theorem startTransfer_pendConsole : (startTransfer kind p b s).pendConsole = s.pendConsole := by
  unfold startTransfer; split <;> simp
@[simp] theorem startTransfer_termOut : (startTransfer kind p b s).termOut = s.termOut := by
  unfold startTransfer; split <;> simp
@[simp] theorem startTransfer_halted : (startTransfer kind p b s).halted = s.halted := by
  unfold startTransfer; split <;> simp
@[simp] theorem startTransfer_waiting : (startTransfer kind p b s).waiting = s.waiting := by
  unfold startTransfer; split <;> simp
@[simp] theorem startTransfer_userGap : (startTransfer kind p b s).userGap = s.userGap := by
  unfold startTransfer; split <;> simp
@[simp] theorem startTransfer_userIni : (startTransfer kind p b s).userIni = s.userIni := by
  unfold startTransfer; split <;> simp
@[simp] theorem startTransfer_freeCount : (startTransfer kind p b s).freeCount = s.freeCount := by
  unfold startTransfer; split <;> simp
@[simp] theorem startTransfer_touched : (startTransfer kind p b s).touched = s.touched := by
  unfold startTransfer; split <;> simp
@[simp] theorem movToReg_cfg : (movToReg r v s).cfg = s.cfg := by
  unfold movToReg; split <;> simp
@[simp] theorem movToReg_mode : (movToReg r v s).mode = s.mode := by
  unfold movToReg; split <;> simp
@[simp] theorem movToReg_mem : (movToReg r v s).mem = s.mem := by
  unfold movToReg; split <;> simp
@[simp] theorem movToReg_disk : (movToReg r v s).disk = s.disk := by
  unfold movToReg; split <;> simp
@[simp] theorem movToReg_timerCount : (movToReg r v s).timerCount = s.timerCount := by
  unfold movToReg; split <;> simp
@[simp] theorem movToReg_diskOp : (movToReg r v s).diskOp = s.diskOp := by
  unfold movToReg; split <;> simp
@[simp] theorem movToReg_consoleWait : (movToReg r v s).consoleWait = s.consoleWait := by
  unfold movToReg; split <;> simp
@[simp] theorem movToReg_pendTimer : (movToReg r v s).pendTimer = s.pendTimer := by
  unfold movToReg; split <;> simp
@[simp] theorem movToReg_pendDisk : (movToReg r v s).pendDisk = s.pendDisk := by
  unfold movToReg; split <;> simp
@[simp] theorem movToReg_pendConsole : (movToReg r v s).pendConsole = s.pendConsole := by
  unfold movToReg; split <;> simp
@[simp] theorem movToReg_termOut : (movToReg r v s).termOut = s.termOut := by
  unfold movToReg; split <;> simp
@[simp] theorem movToReg_halted : (movToReg r v s).halted = s.halted := by
  unfold movToReg; split <;> simp
@[simp] theorem movToReg_waiting : (movToReg r v s).waiting = s.waiting := by
  unfold movToReg; split <;> simp
@[simp] theorem movToReg_userGap : (movToReg r v s).userGap = s.userGap := by
  unfold movToReg; split <;> simp
@[simp] theorem movToReg_userIni : (movToReg r v s).userIni = s.userIni := by
  unfold movToReg; split <;> simp
@[simp] theorem movToReg_freeCount : (movToReg r v s).freeCount = s.freeCount := by
  unfold movToReg; split <;> simp
@[simp] theorem movToReg_touched : (movToReg r v s).touched = s.touched := by
  unfold movToReg; split <;> simp
@[simp] theorem movToReg_peek : (movToReg r v s).peek a = s.peek a := by
  unfold movToReg; split
  · exact State.setReg_peek s r v a
  · simp
@[simp] theorem movToReg_peekDisk : (movToReg r v s).peekDisk a = s.peekDisk a := by
  unfold movToReg; split
  · exact State.setReg_peekDisk s r v a
  · simp
theorem movToReg_ip (h : r ≠ .ip) : (movToReg r v s).ip = s.ip := by
  unfold movToReg; split <;> exact State.setReg_ip s r v h

/-- MOV's write of a register, read back by name. -/
theorem reg_movToReg : (movToReg r v s).reg q = if q = r then v else s.reg q := by
  rw [← State.reg_setReg]; unfold movToReg; split
  · cases q <;> rfl
  · rfl
@[simp] theorem State.clearPending_cfg : (s.clearPending k).cfg = s.cfg := by cases k <;> rfl
@[simp] theorem State.clearPending_gpr : (s.clearPending k).gpr = s.gpr := by cases k <;> rfl
@[simp] theorem State.clearPending_bp : (s.clearPending k).bp = s.bp := by cases k <;> rfl
@[simp] theorem State.clearPending_sp : (s.clearPending k).sp = s.sp := by cases k <;> rfl
@[simp] theorem State.clearPending_ip : (s.clearPending k).ip = s.ip := by cases k <;> rfl
@[simp] theorem State.clearPending_ptbr : (s.clearPending k).ptbr = s.ptbr := by cases k <;> rfl
@[simp] theorem State.clearPending_ptlr : (s.clearPending k).ptlr = s.ptlr := by cases k <;> rfl
@[simp] theorem State.clearPending_eip : (s.clearPending k).eip = s.eip := by cases k <;> rfl
@[simp] theorem State.clearPending_ec : (s.clearPending k).ec = s.ec := by cases k <;> rfl
@[simp] theorem State.clearPending_epn : (s.clearPending k).epn = s.epn := by cases k <;> rfl
@[simp] theorem State.clearPending_ema : (s.clearPending k).ema = s.ema := by cases k <;> rfl
@[simp] theorem State.clearPending_port : (s.clearPending k).port = s.port := by cases k <;> rfl
@[simp] theorem State.clearPending_mode : (s.clearPending k).mode = s.mode := by cases k <;> rfl
@[simp] theorem State.clearPending_mem : (s.clearPending k).mem = s.mem := by cases k <;> rfl
@[simp] theorem State.clearPending_disk : (s.clearPending k).disk = s.disk := by cases k <;> rfl
@[simp] theorem State.clearPending_timerCount : (s.clearPending k).timerCount = s.timerCount := by cases k <;> rfl
@[simp] theorem State.clearPending_diskOp : (s.clearPending k).diskOp = s.diskOp := by cases k <;> rfl
@[simp] theorem State.clearPending_consoleWait : (s.clearPending k).consoleWait = s.consoleWait := by cases k <;> rfl
@[simp] theorem State.clearPending_p0Valid : (s.clearPending k).p0Valid = s.p0Valid := by cases k <;> rfl
@[simp] theorem State.clearPending_termOut : (s.clearPending k).termOut = s.termOut := by cases k <;> rfl
@[simp] theorem State.clearPending_halted : (s.clearPending k).halted = s.halted := by cases k <;> rfl
@[simp] theorem State.clearPending_waiting : (s.clearPending k).waiting = s.waiting := by cases k <;> rfl
@[simp] theorem State.clearPending_userGap : (s.clearPending k).userGap = s.userGap := by cases k <;> rfl
@[simp] theorem State.clearPending_userIni : (s.clearPending k).userIni = s.userIni := by cases k <;> rfl
@[simp] theorem State.clearPending_freeCount : (s.clearPending k).freeCount = s.freeCount := by cases k <;> rfl
@[simp] theorem State.clearPending_touched : (s.clearPending k).touched = s.touched := by cases k <;> rfl

end Sys2Proof.Machine
end

