-- ==== Sys2Proof/Laws/Ops.lean ====
section
/-! SUPPORT. One lemma per shared operation that says everything it can do when it answers a value. -/

namespace Sys2Proof.Machine

variable {α β : Type} {s t : State}

/-! ### Results -/

@[simp] theorem Res.bind_ok (a : α) (s : State) (f : α → State → Res β) : (Res.ok a s).bind f = f a s := rfl
@[simp] theorem Res.bind_exc (c : Cause) (s : State) (f : α → State → Res β) : (Res.exc c s).bind f = .exc c s := rfl
@[simp] theorem Res.bind_fault (g : Fault) (f : α → State → Res β) : (Res.fault g).bind f = .fault g := rfl
@[simp] theorem Res.bind_refuse (r : Refusal) (f : α → State → Res β) : (Res.refuse r).bind f = .refuse r := rfl
@[simp] theorem finish_ok (u : Unit) (s : State) : finish (.ok u s) = .next s := rfl
@[simp] theorem finish_exc (c : Cause) (s : State) : finish (.exc c s) = raise c s := rfl
@[simp] theorem finish_fault (f : Fault) : finish (.fault f) = .fault f := rfl
@[simp] theorem finish_refuse (r : Refusal) : finish (.refuse r) = .refused r := rfl

/-- A sequence answers a value exactly when both parts do. -/
theorem Res.bind_eq_ok {x : Res α} {f : α → State → Res β} {b : β} {t : State} :
    x.bind f = .ok b t ↔ ∃ a s, x = .ok a s ∧ f a s = .ok b t := by
  cases x <;> simp [Res.bind]

/-- A sequence raises an exception exactly when one of its parts does. -/
theorem Res.bind_eq_exc {x : Res α} {f : α → State → Res β} {c : Cause} {t : State} :
    x.bind f = .exc c t ↔ x = .exc c t ∨ ∃ a s, x = .ok a s ∧ f a s = .exc c t := by
  cases x <;> simp [Res.bind]

/-- An instruction answers a next state by completing or by taking an exception. -/
theorem finish_next {x : Res Unit} : finish x = .next t ↔ (∃ u, x = .ok u t) ∨ ∃ c s, x = .exc c s ∧ raise c s = .next t := by
  cases x <;> simp [finish]

/-! ### Physical memory -/

/-- A read after a write of memory. -/
theorem peek_poke (h : s.memWf) (a b : Nat) (v : Option Word) : (s.poke a v).peek b = if b = a then v else s.peek b :=
  Cells.read_write h a b v

/-- A write keeps the memory's canonical form. -/
theorem poke_memWf (h : s.memWf) {a : Nat} (ha : a < 65536) (v : Option Word) : (s.poke a v).memWf := Cells.write_wf h ha

theorem physAddr_eq_some {L : Word} {a : Nat} : physAddr L = some a ↔ L = .int a ∧ a ≤ 65535 := by
  cases L with
  | str => simp [physAddr]
  | int z =>
    simp only [physAddr, Option.ite_none_right_eq_some, Option.some.injEq, Word.int.injEq]
    omega

theorem readLocked_of_unlocked {a : Nat} (h : Unlocked s a) : readLocked s a = false := by
  unfold readLocked; split
  · next p b c hd => simpa using h _ _ _ _ hd
  · rfl

theorem writeLocked_eq_false {a : Nat} : writeLocked s a = false ↔ Unlocked s a := by
  unfold writeLocked Unlocked
  cases s.diskOp with
  | idle => simp
  | busy k p b c => simp; grind

theorem physRead_ok {a : Nat} {w : Word} :
    physRead a s = .ok w t ↔ t = s ∧ readLocked s a = false ∧ s.peek a = some w := by
  unfold physRead
  cases readLocked s a <;> cases h : s.peek a <;> simp [eq_comm, and_comm]

theorem physWrite_ok {a : Nat} {v : Word} {u : Unit} :
    physWrite a v s = .ok u t ↔ 512 ≤ a ∧ Unlocked s a ∧ t = s.poke a (some v) := by
  unfold physWrite
  rw [← writeLocked_eq_false]
  by_cases h : a < 512
  · simp [h]
  · cases hw : writeLocked s a
    · simp [h, eq_comm]; omega
    · simp [h]

theorem physRead_ne_exc {a : Nat} {c : Cause} : physRead a s ≠ .exc c t := by
  unfold physRead; split <;> [skip; split] <;> exact nofun

theorem physWrite_ne_exc {a : Nat} {v : Word} {c : Cause} : physWrite a v s ≠ .exc c t := by
  unfold physWrite; split <;> [skip; split] <;> exact nofun

/-! ### Translation -/

/-- Everything a translation may change: memory above the ROM, and the note of touched words, which names only such addresses. -/
structure AuxChange (s t : State) : Prop where
  same : t = { s with mem := t.mem, touched := t.touched }
  wf : s.memWf → t.memWf
  rom : s.memWf → ∀ a, a < 512 → t.peek a = s.peek a
  noted : ∀ x ∈ t.touched, x ∈ s.touched ∨ (512 ≤ x.1 ∧ x.1 < 65536)

theorem AuxChange.refl (s : State) : AuxChange s s := ⟨rfl, id, fun _ _ _ => rfl, fun _ h => .inl h⟩

theorem AuxChange.trans {u : State} (h : AuxChange s t) (k : AuxChange t u) : AuxChange s u where
  same := by rw [k.same, h.same]
  wf := fun w => k.wf (h.wf w)
  rom := fun w a ha => (k.rom (h.wf w) a ha).trans (h.rom w a ha)
  noted := fun x hx => (k.noted x hx).elim (fun hx => h.noted x hx) .inr

/-- A physical write of memory changes nothing but memory above the ROM. -/
theorem AuxChange.of_physWrite {a : Nat} {v : Word} {u : Unit} (h : physWrite a v s = .ok u t) (ha : a < 65536) :
    AuxChange s t := by
  obtain ⟨h1, -, rfl⟩ := physWrite_ok.1 h
  exact ⟨rfl, fun w => poke_memWf w ha _, fun w b hb => by rw [peek_poke w, if_neg (by omega)], fun _ hx => .inl hx⟩

theorem AuxChange.of_updateAux {a : Nat} {old : Option Word} {new : Word} {u : Unit} (h : updateAux a old new s = .ok u t) (ha : a < 65536) :
    AuxChange s t := by
  obtain ⟨_, x, hx, hf⟩ := Res.bind_eq_ok.1 h
  have hw := AuxChange.of_physWrite hx ha
  have h1 := (physWrite_ok.1 hx).1
  cases hf
  split
  · exact hw
  · refine ⟨by rw [hw.same], hw.wf, hw.rom, fun y hy => ?_⟩
    rcases List.mem_cons.1 hy with rfl | hy
    · exact .inr ⟨h1, ha⟩
    · exact hw.noted y hy

theorem updateAux_ne_exc {a : Nat} {old : Option Word} {new : Word} {c : Cause} : updateAux a old new s ≠ .exc c t := by
  intro h
  rcases Res.bind_eq_exc.1 h with h | ⟨_, _, -, h⟩
  · exact physWrite_ne_exc h
  · cases h

theorem pageOfWord_lt {w : Word} {p : Nat} (h : pageOfWord w = some p) : p < 128 := by
  cases w with
  | str => simp [pageOfWord] at h
  | int z => simp only [pageOfWord, Option.ite_none_right_eq_some, Option.some.injEq] at h; omega

theorem logicalPage_offset_lt {L : Word} {lp off : Nat} (h : logicalPage s L = some (lp, off)) : off < 512 := by
  unfold logicalPage at h
  split at h <;> [skip; cases h]
  split at h <;> [skip; cases h]
  split at h
  · cases h
  · cases h; omega

theorem entryAddr_lt {lp e : Nat} (h : entryAddr s lp = some e) : e + 1 < 65536 := by
  unfold entryAddr at h
  split at h <;> [skip; cases h]
  split at h
  · cases h; omega
  · cases h

/-- What the entry walk does when it answers an address. -/
theorem walkEntry_ok {k : Access} {L : Word} {lp off e p : Nat} (h : walkEntry k L lp off e s = .ok p t) :
    ∃ auxWord x pageWord n, s.peek (e + 1) = some auxWord ∧ auxOfWord auxWord = some x ∧ x.valid = true ∧
      (k = .write → x.write = true) ∧ s.peek e = some pageWord ∧ pageOfWord pageWord = some n ∧
      updateAux (e + 1) (some auxWord) (wordOfAux (auxAfter k x)) s = .ok () t ∧ p = 512 * n + off := by
  obtain ⟨aw, s1, h1, h2⟩ := Res.bind_eq_ok.1 h
  obtain ⟨rfl, -, hp1⟩ := physRead_ok.1 h1
  split at h2 <;> [cases h2; skip]
  rename_i x hx
  split at h2 <;> [cases h2; skip]
  rename_i hv
  obtain ⟨pw, s2, h3, h4⟩ := Res.bind_eq_ok.1 h2
  obtain ⟨rfl, -, hp2⟩ := physRead_ok.1 h3
  split at h4 <;> [cases h4; skip]
  rename_i n hn
  split_ifs at h4 with hw
  obtain ⟨_, s3, h5, h6⟩ := Res.bind_eq_ok.1 h4
  cases h6
  refine ⟨aw, x, pw, n, hp1, hx, by simpa using hv, fun hk => ?_, hp2, hn, h5, rfl⟩
  by_contra hne
  exact hw ⟨hk, by simpa using hne⟩

/-- The reference translation answers a physical address and changes nothing but memory above the ROM and the note of touched words. -/
theorem referenceTranslate_ok {k : Access} {L : Word} {p : Nat} (h : referenceTranslate k L s = .ok p t) :
    p < 65536 ∧ AuxChange s t := by
  unfold referenceTranslate at h
  split at h <;> [cases h; skip]
  rename_i lp off hl
  split at h <;> [cases h; skip]
  rename_i e he
  obtain ⟨aw, x, pw, n, -, -, -, -, -, hn, hu, rfl⟩ := walkEntry_ok h
  have := pageOfWord_lt hn
  have := logicalPage_offset_lt hl
  exact ⟨by omega, AuxChange.of_updateAux hu (entryAddr_lt he)⟩

/-- An entry walk that raises an exception has changed nothing, and it is one of Translate's two (R148). -/
theorem walkEntry_exc {k : Access} {L : Word} {lp off e : Nat} {c : Cause} (h : walkEntry k L lp off e s = .exc c t) :
    t = s ∧ ((∃ a, c = .illegalMem a) ∨ ∃ n, c = .pageFault n) := by
  rcases Res.bind_eq_exc.1 h with h | ⟨_, s1, h1, hf⟩
  · exact absurd h physRead_ne_exc
  obtain ⟨rfl, -, -⟩ := physRead_ok.1 h1
  split at hf <;> [cases hf; skip]
  split at hf
  · cases hf; exact ⟨rfl, .inr ⟨_, rfl⟩⟩
  rcases Res.bind_eq_exc.1 hf with hf | ⟨_, s2, h2, hg⟩
  · exact absurd hf physRead_ne_exc
  obtain ⟨rfl, -, -⟩ := physRead_ok.1 h2
  split at hg <;> [cases hg; skip]
  split at hg
  · cases hg; exact ⟨rfl, .inl ⟨_, rfl⟩⟩
  rcases Res.bind_eq_exc.1 hg with hg | ⟨_, _, -, hg⟩
  · exact absurd hg updateAux_ne_exc
  · cases hg

/-- What the writes of an open Translate do: nothing but to memory above the ROM and the note of touched words. -/
theorem writeTable_ok : ∀ {ws : List (Fin 65536 × Word)} {s : State} {u : Unit}, writeTable ws s = .ok u t → AuxChange s t
  | [], _, _, h => by cases h; exact .refl _
  | (a, v) :: ws, s, _, h => by
    obtain ⟨_, s1, h1, h2⟩ := Res.bind_eq_ok.1 h
    exact (AuxChange.of_updateAux h1 a.isLt).trans (writeTable_ok h2)

theorem writeTable_ne_exc {c : Cause} : ∀ {ws : List (Fin 65536 × Word)} {s : State}, writeTable ws s ≠ .exc c t
  | [], _, h => by cases h
  | (a, v) :: ws, s, h => by
    rcases Res.bind_eq_exc.1 h with h | ⟨_, _, -, h⟩
    · exact updateAux_ne_exc h
    · exact writeTable_ne_exc h

/-- An open walk that answers an address has been led there by its reads, and then its writes are made. -/
theorem Walk.run_ok {p : Nat} {w : Walk} (h : w.run s = .ok p t) :
    ∃ q ws, w.last s = .addr q ws ∧ p = q.val ∧ writeTable ws s = .ok () t := by
  induction w with
  | illegalMem _ => cases h
  | pageFault _ => cases h
  | addr q ws =>
    obtain ⟨_, s1, h1, h2⟩ := Res.bind_eq_ok.1 h
    cases h2
    exact ⟨q, ws, rfl, rfl, h1⟩
  | read a next ih =>
    obtain ⟨v, s1, h1, h2⟩ := Res.bind_eq_ok.1 h
    obtain ⟨rfl, -, hv⟩ := physRead_ok.1 h1
    obtain ⟨q, ws, h3, h4⟩ := ih v h2
    exact ⟨q, ws, by simp only [Walk.last, hv, h3], h4⟩

/-- One that raises an exception has changed nothing, and the exception is one of Translate's two (R148). -/
theorem Walk.run_exc {c : Cause} {w : Walk} (h : w.run s = .exc c t) : t = s ∧ ((∃ a, c = .illegalMem a) ∨ ∃ n, c = .pageFault n) := by
  induction w with
  | illegalMem _ => cases h; exact ⟨rfl, .inl ⟨_, rfl⟩⟩
  | pageFault _ => cases h; exact ⟨rfl, .inr ⟨_, rfl⟩⟩
  | addr q ws =>
    rcases Res.bind_eq_exc.1 h with h | ⟨_, _, -, h⟩
    · exact absurd h writeTable_ne_exc
    · cases h
  | read a next ih =>
    rcases Res.bind_eq_exc.1 h with h | ⟨v, s1, h1, h2⟩
    · exact absurd h physRead_ne_exc
    · obtain ⟨rfl, -⟩ := physRead_ok.1 h1
      exact ih v h2

/-- What an open Translate does when it answers an address. -/
theorem openTranslate_ok {k : Access} {L : Word} {p : Nat} (h : openTranslate k L s = .ok p t) : p < 65536 ∧ AuxChange s t := by
  obtain ⟨q, ws, -, rfl, hw⟩ := Walk.run_ok h
  exact ⟨q.isLt, writeTable_ok hw⟩

/-- What it does when it raises an exception: nothing, and the exception is one of Translate's two (R148). -/
theorem openTranslate_exc {k : Access} {L : Word} {c : Cause} (h : openTranslate k L s = .exc c t) :
    t = s ∧ ((∃ a, c = .illegalMem a) ∨ ∃ n, c = .pageFault n) := Walk.run_exc h

/-- With the reference translator a number that is a word is translated by the walk of R120 to R123. -/
theorem translate_reference {k : Access} {z : Int} (hc : s.cfg.translator = .reference) (hf : immInRange s.cfg z = true) :
    translate k (.int z) s = referenceTranslate k (.int z) s := by simp [translate, hc, hf]

theorem translate_opened {k : Access} {z : Int} (hc : s.cfg.translator = .opened) (hf : immInRange s.cfg z = true) :
    translate k (.int z) s = openTranslate k (.int z) s := by simp [translate, hc, hf]

/-- What is not a number that is a word is an illegal memory access, whatever the translator. -/
theorem translate_unfit {k : Access} {L : Word} (hf : (∃ cs, L = .str cs) ∨ wordFits s.cfg L = false) :
    translate k L s = .exc (.illegalMem L) s := by
  cases L with
  | str => rfl
  | int z =>
    rcases hf with ⟨_, h⟩ | hf
    · cases h
    · have : immInRange s.cfg z = false := hf
      simp [translate, this]

/-- The address of a translation that is not an illegal one outright is a number that is a word. -/
theorem translate_cases (k : Access) (L : Word) (s : State) :
    translate k L s = .exc (.illegalMem L) s ∨ ∃ z, L = .int z ∧ immInRange s.cfg z = true ∧
      (translate k L s = referenceTranslate k L s ∨ translate k L s = openTranslate k L s) := by
  cases L with
  | str => exact .inl rfl
  | int z =>
    cases hf : immInRange s.cfg z with
    | false => exact .inl (translate_unfit (.inr hf))
    | true =>
      refine .inr ⟨z, rfl, hf, ?_⟩
      cases hc : s.cfg.translator with
      | reference => exact .inl (translate_reference hc hf)
      | opened => exact .inr (translate_opened hc hf)

/-- A translation answers a physical address and changes nothing but memory above the ROM and the note of touched words. -/
theorem translate_ok {k : Access} {L : Word} {p : Nat} (h : translate k L s = .ok p t) :
    p < 65536 ∧ AuxChange s t ∧ wordFits s.cfg L = true := by
  rcases translate_cases k L s with hx | ⟨z, rfl, hf, hx | hx⟩ <;> rw [hx] at h
  · cases h
  · exact ⟨(referenceTranslate_ok h).1, (referenceTranslate_ok h).2, hf⟩
  · exact ⟨(openTranslate_ok h).1, (openTranslate_ok h).2, hf⟩

/-- A translation that raises an exception has changed nothing, and the exception is an illegal memory access or a page fault (R148). -/
theorem translate_exc {k : Access} {L : Word} {c : Cause} (h : translate k L s = .exc c t) :
    t = s ∧ ((∃ a, c = .illegalMem a) ∨ ∃ n, c = .pageFault n) := by
  rcases translate_cases k L s with hx | ⟨z, rfl, hf, hx | hx⟩ <;> rw [hx] at h
  · cases h; exact ⟨rfl, .inl ⟨_, rfl⟩⟩
  · unfold referenceTranslate at h
    split at h
    · cases h; exact ⟨rfl, .inl ⟨_, rfl⟩⟩
    · split at h <;> [cases h; exact walkEntry_exc h]
  · exact openTranslate_exc h

theorem memAddr_ok {k : Access} {L : Word} {p : Nat} (h : memAddr k L s = .ok p t) : p < 65536 ∧ AuxChange s t := by
  unfold memAddr at h
  split at h
  · split at h <;> cases h
    rename_i ha
    have := (physAddr_eq_some.1 ha).2
    exact ⟨by omega, .refl s⟩
  · exact ⟨(translate_ok h).1, (translate_ok h).2.1⟩

/-- So does any access. -/
theorem memAddr_exc {k : Access} {L : Word} {c : Cause} (h : memAddr k L s = .exc c t) :
    t = s ∧ ((∃ a, c = .illegalMem a) ∨ ∃ n, c = .pageFault n) := by
  unfold memAddr at h
  split at h
  · split at h <;> cases h; exact ⟨rfl, .inl ⟨_, rfl⟩⟩
  · exact translate_exc h

theorem memRead_ok {k : Access} {L w : Word} (h : memRead k L s = .ok w t) :
    ∃ p, memAddr k L s = .ok p t ∧ t.peek p = some w := by
  obtain ⟨p, s1, h1, h2⟩ := Res.bind_eq_ok.1 h
  obtain ⟨rfl, -, h3⟩ := physRead_ok.1 h2
  exact ⟨p, h1, h3⟩

theorem memWrite_ok {L v : Word} {u : Unit} (h : memWrite L v s = .ok u t) :
    ∃ p s1, memAddr .write L s = .ok p s1 ∧ 512 ≤ p ∧ Unlocked s1 p ∧ t = s1.poke p (some v) := by
  obtain ⟨p, s1, h1, h2⟩ := Res.bind_eq_ok.1 h
  exact ⟨p, s1, h1, physWrite_ok.1 h2⟩

theorem memRead_change {k : Access} {L w : Word} (h : memRead k L s = .ok w t) : AuxChange s t :=
  have ⟨_, h1, _⟩ := memRead_ok h
  (memAddr_ok h1).2

theorem memWrite_change {L v : Word} {u : Unit} (h : memWrite L v s = .ok u t) : AuxChange s t := by
  obtain ⟨p, s1, h1, h2⟩ := Res.bind_eq_ok.1 h
  exact (memAddr_ok h1).2.trans (.of_physWrite h2 (memAddr_ok h1).1)

/-! ### Open words -/

/-- Zero is a word of every configuration R9 admits. -/
theorem wordFits_zero {cfg : Config} (h : cfg.Admissible) : wordFits cfg (.int 0) = true := by
  have := h.inDomain.1; have := h.inDomain.2.1
  simp [wordFits, immInRange]; omega

/-- An open value is fitted into a word of the machine. -/
theorem wordFits_fitWord {cfg : Config} (h : cfg.Admissible) (w : Word) : wordFits cfg (fitWord cfg w) = true := by
  unfold fitWord; split
  · assumption
  · exact wordFits_zero h

theorem wordFits_anyWord {cfg : Config} (h : cfg.Admissible) (n : Nat) : wordFits cfg (anyWord cfg n) = true := wordFits_fitWord h _

theorem wordFits_reportWord {cfg : Config} (h : cfg.Admissible) (n : Nat) (w : Option Word) :
    wordFits cfg (reportWord cfg n w) = true := by
  cases w with
  | none => exact wordFits_anyWord h n
  | some w => simp only [reportWord]; split <;> [assumption; exact wordFits_anyWord h n]

/-- The word of an exact result is a word of the machine. -/
theorem wordFits_isExact {cfg : Config} (h : cfg.Admissible) {z : Int} {w : Word} (hw : IsExact cfg z w) : wordFits cfg w = true := by
  cases hi : immInRange cfg z with
  | true => rw [hw.1 hi]; exact hi
  | false => obtain ⟨j, hj⟩ := hw.2 hi; rw [hj]; exact wordFits_anyWord h j

/-- An exact result answers its word where there is one, else a free word. -/
theorem exactWord_ok {z : Int} {v : Word} (h : exactWord z s = .ok v t) :
    IsExact s.cfg z v ∧ t = { s with freeCount := t.freeCount } := by
  unfold exactWord drawWord at h
  split at h <;> rename_i hf <;> cases h
  · exact ⟨⟨fun _ => rfl, fun hn => by simp [hf] at hn⟩, rfl⟩
  · exact ⟨⟨fun hy => absurd hy hf, fun _ => ⟨_, rfl⟩⟩, rfl⟩

/-- It always answers. -/
theorem exactWord_answers (z : Int) (s : State) : ∃ v n, exactWord z s = .ok v { s with freeCount := n } ∧ IsExact s.cfg z v := by
  unfold exactWord drawWord
  split <;> rename_i hf
  · exact ⟨_, _, rfl, fun _ => rfl, fun hn => by simp [hf] at hn⟩
  · exact ⟨_, _, rfl, fun hy => absurd hy hf, fun _ => ⟨_, rfl⟩⟩

/-- SP goes down by 1, as far as words go. -/
theorem dropTop_answers (z : Int) (s : State) :
    ∃ v n, dropTop z s = .ok () { s with freeCount := n, sp := v } ∧ IsExact s.cfg (z - 1) v := by
  obtain ⟨v, n, h, hv⟩ := exactWord_answers (z - 1) s
  exact ⟨v, n, by simp [dropTop, h], hv⟩

/-! ### The stack -/

theorem push_ok {v : Word} {u : Unit} (h : push v s = .ok u t) :
    ∃ z p s1, s.sp = .int z ∧ memAddr .write (.int (z + 1)) s = .ok p s1 ∧ 512 ≤ p ∧ Unlocked s1 p ∧
      t = { s1.poke p (some v) with sp := .int (z + 1) } := by
  unfold push at h
  split at h <;> [cases h; skip]
  rename_i z hz
  obtain ⟨_, s2, h1, h2⟩ := Res.bind_eq_ok.1 h
  obtain ⟨p, s1, h3, h4, h5, rfl⟩ := memWrite_ok h1
  cases h2
  exact ⟨z, p, s1, hz, h3, h4, h5, rfl⟩

theorem push_change {v : Word} {u : Unit} (h : push v s = .ok u t) : ∃ s1, AuxChange s s1 ∧ t = { s1 with sp := t.sp } := by
  unfold push at h
  split at h <;> [cases h; skip]
  obtain ⟨_, s2, h1, h2⟩ := Res.bind_eq_ok.1 h
  cases h2
  exact ⟨s2, memWrite_change h1, rfl⟩

theorem pop_ok {v : Word} (h : pop s = .ok v t) :
    ∃ z s1, s.sp = .int z ∧ memRead .read (.int z) s = .ok v s1 ∧ IsExact s1.cfg (z - 1) t.sp ∧
      t = { s1 with sp := t.sp, freeCount := t.freeCount } := by
  unfold pop at h
  split at h <;> [cases h; skip]
  rename_i z hz
  obtain ⟨_, s2, h1, h2⟩ := Res.bind_eq_ok.1 h
  obtain ⟨w, n, h3, h4⟩ := dropTop_answers z s2
  rw [h3] at h2
  cases h2
  exact ⟨z, s2, hz, h1, h4, rfl⟩

/-! ### Operands -/

theorem checkRegs_ok {rs : List Reg} {u : Unit} : checkRegs rs s = .ok u t ↔ t = s ∧ Accepts rs s := by
  have hp : (s.mode = .unpriv ∧ rs.any Reg.privileged = true) ↔ ¬ (s.mode = .unpriv → ∀ r ∈ rs, r.privileged = false) := by
    simp
  unfold checkRegs Accepts
  by_cases h : Reg.ip ∈ rs
  · rw [if_pos h]
    exact ⟨nofun, fun h2 => absurd h h2.2.1⟩
  · rw [if_neg h]
    by_cases h2 : s.mode = .unpriv → ∀ r ∈ rs, r.privileged = false
    · rw [if_neg (fun hx => hp.1 hx h2)]
      exact ⟨fun he => by cases he; exact ⟨rfl, h, h2⟩, fun he => by rw [he.1]⟩
    · rw [if_pos (hp.2 h2)]
      exact ⟨nofun, fun he => absurd he.2.2 h2⟩

/-- Accepted registers pass the check. -/
theorem checkRegs_accepts {rs : List Reg} (h : Accepts rs s) : checkRegs rs s = .ok () s := checkRegs_ok.2 ⟨rfl, h⟩

/-- A register read always answers; it changes nothing but the free-value counter, and that only for P0 while it is not valid. -/
theorem readReg_ok {r : Reg} {v : Word} (h : readReg r s = .ok v t) :
    (t = s ∧ v = s.reg r ∧ ¬ (r = .port 0 ∧ s.p0Valid = false)) ∨
      (r = .port 0 ∧ s.p0Valid = false ∧ v = anyWord s.cfg s.freeCount ∧ t = { s with freeCount := s.freeCount + 1 }) := by
  unfold readReg drawWord at h
  split at h
  · rename_i hp; cases h; exact .inr ⟨hp.1, hp.2, rfl, rfl⟩
  · rename_i hp; cases h; exact .inl ⟨rfl, rfl, hp⟩

/-- A register other than P0 reads as it stands. -/
theorem readReg_of_ne {r : Reg} (h : r ≠ .port 0) : readReg r s = .ok (s.reg r) s := by simp [readReg, h]

theorem advance_ok {u : Unit} : advance s = .ok u t ↔ ∃ n, s.ip = .int n ∧ t = { s with ip := .int (n + 2) } := by
  unfold advance withIp
  cases s.ip <;> simp [eq_comm]

@[simp] theorem advance_int {n : Int} (h : s.ip = .int n) : advance s = .ok () { s with ip := .int (n + 2) } := by
  simp [advance, withIp, h]

/-! ### Arithmetic and comparison -/

theorem narrow_ok {r : Int} {v : Word} :
    narrow r s = .ok v t ↔ t = s ∧ v = .int r ∧ s.cfg.intMin ≤ r ∧ r ≤ s.cfg.intMax := by
  unfold narrow
  split
  · rename_i h
    exact ⟨fun he => by cases he; exact ⟨rfl, rfl, h⟩, fun he => by rw [he.1, he.2.1]⟩
  · rename_i h
    exact ⟨nofun, fun he => absurd he.2.2 h⟩

/-- Arithmetic answers a number in range and changes nothing. -/
theorem arith_ok {op : ArithOp} {a b v : Word} (h : arith op a b s = .ok v t) :
    t = s ∧ ∃ r, v = .int r ∧ s.cfg.intMin ≤ r ∧ r ≤ s.cfg.intMax := by
  unfold arith at h
  split at h <;> [cases h; skip]
  split at h <;> [skip; cases h]
  split at h
  case _ | _ | _ =>
    obtain ⟨h1, h2, h3⟩ := narrow_ok.1 h
    exact ⟨h1, _, h2, h3⟩
  all_goals
    unfold divide at h
    split at h <;> [cases h; skip]
    obtain ⟨h1, h2, h3⟩ := narrow_ok.1 h
    exact ⟨h1, _, h2, h3⟩

theorem compareWords_ok {rel : Relation} {a b v : Word} (h : compareWords rel a b s = .ok v t) :
    t = s ∧ (v = .int 0 ∨ v = .int 1) := by
  unfold compareWords at h
  split at h <;> [skip; split at h; cases h; cases h] <;> cases h <;>
    refine ⟨rfl, ?_⟩ <;> unfold Word.ofBool <;> split <;> simp

end Sys2Proof.Machine
end

