-- ==== Sys2Proof/Laws/Traps.lean ====
section
/-! SUPPORT. What the trap entries, the counting and the block transfers do, one lemma each. -/

namespace Sys2Proof.Machine

variable {s t : State}

/-! ### Exceptions -/

/-- The push of IP is the push of an `Int` word. -/
theorem pushIp_ok {u : Unit} : pushIp s = .ok u t ↔ ∃ n, s.ip = .int n ∧ immInRange s.cfg n = true ∧ push (.int n) s = .ok u t := by
  unfold pushIp
  cases s.ip with
  | str => simp
  | int n => cases h : immInRange s.cfg n <;> simp [h]

/-- Settling the touched words changes nothing but memory and the free-value counter. -/
theorem settleTouched_same (l : List (Nat × Option Word)) :
    ∀ s : State, settleTouched l s = { s with mem := (settleTouched l s).mem, freeCount := (settleTouched l s).freeCount } := by
  induction l with
  | nil => exact fun _ => rfl
  | cons x l ih =>
    intro s
    simp only [settleTouched]
    rw [ih]
    split <;> rfl

/-- Settling touched words that are addresses keeps the memory's canonical form. -/
theorem settleTouched_memWf : ∀ {l : List (Nat × Option Word)} {s : State}, s.memWf → (∀ x ∈ l, x.1 < 65536) → (settleTouched l s).memWf
  | [], _, h, _ => h
  | (a, old) :: l, s, h, hl => by
    rw [settleTouched]
    refine settleTouched_memWf ?_ fun x hx => hl x (by simp [hx])
    split_ifs
    · exact poke_memWf h (hl (a, old) (by simp)) old
    · exact h

/-- Recording a cause writes EC, EIP, EPN, EMA and draws free values; IP stays. -/
@[simp] theorem recordCause_ip (c : Cause) : (recordCause c s).ip = s.ip := rfl
@[simp] theorem recordCause_cfg (c : Cause) : (recordCause c s).cfg = s.cfg := rfl
@[simp] theorem settleTouched_ip (l : List (Nat × Option Word)) : (settleTouched l s).ip = s.ip := by rw [settleTouched_same]
@[simp] theorem settleTouched_cfg (l : List (Nat × Option Word)) : (settleTouched l s).cfg = s.cfg := by rw [settleTouched_same]

/-- What `raise` does when it answers a next state: UNPRIV mode, and the push of IP after the status registers are written. -/
theorem raise_next {c : Cause} (h : raise c s = .next t) :
    s.mode = .unpriv ∧ ∃ n v, s.ip = .int n ∧ immInRange s.cfg n = true ∧
      push (.int n) (recordCause c (settleTouched s.touched s)) = .ok () v ∧ t = { v with mode := .priv, ip := .int 1024 } := by
  unfold raise at h
  split at h <;> [cases h; skip]
  rename_i hm
  simp only at h
  split at h <;> cases h
  rename_i hp
  obtain ⟨n, h1, h2, h3⟩ := pushIp_ok.1 hp
  simp only [recordCause_ip, recordCause_cfg, settleTouched_ip, settleTouched_cfg] at h1 h2
  exact ⟨hm, n, _, h1, h2, h3, rfl⟩

/-- R151: an exception condition in PRIV mode is a fault. -/
theorem raise_priv {c : Cause} (h : s.mode = .priv) : raise c s = .fault (.privileged c) := by simp [raise, h]

/-- With nothing touched there is nothing to settle. -/
@[simp] theorem settleTouched_nil : settleTouched [] s = s := rfl

/-! ### Device interrupts -/

/-- What an interrupt entry does when it answers a next state. -/
theorem takeInterrupt_next {k : Device} (h : takeInterrupt k s = .next t) :
    ∃ n v, s.ip = .int n ∧ immInRange s.cfg n = true ∧ push (.int n) s = .ok () v ∧
      t = { v.clearPending k with mode := .priv, ip := .int (handler k.number), touched := [] } := by
  unfold takeInterrupt at h
  split at h <;> cases h
  rename_i hp
  obtain ⟨n, h1, h2, h3⟩ := pushIp_ok.1 hp
  exact ⟨n, _, h1, h2, h3, rfl⟩

/-- The interrupt chosen is pending, and choosing it draws at most one free value. -/
theorem chooseDevice_some {k : Device} (h : chooseDevice s = some (k, t)) :
    s.pending k = true ∧ t = { s with freeCount := t.freeCount } := by
  have hp : ∀ k ∈ s.pendingDevices, s.pending k = true := fun k hk => (List.mem_filter.1 hk).2
  unfold chooseDevice at h
  split at h
  · cases h
  · rename_i hd; cases h; exact ⟨hp _ (by rw [hd]; simp), rfl⟩
  · rename_i k0 ks _ hd
    cases h
    refine ⟨hp _ ?_, rfl⟩
    rw [hd, List.getD_eq_getElem _ _ (Nat.mod_lt _ (by simp))]
    exact List.getElem_mem _

/-- There is an interrupt to choose exactly when one is pending. -/
theorem chooseDevice_none : chooseDevice s = none ↔ ∀ k, s.pending k = false := by
  have hnil : s.pendingDevices = [] ↔ ∀ k, s.pending k = false := by
    simp only [State.pendingDevices, List.filter_eq_nil_iff]
    constructor
    · intro h k; cases k <;> simpa using h _ (by simp)
    · intro h k _; simp [h k]
  rw [← hnil]
  unfold chooseDevice
  split <;> simp_all

/-! ### Block transfers -/

/-- R52: what a page and the rest of memory hold after a block was brought in. -/
theorem peek_blockToPage (h : s.memWf) (p : Fin 128) (b : Fin 512) (a : Nat) :
    (blockToPage p b s).peek a =
      if 512 * p.val ≤ a ∧ a < 512 * p.val + 512 then s.peekDisk (512 * b.val + (a - 512 * p.val)) else s.peek a :=
  Cells.read_copy (size := 65536) (by omega) h a

/-- R52: what a block and the rest of the disk hold after a page was stored. -/
theorem peekDisk_pageToBlock (h : s.diskWf) (p : Fin 128) (b : Fin 512) (a : Nat) :
    (pageToBlock p b s).peekDisk a =
      if 512 * b.val ≤ a ∧ a < 512 * b.val + 512 then s.peek (512 * p.val + (a - 512 * b.val)) else s.peekDisk a :=
  Cells.read_copy (size := 262144) (by omega) h a

theorem blockToPage_memWf (h : s.memWf) (p : Fin 128) (b : Fin 512) : (blockToPage p b s).memWf :=
  Cells.copy_wf (by omega) h

theorem pageToBlock_diskWf (h : s.diskWf) (p : Fin 128) (b : Fin 512) : (pageToBlock p b s).diskWf :=
  Cells.copy_wf (by omega) h

/-! ### The fetch -/

/-- A fetch at a fetchable IP is two reads, the lower address first. -/
theorem fetch_eq {z : Int} (hf : fetchable s = true) (hz : s.ip = .int z) :
    fetch s = (memRead .fetch (.int z) { s with touched := [] }).bind fun w0 s =>
      (memRead .fetch (.int (z + 1)) s).bind fun w1 s => .ok (w0, w1) s := by
  unfold fetch fetch.withIpWords
  rw [if_pos hf]
  split
  · rename_i h; cases hz.symm.trans h; rfl
  · rename_i h; cases hz.symm.trans h

/-- What a fetch does when it answers two words: two reads at IP and the next address, from a state that notes no touched word. -/
theorem fetch_ok {w : Word × Word} (h : fetch s = .ok w t) :
    fetchable s = true ∧ ∃ z s1, s.ip = .int z ∧ memRead .fetch (.int z) { s with touched := [] } = .ok w.1 s1 ∧
      memRead .fetch (.int (z + 1)) s1 = .ok w.2 t := by
  have hf : fetchable s = true := by unfold fetch at h; split at h <;> [assumption; cases h]
  obtain ⟨z, hz⟩ : ∃ z, s.ip = .int z := by
    cases hi : s.ip with
    | int z => exact ⟨z, rfl⟩
    | str => simp [fetchable, hi] at hf
  rw [fetch_eq hf hz] at h
  obtain ⟨w0, s1, h1, h2⟩ := Res.bind_eq_ok.1 h
  obtain ⟨w1, s2, h3, h4⟩ := Res.bind_eq_ok.1 h2
  cases h4
  exact ⟨hf, z, s1, hz, h1, h3⟩

/-! ### The end of an instruction -/

@[simp] theorem retire_fault (m : Mode) (f : Fault) : retire m (.fault f) = .fault f := rfl
@[simp] theorem retire_refused (m : Mode) (r : Refusal) : retire m (.refused r) = .refused r := rfl
@[simp] theorem retire_priv (s : State) : retire .priv (.next s) = .next { s with touched := [] } := rfl
@[simp] theorem retire_unpriv (s : State) : retire .unpriv (.next s) = .next { countOne s with touched := [] } := rfl

end Sys2Proof.Machine
end

