-- ==== Sys2Proof/Laws/Frame.lean ====
section
/-! SUPPORT. Frames of the named updates, what a push or a pop answers, and what addressing does not see of a
state. -/

namespace Sys2Proof.Machine

variable {s t u : State} {rs : List Reg} {as : List Nat} {α β : Type}

/-! ### Frames -/

theorem SameDevices.refl (s : State) : SameDevices s s := ⟨rfl, rfl, rfl, rfl, rfl, rfl, rfl, rfl, rfl, rfl⟩

theorem SameController.refl (s : State) : SameController s s := ⟨rfl, rfl, fun _ => rfl⟩

theorem SameDevices.trans (h : SameDevices s t) (k : SameDevices t u) : SameDevices s u :=
  ⟨k.1.trans h.1, k.2.trans h.2, k.3.trans h.3, k.4.trans h.4, k.5.trans h.5, k.6.trans h.6, k.7.trans h.7, k.8.trans h.8,
    k.9.trans h.9, k.10.trans h.10⟩

theorem SameController.trans (h : SameController s t) (k : SameController t u) : SameController s u :=
  ⟨k.1.trans h.1, k.2.trans h.2, fun a => (k.3 a).trans (h.3 a)⟩

theorem Frame.refl (rs : List Reg) (as : List Nat) (s : State) : Frame rs as s s :=
  ⟨fun _ _ => rfl, fun _ _ => rfl, rfl, ⟨rfl, rfl, rfl, rfl, rfl, rfl, rfl, rfl, rfl, rfl⟩, ⟨rfl, rfl, fun _ => rfl⟩⟩

theorem Frame.trans (h : Frame rs as s t) (k : Frame rs as t u) : Frame rs as s u :=
  ⟨fun r hr => (k.1 r hr).trans (h.1 r hr), fun a ha => (k.2 a ha).trans (h.2 a ha), k.3.trans h.3, h.4.trans k.4, h.5.trans k.5⟩

/-- A frame may name more registers than it needs. -/
theorem Frame.mono {qs : List Reg} (h : Frame rs as s t) (hq : ∀ r ∈ rs, r ∈ qs) : Frame qs as s t :=
  ⟨fun r hr => h.1 r fun hm => hr (hq r hm), h.2, h.3, h.4, h.5⟩

/-- Writing a register and then IP. -/
theorem frame_setReg (r : Reg) (v w : Word) (hr : r ∈ rs) (hi : Reg.ip ∈ rs) : Frame rs as s { s.setReg r v with ip := w } := by
  refine ⟨fun q hq => ?_, fun a _ => State.setReg_peek s r v a, by simp, ?_, ?_⟩
  · rw [State.reg_withIp _ _ _ (by rintro rfl; exact hq hi), State.reg_setReg_ne _ _ _ _ (by rintro rfl; exact hq hr)]
  · constructor <;> simp
  · exact ⟨by simp, by simp, fun a => State.setReg_peekDisk s r v a⟩

/-- MOV's write of a register and then IP. -/
theorem frame_movToReg (r : Reg) (v w : Word) (hr : r ∈ rs) (hi : Reg.ip ∈ rs) : Frame rs as s { movToReg r v s with ip := w } := by
  refine ⟨fun q hq => ?_, fun a _ => movToReg_peek s r v a, by simp, ?_, ?_⟩
  · rw [State.reg_withIp _ _ _ (by rintro rfl; exact hq hi), reg_movToReg, if_neg (by rintro rfl; exact hq hr)]
  · constructor <;> simp
  · exact ⟨by simp, by simp, fun a => movToReg_peekDisk s r v a⟩

/-- Writing IP. -/
theorem frame_ip (w : Word) (hi : Reg.ip ∈ rs) : Frame rs as s { s with ip := w } :=
  ⟨fun _ hq => State.reg_withIp _ _ _ (by rintro rfl; exact hq hi), fun _ _ => rfl, rfl, ⟨rfl, rfl, rfl, rfl, rfl, rfl, rfl, rfl, rfl, rfl⟩, ⟨rfl, rfl, fun _ => rfl⟩⟩

/-- A result given to a register and the new IP change no other register. -/
theorem frame_setResult (r : Reg) (v w : Word) (hr : r ∈ rs) (hi : Reg.ip ∈ rs) : Frame rs as s { s.setResult r v with ip := w } := by
  rcases State.setResult_eq s r v with h | h <;> rw [h]
  · exact frame_ip w hi
  · exact frame_setReg r v w hr hi

/-- The register of a result takes it, if the machine lets it (R88, R150). -/
theorem reg_setResult_self (r : Reg) (v : Word) : (s.setResult r v).reg r = s.taken r v := by
  unfold State.setResult State.taken; split <;> simp

/-- Writing one word of memory, then SP and IP. -/
theorem frame_push {p : Nat} {v : Option Word} {x w : Word} (h : t.memWf) (hi : Reg.ip ∈ rs) (hs : Reg.sp ∈ rs) :
    Frame rs [p] t { t.poke p v with sp := x, ip := w } :=
  ⟨fun q hq => by
    have hn : q ≠ .ip ∧ q ≠ .sp := ⟨by rintro rfl; exact hq hi, by rintro rfl; exact hq hs⟩
    cases q <;> first | rfl | exact absurd rfl hn.1 | exact absurd rfl hn.2, fun a ha => by
    show (t.poke p v).peek a = _
    rw [peek_poke h, if_neg (by simpa using ha)], rfl, ⟨rfl, rfl, rfl, rfl, rfl, rfl, rfl, rfl, rfl, rfl⟩, ⟨rfl, rfl, fun _ => rfl⟩⟩

/-- Drawing a free value changes no register. -/
@[simp] theorem reg_freeCount (q : Reg) (n : Nat) : ({ s with freeCount := n } : State).reg q = s.reg q := by cases q <;> rfl

theorem readReg_state {r : Reg} {v : Word} (h : readReg r s = .ok v t) : t = { s with freeCount := t.freeCount } := by
  rcases readReg_ok h with ⟨rfl, -⟩ | ⟨-, -, -, rfl⟩ <;> rfl

theorem readRegImm_state {o : RegImm} {v : Word} (h : readRegImm o s = .ok v t) : t = { s with freeCount := t.freeCount } := by
  cases o with
  | reg r => exact readReg_state (show readReg r s = .ok v t from h)
  | imm z => cases h; rfl

/-- Reading a register changes nothing a frame speaks of. -/
theorem frame_readReg {r : Reg} {v : Word} (h : readReg r s = .ok v t) : Frame rs as s t := by
  rw [readReg_state h]
  exact ⟨fun _ _ => reg_freeCount _ _, fun _ _ => rfl, rfl, ⟨rfl, rfl, rfl, rfl, rfl, rfl, rfl, rfl, rfl, rfl⟩, ⟨rfl, rfl, fun _ => rfl⟩⟩

theorem movToReg_p0Valid (r : Reg) (v : Word) : (movToReg r v s).p0Valid = (s.p0Valid || decide (r = .port 0)) := by
  unfold movToReg; split <;> simp_all

/-! ### When the operations answer -/

/-- A push whose address is writable, outside the ROM and unlocked. -/
theorem push_of {z : Int} {p : Nat} {v : Word} (hz : s.sp = .int z) (hm : memAddr .write (.int (z + 1)) s = .ok p t) (hp : 512 ≤ p)
    (hu : Unlocked t p) : push v s = .ok () { t.poke p (some v) with sp := .int (z + 1) } := by
  have hw : physWrite p v t = .ok () (t.poke p (some v)) := physWrite_ok.2 ⟨hp, hu, rfl⟩
  simp only [push, hz, memWrite, hm, Res.bind_ok, hw]

/-- A pop whose address is readable and unlocked. -/
theorem pop_of {z : Int} {p : Nat} {v : Word} (hz : s.sp = .int z) (hm : memAddr .read (.int z) s = .ok p t)
    (hl : readLocked t p = false) (hv : t.peek p = some v) :
    ∃ w n, pop s = .ok v { t with sp := w, freeCount := n } ∧ IsExact t.cfg (z - 1) w := by
  obtain ⟨w, n, h, hw⟩ := dropTop_answers z t
  exact ⟨w, n, by simp [pop, hz, memRead, hm, physRead_ok.2 ⟨rfl, hl, hv⟩, h], hw⟩

/-- A privileged-only instruction in PRIV mode. -/
theorem privilegedOnly_priv (h : s.mode = .priv) (x : Res Unit) : privilegedOnly s x = x := by simp [privilegedOnly, h]

/-! ### What addressing reads -/

/-- The same result with its state changed by `f`. -/
def Res.mapState (f : State → State) : Res α → Res α
  | .ok a s => .ok a (f s)
  | .exc c s => .exc c (f s)
  | .fault g => .fault g
  | .refuse r => .refuse r

theorem Res.mapState_bind {f : State → State} {x : Res α} {g : α → State → Res β} (h : ∀ a s, g a (f s) = (g a s).mapState f) :
    (x.mapState f).bind g = (x.bind g).mapState f := by
  cases x
  · exact h _ _
  all_goals rfl

/-- `f` changes nothing that addressing reads, and does not look at what addressing writes. -/
structure Unseen (f : State → State) : Prop where
  cfg : ∀ s, (f s).cfg = s.cfg
  mode : ∀ s, (f s).mode = s.mode
  mem : ∀ s, (f s).mem = s.mem
  diskOp : ∀ s, (f s).diskOp = s.diskOp
  ptbr : ∀ s, (f s).ptbr = s.ptbr
  ptlr : ∀ s, (f s).ptlr = s.ptlr
  touched : ∀ s, (f s).touched = s.touched
  poke : ∀ s a v, (f s).poke a v = f (s.poke a v)
  note : ∀ s l, f { s with touched := l } = { f s with touched := l }

theorem unseen_freeCount (n : Nat) : Unseen fun s => { s with freeCount := n } := by
  constructor <;> intros <;> rfl

theorem unseen_record (ec eip epn ema : Word) (n : Nat) :
    Unseen fun s => { s with ec := ec, eip := eip, epn := epn, ema := ema, freeCount := n } := by
  constructor <;> intros <;> rfl

variable {f : State → State}

theorem Unseen.peek (h : Unseen f) (s : State) : (f s).peek = s.peek := by unfold State.peek; rw [h.cfg, h.mem]

theorem Unseen.readLocked (h : Unseen f) (s : State) : readLocked (f s) = readLocked s := by unfold Machine.readLocked; rw [h.diskOp]

theorem Unseen.writeLocked (h : Unseen f) (s : State) : writeLocked (f s) = writeLocked s := by unfold Machine.writeLocked; rw [h.diskOp]

theorem Unseen.physRead (h : Unseen f) (a : Nat) (s : State) : physRead a (f s) = (physRead a s).mapState f := by
  unfold Machine.physRead
  rw [h.readLocked, h.peek]
  split <;> [rfl; skip]
  cases s.peek a <;> rfl

theorem Unseen.physWrite (h : Unseen f) (a : Nat) (v : Word) (s : State) : physWrite a v (f s) = (physWrite a v s).mapState f := by
  unfold Machine.physWrite
  rw [h.writeLocked, h.poke]
  split_ifs <;> rfl

theorem Unseen.updateAux (h : Unseen f) (a : Nat) (old : Option Word) (new : Word) (s : State) :
    updateAux a old new (f s) = (updateAux a old new s).mapState f := by
  rw [Machine.updateAux, h.physWrite, Machine.updateAux]
  refine Res.mapState_bind fun _ s => ?_
  rw [h.touched]
  split
  · rfl
  · exact congrArg (Res.ok ()) (h.note s _).symm

theorem Unseen.walkEntry (h : Unseen f) (k : Access) (L : Word) (lp off e : Nat) (s : State) :
    walkEntry k L lp off e (f s) = (walkEntry k L lp off e s).mapState f := by
  rw [Machine.walkEntry, h.physRead, Machine.walkEntry]
  refine Res.mapState_bind fun w s => ?_
  split <;> [rfl; skip]
  split <;> [rfl; skip]
  rw [h.physRead]
  refine Res.mapState_bind fun w s => ?_
  split <;> [rfl; skip]
  split <;> [rfl; skip]
  rw [h.updateAux]
  exact Res.mapState_bind fun _ s => rfl

theorem Unseen.writeTable (h : Unseen f) : ∀ (ws : List (Fin 65536 × Word)) (s : State),
    writeTable ws (f s) = (writeTable ws s).mapState f
  | [], s => rfl
  | (a, v) :: ws, s => by
    rw [Machine.writeTable, h.peek, h.cfg, h.updateAux, Machine.writeTable]
    exact Res.mapState_bind fun _ s => h.writeTable ws s

theorem Unseen.walk (h : Unseen f) : ∀ (w : Walk) (s : State), w.run (f s) = (w.run s).mapState f
  | .illegalMem _, _ => rfl
  | .pageFault _, _ => rfl
  | .addr p ws, s => by
    rw [Walk.run, h.writeTable, Walk.run]
    exact Res.mapState_bind fun _ s => rfl
  | .read a next, s => by
    rw [Walk.run, h.physRead, Walk.run]
    exact Res.mapState_bind fun v s => h.walk (next v) s

theorem Unseen.translate (h : Unseen f) (k : Access) (L : Word) (s : State) : translate k L (f s) = (translate k L s).mapState f := by
  unfold Machine.translate
  rw [h.cfg]
  split <;> [rfl; skip]
  split <;> [split; rfl]
  · unfold referenceTranslate logicalPage entryAddr
    rw [h.ptlr, h.ptbr]
    split <;> [rfl; skip]
    split <;> [rfl; exact h.walkEntry ..]
  · unfold openTranslate
    rw [h.ptbr, h.ptlr]
    exact h.walk ..

/-- Addressing does the same in a state changed by `f`, and leaves that change in place. -/
theorem Unseen.memAddr (h : Unseen f) (k : Access) (L : Word) (s : State) : memAddr k L (f s) = (memAddr k L s).mapState f := by
  unfold Machine.memAddr
  rw [h.mode]
  split
  · split <;> rfl
  · exact h.translate ..

/-- So does a push, if `f` leaves SP alone. -/
theorem Unseen.push (h : Unseen f) (hs : ∀ s w, (f s).sp = s.sp ∧ f { s with sp := w } = { f s with sp := w }) (v : Word) (s : State) :
    push v (f s) = (push v s).mapState f := by
  unfold Machine.push memWrite
  rw [(hs s s.sp).1]
  split <;> [rfl; skip]
  rw [h.memAddr, Res.mapState_bind fun a s => h.physWrite a v s]
  exact Res.mapState_bind fun _ s => congrArg (Res.ok ()) (hs s _).2.symm

/-- The push of a return address is that of the exact word, or of a free one with the counter moved. -/
theorem pushReturn_eq (ip : Int) (s : State) :
    ∃ w n, IsExact s.cfg (ip + 2) w ∧ pushReturn ip s = (push w s).mapState (fun s => { s with freeCount := n }) ∧
      (immInRange s.cfg (ip + 2) = true → n = s.freeCount) := by
  have hp : ∀ (n : Nat) (w : Word), push w { s with freeCount := n } = (push w s).mapState fun s => { s with freeCount := n } :=
    fun n w => (unseen_freeCount n).push (fun _ _ => ⟨rfl, rfl⟩) w s
  unfold pushReturn exactWord drawWord
  split <;> rename_i hf
  · exact ⟨_, s.freeCount, ⟨fun _ => rfl, fun hn => by simp [hf] at hn⟩, hp _ _, fun _ => rfl⟩
  · exact ⟨_, _, ⟨fun hy => absurd hy hf, fun _ => ⟨_, rfl⟩⟩, hp _ _, fun hy => absurd hy hf⟩

/-- The push of a return address whose stack slot is writable, outside the ROM and unlocked. -/
theorem pushReturn_of {ip z : Int} {p : Nat} (hz : s.sp = .int z) (hm : memAddr .write (.int (z + 1)) s = .ok p t) (hp : 512 ≤ p)
    (hu : Unlocked t p) :
    ∃ w n, IsExact s.cfg (ip + 2) w ∧ pushReturn ip s = .ok () { t.poke p (some w) with sp := .int (z + 1), freeCount := n } := by
  obtain ⟨w, n, hw, h, -⟩ := pushReturn_eq ip s
  exact ⟨w, n, hw, by rw [h, push_of hz hm hp hu]; rfl⟩

end Sys2Proof.Machine
end

