-- ==== Sys2Proof/Laws/Kept.lean ====
section
/-! SUPPORT. What every shared operation keeps: the canonical forms, the ROM, a sound transfer, a timer that has not expired, and the
configuration.  An instruction is a sequence of such operations. -/

namespace Sys2Proof.Machine

variable {α β : Type} {s t : State} {c : Config}

/-- `P` holds of the state that a part of an instruction answers or raises an exception from. -/
def Res.All (P : State → Prop) (x : Res α) : Prop :=
  match x with
  | .ok _ s => P s
  | .exc _ s => P s
  | .fault _ => True
  | .refuse _ => True

/-- A sequence has what its parts have. -/
theorem Res.All.bind {P : State → Prop} {x : Res α} {f : α → State → Res β} (h : x.All P) (k : ∀ a s, P s → (f a s).All P) :
    (x.bind f).All P := by
  cases x with
  | ok a s => exact k a s h
  | exc c s => exact h
  | fault g => trivial
  | refuse r => trivial

/-- What holds of the machine inside and between the instructions it executes under the configuration `c`. -/
structure Kept (c : Config) (s : State) : Prop where
  cfg : s.cfg = c
  memWf : s.memWf
  diskWf : s.diskWf
  rom : s.RomIntact
  transfer : s.TransferSound
  timer : s.TimerSound
  noted : ∀ x ∈ s.touched, 512 ≤ x.1 ∧ x.1 < 65536

/-- The invariant is `Kept` with no touched word noted and an admissible configuration. -/
theorem State.Inv.kept (h : s.Inv) : Kept s.cfg s :=
  ⟨rfl, h.memWf, h.diskWf, h.rom, h.transfer, h.timer, by rw [h.untouched]; exact fun _ hx => nomatch hx⟩

/-- Nothing but these fields matters. -/
theorem Kept.of_same (h : Kept c s) (h1 : t.cfg = s.cfg) (h2 : t.mem = s.mem) (h3 : t.disk = s.disk) (h4 : t.diskOp = s.diskOp)
    (h5 : t.timerCount = s.timerCount) (h6 : t.touched = s.touched) : Kept c t where
  cfg := h1.trans h.cfg
  memWf := by have := h.memWf; unfold State.memWf at *; rwa [h1, h2]
  diskWf := by have := h.diskWf; unfold State.diskWf at *; rwa [h3]
  rom := by have := h.rom; unfold State.RomIntact State.peek at *; rwa [h1, h2]
  transfer := by have := h.transfer; unfold State.TransferSound at *; rwa [h1, h4]
  timer := by have := h.timer; unfold State.TimerSound at *; rwa [h1, h5]
  noted := by rw [h6]; exact h.noted

theorem Kept.of_auxChange (h : Kept c s) (k : AuxChange s t) : Kept c t where
  cfg := by rw [k.same]; exact h.cfg
  memWf := k.wf h.memWf
  diskWf := by rw [k.same]; exact h.diskWf
  rom := fun a ha => by rw [k.rom h.memWf a ha, h.rom a ha, k.same]
  transfer := by rw [k.same]; exact h.transfer
  timer := by rw [k.same]; exact h.timer
  noted := fun x hx => (k.noted x hx).elim (h.noted x) id

theorem Kept.poke (h : Kept c s) {a : Nat} {v : Option Word} (h1 : 512 ≤ a) (h2 : a < 65536) : Kept c (s.poke a v) where
  cfg := h.cfg
  memWf := poke_memWf h.memWf h2 v
  diskWf := h.diskWf
  rom := fun b hb => by rw [peek_poke h.memWf, if_neg (by omega)]; exact h.rom b hb
  transfer := h.transfer
  timer := h.timer
  noted := h.noted

theorem Kept.setReg (h : Kept c s) (r : Reg) (v : Word) : Kept c (s.setReg r v) := h.of_same (by simp) (by simp) (by simp) (by simp) (by simp) (by simp)

theorem Kept.movToReg (h : Kept c s) (r : Reg) (v : Word) : Kept c (movToReg r v s) :=
  h.of_same (by simp) (by simp) (by simp) (by simp) (by simp) (by simp)

/-! ### Addressing and the stack -/

theorem Kept.memAddr (h : Kept c s) (k : Access) (L : Word) : (memAddr k L s).All (Kept c) := by
  cases hx : Machine.memAddr k L s with
  | ok p t => exact h.of_auxChange (memAddr_ok hx).2
  | exc e t => rw [(memAddr_exc hx).1]; exact h
  | fault f => trivial
  | refuse r => trivial

theorem Kept.translate (h : Kept c s) (k : Access) (L : Word) : (translate k L s).All (Kept c) := by
  cases hx : Machine.translate k L s with
  | ok p t => exact h.of_auxChange (translate_ok hx).2.1
  | exc e t => rw [(translate_exc hx).1]; exact h
  | fault f => trivial
  | refuse r => trivial

theorem Kept.physRead (h : Kept c s) (a : Nat) : (physRead a s).All (Kept c) := by
  cases hx : Machine.physRead a s with
  | ok w t => rw [(physRead_ok.1 hx).1]; exact h
  | exc e t => exact absurd hx physRead_ne_exc
  | fault f => trivial
  | refuse r => trivial

theorem Kept.memRead (h : Kept c s) (k : Access) (L : Word) : (memRead k L s).All (Kept c) :=
  (h.memAddr k L).bind fun a _ hs => hs.physRead a

theorem Kept.memWrite (h : Kept c s) (L v : Word) : (memWrite L v s).All (Kept c) := by
  cases hx : Machine.memWrite L v s with
  | ok u t => exact h.of_auxChange (memWrite_change hx)
  | exc e t =>
    rcases Res.bind_eq_exc.1 hx with hx | ⟨_, _, -, hx⟩
    · rw [(memAddr_exc hx).1]; exact h
    · exact absurd hx physWrite_ne_exc
  | fault f => trivial
  | refuse r => trivial

theorem Kept.push (h : Kept c s) (v : Word) : (push v s).All (Kept c) := by
  unfold Machine.push
  split
  · exact h
  · exact (h.memWrite _ v).bind fun _ s hs => hs.of_same rfl rfl rfl rfl rfl rfl

theorem Kept.exactWord (h : Kept c s) (z : Int) : (exactWord z s).All (Kept c) := by
  unfold Machine.exactWord drawWord; split
  · exact h
  · exact h.of_same rfl rfl rfl rfl rfl rfl

theorem Kept.dropTop (h : Kept c s) (z : Int) : (dropTop z s).All (Kept c) :=
  (h.exactWord _).bind fun _ _ hs => hs.of_same rfl rfl rfl rfl rfl rfl

theorem Kept.pop (h : Kept c s) : (pop s).All (Kept c) := by
  unfold Machine.pop
  split
  · exact h
  · exact (h.memRead _ _).bind fun _ _ hs => (hs.dropTop _).bind fun _ _ hs => hs

theorem Kept.pushReturn (h : Kept c s) (ip : Int) : (pushReturn ip s).All (Kept c) :=
  (h.exactWord _).bind fun w _ hs => hs.push w

theorem Kept.pushIp (h : Kept c s) : (pushIp s).All (Kept c) := by
  unfold Machine.pushIp
  split <;> [split; skip]
  · exact h.push _
  · trivial
  · trivial

/-! ### Operands and IP -/

theorem Kept.checkRegs (h : Kept c s) (rs : List Reg) : (checkRegs rs s).All (Kept c) := by
  unfold Machine.checkRegs; split_ifs
  · trivial
  · exact h
  · exact h

theorem Kept.readReg (h : Kept c s) (r : Reg) : (readReg r s).All (Kept c) := by
  unfold Machine.readReg drawWord; split_ifs
  · exact h.of_same rfl rfl rfl rfl rfl rfl
  · exact h

theorem Kept.readRegImm (h : Kept c s) (o : RegImm) : (readRegImm o s).All (Kept c) := by
  cases o
  · exact h.readReg _
  · exact h

theorem Kept.withIp {f : Int → Res Unit} (k : ∀ n, (f n).All (Kept c)) : (withIp s f).All (Kept c) := by
  unfold Machine.withIp; split
  · exact k _
  · trivial

theorem Kept.advance (h : Kept c s) : (advance s).All (Kept c) := Kept.withIp fun _ => h.of_same rfl rfl rfl rfl rfl rfl

theorem Kept.privilegedOnly (h : Kept c s) {x : Res Unit} (k : x.All (Kept c)) : (privilegedOnly s x).All (Kept c) := by
  unfold Machine.privilegedOnly; split
  · exact k
  · exact h

/-! ### The disk -/

theorem Kept.diskComplete (h : Kept c s) {kind : Transfer} {p : Fin 128} (b : Fin 512) (hp : kind = .load → p ≠ 0) :
    Kept c (diskComplete kind p b s) := by
  refine ⟨by simp [h.cfg], ?_, ?_, ?_, fun k q d n hd => by simp at hd, fun n hn => by simpa using h.timer n (by simpa using hn), by simpa using h.noted⟩
  · cases kind
    · exact blockToPage_memWf h.memWf p b
    · exact h.memWf
  · cases kind
    · exact h.diskWf
    · exact pageToBlock_diskWf h.diskWf p b
  · cases kind
    · intro a ha
      refine (peek_blockToPage h.memWf p b a).trans ?_
      have : p.val ≠ 0 := fun h0 => hp rfl (Fin.ext h0)
      rw [if_neg (by omega)]
      exact h.rom a ha
    · exact h.rom

theorem Kept.blockToPage (h : Kept c s) {p : Fin 128} (b : Fin 512) (hp : p ≠ 0) : Kept c (blockToPage p b s) :=
  have k := h.diskComplete (kind := .load) b fun _ => hp
  ⟨h.cfg, k.memWf, h.diskWf, k.rom, h.transfer, h.timer, h.noted⟩

theorem Kept.startTransfer (h : Kept c s) {kind : Transfer} {p : Fin 128} (b : Fin 512) (hp : kind = .load → p ≠ 0) :
    Kept c (startTransfer kind p b s) := by
  unfold Machine.startTransfer; split_ifs with hd
  · exact h.diskComplete b hp
  · refine ⟨h.cfg, h.memWf, h.diskWf, h.rom, fun k q e n he => ?_, h.timer, h.noted⟩
    cases he
    exact ⟨Nat.pos_of_ne_zero hd, hp⟩

/-! ### The trap entries and the counting -/

theorem Kept.settleTouched : ∀ {l : List (Nat × Option Word)} {s : State}, Kept c s → (∀ x ∈ l, 512 ≤ x.1 ∧ x.1 < 65536) → Kept c (settleTouched l s)
  | [], _, h, _ => h
  | (a, old) :: l, s, h, hl => by
    have ha := hl (a, old) (by simp)
    rw [Machine.settleTouched]
    refine Kept.settleTouched ?_ fun x hx => hl x (by simp [hx])
    split_ifs
    · exact (h.poke ha.1 ha.2).of_same rfl rfl rfl rfl rfl rfl
    · exact h.of_same rfl rfl rfl rfl rfl rfl

theorem Kept.recordCause (h : Kept c s) (e : Cause) : Kept c (recordCause e s) := by
  exact h.of_same rfl rfl rfl rfl rfl rfl

/-- Taking an exception keeps it. -/
theorem Kept.raise (h : Kept c s) {e : Cause} (hr : raise e s = .next t) : Kept c t := by
  obtain ⟨-, n, v, -, -, hp, rfl⟩ := raise_next hr
  have k := ((h.settleTouched h.noted).recordCause e).push (.int n)
  rw [hp] at k
  exact k.of_same rfl rfl rfl rfl rfl rfl

/-- An instruction whose parts keep it keeps it. -/
theorem Kept.finish {x : Res Unit} (h : x.All (Kept c)) (hx : finish x = .next t) : Kept c t := by
  rcases finish_next.1 hx with ⟨_, rfl⟩ | ⟨e, u, rfl, hr⟩
  · exact h
  · exact Kept.raise h hr

theorem Kept.takeInterrupt (h : Kept c s) {k : Device} (ht : takeInterrupt k s = .next t) : Kept c t := by
  obtain ⟨n, v, -, -, hp, rfl⟩ := takeInterrupt_next ht
  have q := h.push (.int n)
  rw [hp] at q
  have q' : Kept c (v.clearPending k) := q.of_same (by simp) (by simp) (by simp) (by simp) (by simp) (by simp)
  exact ⟨q'.cfg, q'.memWf, q'.diskWf, q'.rom, q'.transfer, q'.timer, fun _ hx => nomatch hx⟩

/-- Counting one instruction keeps it. -/
theorem Kept.countOne (h : Kept c s) : Kept c (countOne s) := by
  have ht : Kept c (timerCountOne s) := by
    unfold timerCountOne; split
    · exact h
    · rename_i n hn
      have := h.timer n hn
      split_ifs with he
      · refine ⟨h.cfg, h.memWf, h.diskWf, h.rom, h.transfer, fun m hm => ?_, h.noted⟩
        rw [hn] at hm; cases hm
        show 0 < n
        omega
      · refine ⟨h.cfg, h.memWf, h.diskWf, h.rom, h.transfer, fun m hm => ?_, h.noted⟩
        rw [hn] at hm; cases hm
        show s.timerCount + 1 < n
        omega
  unfold Machine.countOne diskCountOne; split
  · exact ht
  · rename_i kind p b n hd
    split_ifs with he
    · exact ht.diskComplete b (ht.transfer _ _ _ _ hd).2
    · refine ⟨ht.cfg, ht.memWf, ht.diskWf, ht.rom, fun k q e m hm => ?_, ht.timer, ht.noted⟩
      cases hm
      exact ⟨by show n + 1 < (timerCountOne s).cfg.dtime; omega, (ht.transfer _ _ _ _ hd).2⟩

theorem Kept.fetch (h : Kept c s) : (fetch s).All (Kept c) := by
  unfold Machine.fetch; split_ifs
  · unfold fetch.withIpWords; split
    · have k : Kept c { s with touched := [] } :=
        ⟨h.cfg, h.memWf, h.diskWf, h.rom, h.transfer, h.timer, fun _ hx => nomatch hx⟩
      exact (k.memRead _ _).bind fun _ s hs => (hs.memRead _ _).bind fun _ s hs => hs
    · trivial
  · trivial

theorem Kept.userGapStep (h : Kept c s) : Kept c (userGapStep s) := by
  unfold Machine.userGapStep; split
  · exact h
  · exact h.of_same rfl rfl rfl rfl rfl rfl
  · unfold userEnters; split_ifs <;> exact h.of_same rfl rfl rfl rfl rfl rfl

end Sys2Proof.Machine
end

