-- ==== Sys2Proof/Laws/Extension.lean ====
section
/-! SUPPORT. What the parts of an instruction of an open ISA_EXT do: its reads and its translations, its stores, its registers, its end. -/

namespace Sys2Proof.Machine

variable {s t : State} {rs : List Reg} {c : Config}

variable {i : Instr}

theorem mayWrite_ne_ip {r : Reg} (h : mayWrite c i r = true) : r ≠ .ip := by
  rintro rfl; simp [mayWrite] at h

/-- Setting registers has every property that setting one register other than IP has. -/
theorem setAll_keeps {P : State → Prop} (h : ∀ s r v, mayWrite s.cfg i r = true → P s → P (s.setReg r (fitWord s.cfg v))) :
    ∀ (ws : List (Reg × Word)) (s : State), P s → P (setAll i ws s)
  | [], _, hs => hs
  | (r, v) :: ws, s, hs => by
    rw [setAll]
    split_ifs with hr
    · exact setAll_keeps h ws _ (h s r v hr hs)
    · exact setAll_keeps h ws s hs

/-- Writing one register changes nothing else that a frame speaks of. -/
theorem frame_setReg_only {as : List Nat} (r : Reg) (v : Word) (hr : r ∈ rs) : Frame rs as s (s.setReg r v) :=
  ⟨fun q hq => State.reg_setReg_ne _ _ _ _ (by rintro rfl; exact hq hr), fun a _ => State.setReg_peek s r v a, by simp,
    by constructor <;> simp, ⟨by simp, by simp, fun a => State.setReg_peekDisk s r v a⟩⟩

/-- Registers that are not named keep what they hold, and nothing but registers changes. -/
theorem setAll_frame {as : List Nat} : ∀ {ws : List (Reg × Word)} {s : State}, (∀ x ∈ ws, x.1 ∈ rs) → Frame rs as s (setAll i ws s)
  | [], s, _ => .refl _ _ s
  | (r, v) :: ws, s, h => by
    rw [setAll]
    have h2 : ∀ x ∈ ws, x.1 ∈ rs := fun x hx => h x (List.mem_cons_of_mem _ hx)
    split_ifs
    · exact (frame_setReg_only r _ (h _ (List.mem_cons_self ..))).trans (setAll_frame h2)
    · exact setAll_frame h2

@[simp] theorem setAll_p0Valid (ws : List (Reg × Word)) : (setAll i ws s).p0Valid = s.p0Valid :=
  setAll_keeps (P := fun t => t.p0Valid = s.p0Valid) (fun _ _ _ _ h => by simpa using h) ws s rfl

@[simp] theorem setAll_cfg (ws : List (Reg × Word)) : (setAll i ws s).cfg = s.cfg :=
  setAll_keeps (P := fun t => t.cfg = s.cfg) (fun _ _ _ _ h => by simpa using h) ws s rfl

/-- A register that the instruction may not write keeps what it holds. -/
theorem setAll_reg {q : Reg} (hq : mayWrite s.cfg i q = false) (ws : List (Reg × Word)) : (setAll i ws s).reg q = s.reg q :=
  (setAll_keeps (P := fun t => t.cfg = s.cfg ∧ t.reg q = s.reg q)
    (fun t r v hr h => ⟨by simpa using h.1, by
      rw [State.reg_setReg_ne _ _ _ _ (by rintro rfl; rw [h.1, hq] at hr; cases hr)]; exact h.2⟩) ws s ⟨rfl, rfl⟩).2

/-- IP is none of the registers an effect sets. -/
@[simp] theorem setAll_ip (ws : List (Reg × Word)) : (setAll i ws s).ip = s.ip := setAll_reg (q := .ip) (by simp [mayWrite]) ws

/-- What an instruction reads changes nothing but memory above the ROM and the note of touched words. -/
theorem Behaviour.run_ok {e : Effect} {b : Behaviour} {s : State} (h : b.run s = .ok e t) : AuxChange s t := by
  induction b generalizing s with
  | act _ => cases h; exact .refl _
  | read L next ih =>
    obtain ⟨v, s1, h1, h2⟩ := Res.bind_eq_ok.1 h
    exact (memRead_change h1).trans (ih v h2)

/-- So do its translations; what they answer are addresses of memory, in order, with the words to store. -/
theorem locateAll_ok : ∀ {ws : List (Word × Word)} {s : State} {as : List (Nat × Word)}, locateAll ws s = .ok as t →
    AuxChange s t ∧ (∀ x ∈ as, x.1 < 65536) ∧ as.map Prod.snd = ws.map Prod.snd
  | [], _, _, h => by cases h; exact ⟨.refl _, nofun, rfl⟩
  | (L, v) :: ws, s, as, h => by
    obtain ⟨a, s1, h1, h2⟩ := Res.bind_eq_ok.1 h
    obtain ⟨bs, s2, h3, h4⟩ := Res.bind_eq_ok.1 h2
    cases h4
    obtain ⟨k1, k2, k3⟩ := locateAll_ok h3
    exact ⟨(memAddr_ok h1).2.trans k1, List.forall_mem_cons.2 ⟨(memAddr_ok h1).1, k2⟩, by simp [k3]⟩

/-- Its stores change nothing but memory above the ROM. -/
theorem storeAll_ok {u : Unit} : ∀ {as : List (Nat × Word)} {s : State}, (∀ x ∈ as, x.1 < 65536) → storeAll as s = .ok u t → AuxChange s t
  | [], _, _, h => by cases h; exact .refl _
  | (a, v) :: as, s, ha, h => by
    obtain ⟨_, s1, h1, h2⟩ := Res.bind_eq_ok.1 h
    obtain ⟨h3, h4⟩ := List.forall_mem_cons.1 ha
    exact (AuxChange.of_physWrite h1 h3).trans (storeAll_ok h4 h2)

/-- A store raises no exception: every address was translated before. -/
theorem storeAll_ne_exc {e : Cause} : ∀ {as : List (Nat × Word)} {s : State}, storeAll as s ≠ .exc e t
  | [], _, h => by cases h
  | (a, v) :: as, s, h => by
    rcases Res.bind_eq_exc.1 h with h | ⟨_, _, -, h⟩
    · exact physWrite_ne_exc h
    · exact storeAll_ne_exc h

/-! ### What they keep -/

theorem Kept.behaviour (b : Behaviour) (h : Kept c s) : (b.run s).All (Kept c) := by
  induction b generalizing s with
  | act _ => exact h
  | read L next ih => exact (h.memRead _ _).bind fun v _ hs => ih v hs

theorem Kept.locateAll : ∀ {ws : List (Word × Word)} {s : State}, Kept c s → (locateAll ws s).All (Kept c)
  | [], _, h => h
  | _ :: _, _, h => (h.memAddr _ _).bind fun _ _ hs => hs.locateAll.bind fun _ _ hs => hs

theorem Kept.storeAll (h : Kept c s) {as : List (Nat × Word)} (ha : ∀ x ∈ as, x.1 < 65536) : (storeAll as s).All (Kept c) := by
  cases hx : Machine.storeAll as s with
  | ok u t => exact h.of_auxChange (storeAll_ok ha hx)
  | exc e t => exact absurd hx storeAll_ne_exc
  | fault f => trivial
  | refuse r => trivial

theorem Kept.setAll (h : Kept c s) (ws : List (Reg × Word)) : Kept c (setAll i ws s) :=
  setAll_keeps (fun _ _ _ _ h => h.setReg _ _) ws s h

theorem Kept.returnFromTrap (h : Kept c s) : (returnFromTrap s).All (Kept c) := by
  unfold Machine.returnFromTrap; split <;> [trivial; skip]
  have k := h.translate .read (.int (by assumption))
  split <;> [skip; trivial; trivial; trivial]
  rename_i he
  rw [he] at k
  exact (Kept.physRead k _).bind fun _ _ h => (h.dropTop _).bind fun _ _ h => h.of_same rfl rfl rfl rfl rfl rfl

theorem Kept.abandonStore (h : Kept c s) : Kept c (abandonStore s) := by
  unfold Machine.abandonStore; split
  · exact ⟨h.cfg, h.memWf, Cells.copy_wf (by omega) h.diskWf, h.rom, h.transfer, h.timer, h.noted⟩
  · exact h

theorem Kept.conclude (h : Kept c s) (e : Effect) : (e.conclude s).All (Kept c) := by
  unfold Effect.conclude; split
  · exact h.advance
  · exact h.of_same rfl rfl rfl rfl rfl rfl
  · exact h.returnFromTrap
  · exact h.of_same rfl rfl rfl rfl rfl rfl
  · exact h.abandonStore.of_same rfl rfl rfl rfl rfl rfl
  · exact h
  · trivial

theorem Kept.applyEffect (h : Kept c s) (e : Effect) : (e.apply i s).All (Kept c) := by
  unfold Effect.apply
  split
  · exact h
  cases hl : Machine.locateAll e.stores s with
  | ok as s2 =>
    have h2 := h.locateAll (ws := e.stores)
    rw [hl] at h2
    simp only [Res.bind_ok]
    split
    · exact h2
    · trivial
    all_goals
      exact (Kept.storeAll h2 (locateAll_ok hl).2.1).bind fun _ _ h => ((h.setAll _).conclude e).bind fun _ _ h =>
        h.of_same rfl rfl rfl rfl rfl rfl
  | exc d s2 =>
    have h2 := h.locateAll (ws := e.stores)
    rw [hl] at h2
    exact h2
  | fault f => trivial
  | refuse r => trivial

/-- An instruction of an open ISA_EXT keeps what every instruction keeps. -/
theorem Kept.extension (h : Kept c s) (i : Instr) : (extension i s).All (Kept c) := by
  unfold Machine.extension
  split
  · exact h
  · exact (h.checkRegs _).bind fun _ s h =>
      have k : Kept c { s with freeCount := s.freeCount + 1 } := h.of_same rfl rfl rfl rfl rfl rfl
      (Kept.behaviour _ k).bind fun e _ h => h.applyEffect e

end Sys2Proof.Machine
end

