-- ==== Sys2Proof/Laws/PerInstr.lean ====
section
/-! SUPPORT. A law of every instruction as syntax: its encoding is its text over two string words, each within WORD_CHARS (R60, R62). -/

namespace Sys2Proof.Laws.TextFits

/-- A well-formed instruction's encoding is two `Str` words of at most WORD_CHARS characters that spell its text. -/
def Statement (i : Instr) : Prop :=
  ∀ cfg : Config, WellFormed cfg i = true → ∃ t0 t1 : List Char,
    encode cfg i = (.str t0, .str t1) ∧ t0 ++ t1 = instrText i ∧ t0.length ≤ cfg.wordChars ∧ t1.length ≤ cfg.wordChars

/-- The law holds whatever the instruction, since well-formedness bounds the text's length. -/
theorem of_length (i : Instr) : Statement i := by
  intro cfg h
  have hl : (instrText i).length ≤ 2 * cfg.wordChars := by
    simp only [WellFormed, Bool.and_eq_true, decide_eq_true_eq] at h
    exact h.2
  refine ⟨_, _, rfl, List.take_append_drop _ _, List.length_take_le _ _, ?_⟩
  rw [List.length_drop]
  omega

theorem movRegReg (dst src : Reg) : Statement (.movRegReg dst src) := of_length _
theorem movRegImm (dst : Reg) (n : Int) : Statement (.movRegImm dst n) := of_length _
theorem movRegIndReg (dst a : Reg) : Statement (.movRegIndReg dst a) := of_length _
theorem movRegIndImm (dst : Reg) (n : Int) : Statement (.movRegIndImm dst n) := of_length _
theorem movIndRegReg (a src : Reg) : Statement (.movIndRegReg a src) := of_length _
theorem movIndImmReg (n : Int) (src : Reg) : Statement (.movIndImmReg n src) := of_length _
theorem jmp (target : Int) : Statement (.jmp target) := of_length _
theorem intr (n : Int) : Statement (.intr n) := of_length _
theorem loadi (page block : RegImm) : Statement (.loadi page block) := of_length _
theorem load (page block : RegImm) : Statement (.load page block) := of_length _
theorem store (page block : RegImm) : Statement (.store page block) := of_length _
theorem consoleOut : Statement (.consoleOut) := of_length _
theorem consoleIn : Statement (.consoleIn) := of_length _
theorem consoleIni : Statement (.consoleIni) := of_length _
theorem movRegStr (dst : Reg) (chars : List Char) : Statement (.movRegStr dst chars) := of_length _
theorem addRegReg (ri rj : Reg) : Statement (.addRegReg ri rj) := of_length _
theorem addRegImm (ri : Reg) (n : Int) : Statement (.addRegImm ri n) := of_length _
theorem subRegReg (ri rj : Reg) : Statement (.subRegReg ri rj) := of_length _
theorem subRegImm (ri : Reg) (n : Int) : Statement (.subRegImm ri n) := of_length _
theorem mulRegReg (ri rj : Reg) : Statement (.mulRegReg ri rj) := of_length _
theorem mulRegImm (ri : Reg) (n : Int) : Statement (.mulRegImm ri n) := of_length _
theorem divRegReg (ri rj : Reg) : Statement (.divRegReg ri rj) := of_length _
theorem divRegImm (ri : Reg) (n : Int) : Statement (.divRegImm ri n) := of_length _
theorem modRegReg (ri rj : Reg) : Statement (.modRegReg ri rj) := of_length _
theorem modRegImm (ri : Reg) (n : Int) : Statement (.modRegImm ri n) := of_length _
theorem inr (ri : Reg) : Statement (.inr ri) := of_length _
theorem dcr (ri : Reg) : Statement (.dcr ri) := of_length _
theorem lt (ri rj : Reg) : Statement (.lt ri rj) := of_length _
theorem gt (ri rj : Reg) : Statement (.gt ri rj) := of_length _
theorem eq (ri rj : Reg) : Statement (.eq ri rj) := of_length _
theorem ne (ri rj : Reg) : Statement (.ne ri rj) := of_length _
theorem ge (ri rj : Reg) : Statement (.ge ri rj) := of_length _
theorem le (ri rj : Reg) : Statement (.le ri rj) := of_length _
theorem jz (ri : Reg) (target : Int) : Statement (.jz ri target) := of_length _
theorem jnz (ri : Reg) (target : Int) : Statement (.jnz ri target) := of_length _
theorem push (ri : Reg) : Statement (.push ri) := of_length _
theorem pop (ri : Reg) : Statement (.pop ri) := of_length _
theorem call (target : Int) : Statement (.call target) := of_length _
theorem ret : Statement (.ret) := of_length _
theorem nop : Statement (.nop) := of_length _
theorem brkp : Statement (.brkp) := of_length _
theorem iret : Statement (.iret) := of_length _
theorem halt : Statement (.halt) := of_length _
theorem backup : Statement (.backup) := of_length _
theorem restore : Statement (.restore) := of_length _
theorem encrypt (ri : Reg) : Statement (.encrypt ri) := of_length _

end Sys2Proof.Laws.TextFits
end

