-- ==== Sys2Proof/Laws/Text.lean ====
section
/-! SUPPORT. What each function of the decoder reads back from the text the encoder writes. -/

namespace Sys2Proof

/-! ### Names -/

theorem mnemonicOfText_mnemonicText (m : Mnemonic) : mnemonicOfText (mnemonicText m) = some m := by cases m <;> decide +kernel

theorem mem_allRegs (r : Reg) : r ∈ allRegs := by cases r <;> simp [allRegs]

theorem regOfText_regText (r : Reg) : regOfText (regText r) = some r := by
  have h : ∀ r ∈ allRegs, regOfText (regText r) = some r := by decide +kernel
  exact h r (mem_allRegs r)

/-- A register's name begins with a letter. -/
theorem regText_head (r : Reg) :
    ∃ c cs, regText r = c :: cs ∧ c ≠ '-' ∧ c.isDigit = false ∧ c ≠ '[' ∧ c ≠ dquote := by
  cases r <;> exact ⟨_, _, rfl, by decide, by decide, by decide, by decide⟩

/-- No name begins with another character than a letter. -/
theorem regOfText_none {c : Char} {cs : List Char} (h : c = '-' ∨ c.isDigit = true ∨ c = '[' ∨ c = dquote) :
    regOfText (c :: cs) = none := by
  unfold regOfText
  rw [List.find?_eq_none]
  intro r _ he
  obtain ⟨d, ds, hd, h1, h2, h3, h4⟩ := regText_head r
  rw [hd] at he
  obtain ⟨rfl, -⟩ : d = c ∧ ds = cs := by simpa using he
  rcases h with h | h | h | h
  · exact h1 h
  · rw [h2] at h; cases h
  · exact h3 h
  · exact h4 h

/-! ### Numbers -/

theorem digit_char {d : Nat} (h : d < 10) : (Char.ofNat (48 + d)).isDigit = true ∧ (Char.ofNat (48 + d)).toNat - 48 = d := by
  have : ∀ d < 10, (Char.ofNat (48 + d)).isDigit = true ∧ (Char.ofNat (48 + d)).toNat - 48 = d := by decide
  exact this d h

theorem digitsText_isDigit : ∀ {fuel n : Nat} {c : Char}, c ∈ digitsText fuel n → c.isDigit = true
  | 0, _, _, h => by simp [digitsText] at h
  | fuel + 1, n, c, h => by
    rw [digitsText] at h
    split at h
    · rename_i hn
      obtain rfl : c = Char.ofNat (48 + n) := by simpa using h
      exact (digit_char hn).1
    · rcases List.mem_append.1 h with h | h
      · exact digitsText_isDigit h
      · obtain rfl : c = Char.ofNat (48 + n % 10) := by simpa using h
        exact (digit_char (Nat.mod_lt n (by decide))).1

theorem natText_ne_nil (n : Nat) : natText n ≠ [] := by
  unfold natText; rw [digitsText]; split <;> simp

theorem digitsValue_append {l : List Char} {acc : Nat} {c : Char} (h : ∀ d ∈ l, d.isDigit = true) (hc : c.isDigit = true) :
    digitsValue acc (l ++ [c]) = (digitsValue acc l).map (fun v => 10 * v + (c.toNat - 48)) := by
  induction l generalizing acc with
  | nil => simp [digitsValue, hc]
  | cons d l ih =>
    rw [List.cons_append, digitsValue, digitsValue, if_pos (h d (by simp)), if_pos (h d (by simp)), ih fun e he => h e (by simp [he])]

theorem digitsValue_digitsText : ∀ {fuel n : Nat}, n < fuel → digitsValue 0 (digitsText fuel n) = some n
  | 0, _, h => absurd h (Nat.not_lt_zero _)
  | fuel + 1, n, h => by
    rw [digitsText]
    split
    · rename_i hn
      rw [digitsValue, if_pos (digit_char hn).1, (digit_char hn).2, digitsValue]; simp
    · rename_i hn
      have hm : n % 10 < 10 := Nat.mod_lt n (by decide)
      rw [digitsValue_append (fun d hd => digitsText_isDigit hd) (digit_char hm).1, digitsValue_digitsText (by omega), (digit_char hm).2,
        Option.map_some, Nat.div_add_mod]

theorem natOfText_natText (n : Nat) : natOfText (natText n) = some n := by
  rw [natOfText, if_neg (by simpa using natText_ne_nil n)]
  exact digitsValue_digitsText (Nat.lt_succ_self n)

/-- The text of a number begins with a digit or a minus sign and holds nothing else. -/
theorem intText_chars {z : Int} {c : Char} (h : c ∈ intText z) : c.isDigit = true ∨ c = '-' := by
  unfold intText at h
  split at h
  · rcases List.mem_cons.1 h with h | h
    · exact .inr h
    · exact .inl (digitsText_isDigit h)
  · exact .inl (digitsText_isDigit h)

theorem intOfText_intText (z : Int) : intOfText (intText z) = some z := by
  unfold intText
  split
  · rw [intOfText, if_pos rfl, natOfText_natText, Option.map_some]; congr 1; omega
  · cases hn : natText z.natAbs with
    | nil => exact absurd hn (natText_ne_nil _)
    | cons c cs =>
      have hd : c.isDigit = true := digitsText_isDigit (fuel := z.natAbs + 1) (n := z.natAbs) (by
        show c ∈ natText z.natAbs
        rw [hn]; simp)
      rw [intOfText, if_neg (by rintro rfl; revert hd; decide), ← hn, natOfText_natText, Option.map_some]; congr 1; omega

/-! ### Brackets and quotes -/

theorem beforeClose_append (close : Char) : ∀ t : List Char, beforeClose close (t ++ [close]) = some t
  | [] => by simp [beforeClose]
  | [c] => by simp [beforeClose]
  | c :: d :: t => by
    have h := beforeClose_append close (d :: t)
    rw [List.cons_append] at h
    rw [List.cons_append, List.cons_append, beforeClose, h, Option.map_some]

/-! ### Tokens -/

/-- Characters that neither end nor quote a token are gathered. -/
theorem tokensFrom_plain {t : List Char} (r cur : List Char) (h : ∀ c ∈ t, c ≠ dquote ∧ c ≠ ' ' ∧ c ≠ ',') :
    tokensFrom (t ++ r) cur false = tokensFrom r (t.reverse ++ cur) false := by
  induction t generalizing cur with
  | nil => rfl
  | cons c t ih =>
    obtain ⟨h1, h2, h3⟩ := h c (by simp)
    rw [List.cons_append, tokensFrom, if_neg h1, if_neg (by simp), if_neg (by simp [h2, h3]), ih _ fun d hd => h d (by simp [hd])]
    simp

/-- Between quotes every character but a quote is gathered. -/
theorem tokensFrom_quoted {t : List Char} (r cur : List Char) (h : dquote ∉ t) :
    tokensFrom (t ++ r) cur true = tokensFrom r (t.reverse ++ cur) true := by
  induction t generalizing cur with
  | nil => rfl
  | cons c t ih =>
    simp only [List.mem_cons, not_or] at h
    rw [List.cons_append, tokensFrom, if_neg (Ne.symm h.1), if_pos rfl, ih _ h.2]
    simp

/-- The operands of an instruction, read back by the shape of its row. -/
theorem instrOfOperands_operands (i : Instr) : instrOfOperands i.mnemonic i.operands = some i := by
  cases i
  case loadi p b | load p b | store p b => cases p <;> cases b <;> rfl
  all_goals rfl

end Sys2Proof
end

