-- ==== Sys2Proof/Tests/Slice0.lean ====
section
/-! SUPPORT. Tests from the spec's worked vectors (95_test_vectors), well-formedness and decoding tests, and, for every obligation with
hypotheses, a state and operands that meet them. -/

namespace Sys2Proof.Tests

set_option Elab.async false

open Sys2Proof.Machine

/-! ### Builders -/

/-- The words of a text that fits in one word. -/
def text (t : String) : Word × Word := (.str t.toList, .str [])

/-- What the decoder reads in two words, as an option. -/
def dec (w0 w1 : Word) : Option Instr :=
  match decode Config.reference w0 w1 with
  | .ok i => some i
  | .error _ => none

/-- What the decoder reads in a text that fits in one word. -/
def decT (t : String) : Option Instr := dec (text t).1 (text t).2

/-- `p` holds of the next state. -/
def onNext (o : Out) (p : State → Bool) : Bool :=
  match o with
  | .next s => p s
  | _ => false

/-- The outcome is this fault. -/
def onFault (o : Out) (f : Fault) : Bool :=
  match o with
  | .fault g => decide (g = f)
  | _ => false

/-- The outcome is this refusal. -/
def onRefused (o : Out) (r : Refusal) : Bool :=
  match o with
  | .refused q => decide (q = r)
  | _ => false

/-- The state in a next state, else the other one. -/
def nextOr (o : Out) (s : State) : State :=
  match o with
  | .next t => t
  | _ => s

/-- The state a part of an instruction answers, else the other one. -/
def stateOr {α : Type} (x : Res α) (s : State) : State :=
  match x with
  | .ok _ t => t
  | .exc _ t => t
  | _ => s

/-- XSM_TICKS = none (the vectors' setting). -/
def quiet : Config := { Config.reference with ticks := none }

def poked (cells : List (Nat × Word)) (s : State) : State := cells.foldl (fun s c => s.poke c.1 (some c.2)) s

def withRegs (regs : List (Reg × Word)) (s : State) : State := regs.foldl (fun s c => s.setReg c.1 c.2) s

/-- PRIV mode, IP = 600. -/
def privAt (regs : List (Reg × Word)) (cells : List (Nat × Word)) : State :=
  withRegs regs (poked cells { State.reset with cfg := quiet, ip := .int 600 })

/-- The page table of Context U. -/
def tableU : List (Nat × Word) :=
  ((List.range 10).flatMap fun lp => [(29696 + 2 * lp, Word.int 0), (29697 + 2 * lp, .str ['0', '0', '0', '0'])]) ++
    [(29704, .int 70), (29705, .str ['1', '1', '0', '0']), (29712, .int 41), (29713, .str ['0', '1', '1', '0'])]

/-- Context U (95_test_vectors), IP = 2048. -/
def userAt (regs : List (Reg × Word)) (cells : List (Nat × Word)) : State :=
  withRegs regs (poked (tableU ++ cells)
    { State.reset with cfg := quiet, ip := .int 2048, mode := .unpriv, ptbr := .int 29696, ptlr := .int 10, sp := .int 4200 })

/-- A text in the two words at an address. -/
def code (a : Nat) (t : String) : List (Nat × Word) := [(a, (text t).1), (a + 1, (text t).2)]

/-! ### Well-formedness: a term that passes, and an ill-formed term for each check -/

theorem test_wf_passes : WellFormed Config.reference (.movRegImm (.gpr 0) 3) = true := by decide +kernel
theorem test_wf_imm_too_large : WellFormed Config.reference (.jmp 2147483648) = false := by decide +kernel
theorem test_wf_imm_too_small : WellFormed Config.reference (.addRegImm (.gpr 0) (-2147483649)) = false := by decide +kernel
theorem test_wf_mem_imm_too_large : WellFormed Config.reference (.movIndImmReg 2147483648 (.gpr 0)) = false := by decide +kernel
theorem test_wf_disk_operand_too_large : WellFormed Config.reference (.load (.imm 2147483648) (.reg .bp)) = false := by decide +kernel
theorem test_wf_string_too_long : WellFormed Config.reference (.movRegStr (.gpr 0) (List.replicate 16 'a')) = false := by decide +kernel
theorem test_wf_string_with_quote : WellFormed Config.reference (.movRegStr (.gpr 0) [dquote]) = false := by decide +kernel
/-- R62: the text must fit in two words: `MOV R0, 3` has nine characters. -/
theorem test_wf_text_too_long : WellFormed { Config.reference with wordChars := 4 } (.movRegImm (.gpr 0) 3) = false := by decide +kernel

/-! ### Decoding: every row's text, written from its `encoding` in spec/opcode_table.json -/

theorem test_decode_mov :
    decT "MOV R0, R19" = some (.movRegReg (.gpr 0) (.gpr 19)) ∧ decT "MOV R0, 3" = some (.movRegImm (.gpr 0) 3) ∧
    decT "MOV R1, [R2]" = some (.movRegIndReg (.gpr 1) (.gpr 2)) ∧ decT "MOV R1, [700]" = some (.movRegIndImm (.gpr 1) 700) ∧
    decT "MOV [R2], R1" = some (.movIndRegReg (.gpr 2) (.gpr 1)) ∧ decT "MOV [30001], R1" = some (.movIndImmReg 30001 (.gpr 1)) ∧
    decT "MOV R0, \"hi, b\"" = some (.movRegStr (.gpr 0) ['h', 'i', ',', ' ', 'b']) := by
  decide +kernel

theorem test_decode_control :
    decT "JMP 512" = some (.jmp 512) ∧ decT "INT 7" = some (.intr 7) ∧ decT "JZ R0, 600" = some (.jz (.gpr 0) 600) ∧
    decT "JNZ R0, 600" = some (.jnz (.gpr 0) 600) ∧ decT "CALL 700" = some (.call 700) ∧ decT "RET" = some .ret := by
  decide +kernel

theorem test_decode_disk :
    decT "LOADI 1, 0" = some (.loadi (.imm 1) (.imm 0)) ∧ decT "LOAD R1, R2" = some (.load (.reg (.gpr 1)) (.reg (.gpr 2))) ∧
    decT "STORE 60, BP" = some (.store (.imm 60) (.reg .bp)) := by
  decide +kernel

theorem test_decode_console :
    decT "OUT" = some .consoleOut ∧ decT "IN" = some .consoleIn ∧ decT "INI" = some .consoleIni := by
  decide +kernel

theorem test_decode_arith :
    decT "ADD R0, R1" = some (.addRegReg (.gpr 0) (.gpr 1)) ∧ decT "ADD R0, -1" = some (.addRegImm (.gpr 0) (-1)) ∧
    decT "SUB BP, SP" = some (.subRegReg .bp .sp) ∧ decT "SUB R0, 7" = some (.subRegImm (.gpr 0) 7) ∧
    decT "MUL R2, EC" = some (.mulRegReg (.gpr 2) .ec) ∧ decT "MUL R2, 4" = some (.mulRegImm (.gpr 2) 4) ∧
    decT "DIV R0, EIP" = some (.divRegReg (.gpr 0) .eip) ∧ decT "DIV R0, 5" = some (.divRegImm (.gpr 0) 5) ∧
    decT "MOD R0, EPN" = some (.modRegReg (.gpr 0) .epn) ∧ decT "MOD R0, 5" = some (.modRegImm (.gpr 0) 5) ∧
    decT "INR R3" = some (.inr (.gpr 3)) ∧ decT "DCR EMA" = some (.dcr .ema) := by
  decide +kernel

theorem test_decode_logic :
    decT "LT R0, R1" = some (.lt (.gpr 0) (.gpr 1)) ∧ decT "GT R0, R1" = some (.gt (.gpr 0) (.gpr 1)) ∧
    decT "EQ R0, PTBR" = some (.eq (.gpr 0) .ptbr) ∧ decT "NE R0, PTLR" = some (.ne (.gpr 0) .ptlr) ∧
    decT "GE R0, P2" = some (.ge (.gpr 0) (.port 2)) ∧ decT "LE R10, P3" = some (.le (.gpr 10) (.port 3)) := by
  decide +kernel

theorem test_decode_stack :
    decT "PUSH R4" = some (.push (.gpr 4)) ∧ decT "POP SP" = some (.pop .sp) ∧ decT "BACKUP" = some .backup ∧
    decT "RESTORE" = some .restore := by
  decide +kernel

theorem test_decode_system :
    decT "NOP" = some .nop ∧ decT "BRKP" = some .brkp ∧ decT "IRET" = some .iret ∧ decT "HALT" = some .halt ∧
    decT "ENCRYPT R0" = some (.encrypt (.gpr 0)) := by
  decide +kernel

/-- V11, V12, V19, V20: the split over two words, a comma without a space, and terms refused or trapped only when executed. -/
theorem test_decode_accepts :
    dec (.str "MOV R0, ".toList) (.str ['3']) = some (.movRegImm (.gpr 0) 3) ∧ decT "MOV R0,3" = some (.movRegImm (.gpr 0) 3) ∧
    decT "MOV IP, 5" = some (.movRegImm .ip 5) ∧ decT "INT 19" = some (.intr 19) ∧
    encode { Config.reference with wordChars := 8 } (.movRegImm (.gpr 0) 3) = (.str "MOV R0, ".toList, .str ['3']) := by
  decide +kernel

/-- V13 to V18, V21, R67. -/
theorem test_decode_rejects :
    decT "mov R0, 3" = none ∧ dec (.int 5) (.str []) = none ∧ dec (.str "NOP".toList) (.int 0) = none ∧ decT "MOV R0" = none ∧
    decT "MOV [R1], [R2]" = none ∧ decT "MOV [100], 5" = none ∧ decT "JMP R1" = none ∧ decT "" = none ∧ decT "RET 1" = none ∧
    decT "JMP 2147483648" = none ∧ decT "MOV R20, 1" = none ∧ decT "PORT" = none := by
  decide +kernel

/-- Log 9: the bytes `N`, `O`, `P` from the least significant on spell the text `NOP`, and the step from reset runs it. -/
theorem test_table_word :
    decodeTableWord 256 0x504F4E = some .nop ∧ onNext (step (State.reset.withFetchWord 256 0x504F4E)) (fun t => t.ip = .int 2) = true := by
  decide +kernel

/-! ### Start-up -/

theorem test_reset_memory_wf : State.reset.memWf ∧ State.reset.diskWf := ⟨⟨.nil, nofun⟩, ⟨.nil, nofun⟩⟩

/-- S5, V9, V37: the vector table, and the words around it that hold no value. -/
theorem test_rom_words :
    State.reset.peek 492 = some (.int 1024) ∧ State.reset.peek 499 = some (.int 8192) ∧ State.reset.peek 510 = some (.int 19456) ∧
    State.reset.peek 511 = none ∧ State.reset.peek 491 = none ∧ State.reset.peek 0 = some (.str "LOADI 1, 0".toList) ∧
    State.reset.peek 2 = some (.str "JMP 512".toList) := by
  decide +kernel

/-- P1, steps 1 to 3: the boot block's first instruction runs in the third step. -/
theorem test_boot :
    onNext (step { State.reset with disk := [(0, some (text "MOV R0, 3").1), (1, some (text "MOV R0, 3").2)] }) (fun t => onNext (step t) (fun u =>
      onNext (step u) (fun v => v.reg (.gpr 0) = .int 3 && v.ip = .int 514))) = true := by
  decide +kernel

/-! ### MOV (V23 to V40, V117) -/

theorem test_mov_reg_reg : onNext (exec (.movRegReg (.gpr 1) (.gpr 0)) (privAt [(.gpr 0, .int 3)] []))
    (fun t => t.reg (.gpr 1) = .int 3 && t.reg (.gpr 0) = .int 3 && t.ip = .int 602) = true := by decide +kernel
/-- V36: a MOV to P0 makes it valid. -/
theorem test_mov_to_p0 : onNext (exec (.movRegReg (.port 0) (.gpr 0)) (privAt [(.gpr 0, .int 4)] []))
    (fun t => t.reg (.port 0) = .int 4 && t.p0Valid) = true := by decide +kernel
theorem test_mov_reg_imm : onNext (step (privAt [] (code 600 "MOV R0, 3"))) (fun t => t.reg (.gpr 0) = .int 3 && t.ip = .int 602) = true := by
  decide +kernel
/-- V29: the destination is also the address. -/
theorem test_mov_reg_ind_reg : onNext (exec (.movRegIndReg (.gpr 2) (.gpr 2)) (privAt [(.gpr 2, .int 700)] [(700, .int 9)]))
    (fun t => t.reg (.gpr 2) = .int 9) = true := by decide +kernel
/-- V33: an address that is not an Int. -/
theorem test_mov_string_address : onFault (exec (.movRegIndReg (.gpr 1) (.gpr 2)) (privAt [(.gpr 2, .str ['a'])] []))
    (.privileged (.illegalMem (.str ['a']))) = true := by decide +kernel
/-- V39: a read in UNPRIV mode sets the reference bit. -/
theorem test_mov_reg_ind_imm : onNext (step (userAt [] ((21096, .int 6) :: code 35840 "MOV R0, [4200]")))
    (fun t => t.reg (.gpr 0) = .int 6 && t.ip = .int 2050 && t.peek 29713 = some (.str ['1', '1', '1', '0'])) = true := by decide +kernel
/-- V32: an address beyond physical memory. -/
theorem test_mov_beyond_memory : onFault (exec (.movRegIndImm (.gpr 1) 65536) (privAt [] [])) (.privileged (.illegalMem (.int 65536))) = true := by
  decide +kernel
/-- V28. -/
theorem test_mov_ind_reg_reg : onNext (exec (.movIndRegReg (.gpr 2) (.gpr 2)) (privAt [(.gpr 2, .int 30000)] []))
    (fun t => t.peek 30000 = some (.int 30000)) = true := by decide +kernel
/-- V40: a write in UNPRIV mode sets the reference and the dirty bit. -/
theorem test_mov_ind_imm_reg : onNext (step (userAt [(.gpr 0, .int 6)] (code 35840 "MOV [4201], R0")))
    (fun t => t.peek 21097 = some (.int 6) && t.ip = .int 2050 && t.peek 29713 = some (.str ['1', '1', '1', '1'])) = true := by decide +kernel
/-- V31. -/
theorem test_mov_to_rom : onRefused (exec (.movIndImmReg 100 (.gpr 1)) (privAt [] [])) .romWrite = true := by decide +kernel
theorem test_mov_string : onNext (exec (.movRegStr (.gpr 0) ['h', 'i']) (privAt [] [])) (fun t => t.reg (.gpr 0) = .str ['h', 'i']) = true := by
  decide +kernel

/-! ### JMP, INT, JZ, JNZ, CALL, RET (V42 to V51, V108, V109, V113, V114) -/

/-- V44: a jump to an odd address; the next step is refused. -/
theorem test_jmp : onNext (exec (.jmp 701) (privAt [] [])) (fun t => t.ip = .int 701 && onRefused (step t) .badIp) = true := by decide +kernel
/-- V46. -/
theorem test_int : onNext (exec (.intr 7) { userAt [] [] with ip := .int 2050 }) (fun t => t.peek 21097 = some (.int 2052) &&
    t.peek 29713 = some (.str ['1', '1', '1', '1']) && t.sp = .int 4201 && t.mode = .priv && t.ip = .int 8192) = true := by decide +kernel
/-- V51: the push address lies past PTLR, for the exception's own push too. -/
theorem test_int_stack_overflow : onRefused (exec (.intr 7) { userAt [] [] with sp := .int 5119 }) .exceptionPush = true := by decide +kernel
theorem test_jz : onNext (exec (.jz (.gpr 0) 600) { privAt [(.gpr 0, .int 0)] [] with ip := .int 520 }) (fun t => t.ip = .int 600) = true ∧
    onNext (exec (.jz (.gpr 0) 600) { privAt [(.gpr 0, .int 4)] [] with ip := .int 520 }) (fun t => t.ip = .int 522) = true := by decide +kernel
theorem test_jnz : onNext (exec (.jnz (.gpr 0) 600) { privAt [(.gpr 0, .int 4)] [] with ip := .int 520 }) (fun t => t.ip = .int 600) = true ∧
    onNext (exec (.jnz (.gpr 0) 600) { privAt [(.gpr 0, .int 0)] [] with ip := .int 520 }) (fun t => t.ip = .int 522) = true := by decide +kernel
theorem test_call : onNext (exec (.call 700) { privAt [(.sp, .int 30000)] [] with ip := .int 520 })
    (fun t => t.peek 30001 = some (.int 522) && t.sp = .int 30001 && t.ip = .int 700) = true := by decide +kernel
theorem test_ret : onNext (exec .ret (privAt [(.sp, .int 30001)] [(30001, .int 522)])) (fun t => t.ip = .int 522 && t.sp = .int 30000) = true := by
  decide +kernel

/-! ### The disk macros (V53 to V60) -/

theorem test_load : onNext (exec (.load (.reg (.gpr 1)) (.reg (.gpr 2))) (privAt [(.gpr 1, .int 50), (.gpr 2, .int 7)] []))
    (fun t => t.diskOp = .busy .load 50 7 0 && t.ip = .int 602) = true := by decide +kernel
/-- V57. -/
theorem test_load_block_out_of_range : onFault (exec (.load (.imm 50) (.imm 512)) (privAt [] [])) .diskOperand = true := by decide +kernel
theorem test_store : onNext (exec (.store (.imm 60) (.imm 100)) (privAt [] [])) (fun t => t.diskOp = .busy .store 60 100 0) = true := by
  decide +kernel
/-- V56, V55. -/
theorem test_loadi_page_checks : onFault (exec (.loadi (.imm 128) (.imm 0)) (privAt [] [])) .diskOperand = true ∧
    onRefused (exec (.loadi (.imm 0) (.imm 5)) (privAt [] [])) .romWrite = true := by decide +kernel
/-- V58, V59, V60: what is barred while a transfer is pending. -/
theorem test_pending_pages :
    onRefused (exec (.loadi (.imm 60) (.imm 3)) { privAt [] [] with diskOp := .busy .load 50 7 0 }) .diskBusy = true ∧
    onRefused (exec (.movRegIndImm (.gpr 0) 25600) { privAt [] [(25600, .int 1)] with diskOp := .busy .load 50 7 0 }) .pageLocked = true ∧
    onNext (exec (.movRegIndImm (.gpr 0) 25599) { privAt [] [(25599, .int 1)] with diskOp := .busy .load 50 7 0 }) (fun _ => true) = true ∧
    onNext (exec (.movRegIndImm (.gpr 0) 30720) { privAt [] [(30720, .int 1)] with diskOp := .busy .store 60 100 0 }) (fun _ => true) = true ∧
    onRefused (exec (.movIndImmReg 30720 (.gpr 0)) { privAt [] [] with diskOp := .busy .store 60 100 0 }) .pageLocked = true := by
  decide +kernel
/-- V61: the second of two counted instructions completes the transfer. -/
theorem test_disk_count :
    let s := { userAt [] (code 35840 "NOP") with
      cfg := { quiet with dtime := 2 }, diskOp := .busy .load 50 7 0, disk := [(3584, some (.int 99))] }
    onNext (step s) (fun t => t.diskOp = .busy .load 50 7 1 && onNext (step { t with ip := .int 2048 }) (fun u =>
      u.peek 25600 = some (.int 99) && u.peek 25601 = none && u.diskOp = .idle && u.pendDisk)) = true := by decide +kernel

/-! ### The console (V67 to V75) -/

theorem test_out : onNext (exec .consoleOut { privAt [(.port 1, .int 3)] [] with termOut := [.int 3] }) (fun t => t.termOut = [.int 3, .int 3]) = true := by
  decide +kernel
theorem test_in : onNext (exec .consoleIn (privAt [] [])) (fun t => t.consoleWait && !t.p0Valid) = true := by decide +kernel
/-- V71: the word arrives before the step; in PRIV mode the interrupt waits. -/
theorem test_user_enters : onNext (step { privAt [] (code 600 "NOP") with consoleWait := true, userGap := [some (.int 42)] }) (fun t =>
    t.reg (.port 0) = .int 42 && t.p0Valid && !t.consoleWait && t.pendConsole && t.ip = .int 602) = true := by decide +kernel
theorem test_ini : onNext (exec .consoleIni { privAt [] [] with userIni := [.int 42] }) (fun t =>
    t.reg (.port 0) = .int 42 && t.p0Valid && !t.pendConsole) = true := by decide +kernel
/-- R85: with no word from the user the INI waits, and the word entered in the next gap is its own. -/
theorem test_ini_waits : onNext (step (privAt [] (code 600 "INI"))) (fun t => t.waiting && t.ip = .int 600 &&
    onNext (step { t with userGap := [some (.int 42)] }) (fun u => u.reg (.port 0) = .int 42 && u.p0Valid && !u.waiting && !u.pendConsole &&
      u.ip = .int 602)) = true := by decide +kernel
/-- V75. -/
theorem test_ini_outside_debug : onRefused (exec .consoleIni { privAt [] [] with cfg := { quiet with debug := false } }) .iniOutsideDebug = true := by
  decide +kernel

/-! ### Arithmetic and comparison (V91 to V107) -/

theorem test_add : onNext (exec (.addRegReg (.gpr 0) (.gpr 1)) (privAt [(.gpr 0, .int 5), (.gpr 1, .int 7)] [])) (fun t => t.reg (.gpr 0) = .int 12) = true ∧
    onNext (exec (.addRegReg (.gpr 0) (.gpr 0)) (privAt [(.gpr 0, .int 5)] [])) (fun t => t.reg (.gpr 0) = .int 10) = true := by decide +kernel
theorem test_sub : onNext (exec (.subRegImm (.gpr 0) 7) (privAt [(.gpr 0, .int 5)] [])) (fun t => t.reg (.gpr 0) = .int (-2)) = true ∧
    onNext (exec (.subRegReg (.gpr 0) (.gpr 1)) (privAt [(.gpr 0, .int 5), (.gpr 1, .int 7)] [])) (fun t => t.reg (.gpr 0) = .int (-2)) = true := by
  decide +kernel
theorem test_mul : onNext (exec (.mulRegImm (.gpr 2) 4) (privAt [(.gpr 2, .int 3)] [])) (fun t => t.reg (.gpr 2) = .int 12) = true ∧
    onNext (exec (.mulRegReg (.gpr 2) (.gpr 3)) (privAt [(.gpr 2, .int (-3)), (.gpr 3, .int 4)] [])) (fun t => t.reg (.gpr 2) = .int (-12)) = true := by
  decide +kernel
theorem test_div : onNext (exec (.divRegImm (.gpr 0) 5) (privAt [(.gpr 0, .int 17)] [])) (fun t => t.reg (.gpr 0) = .int 3) = true ∧
    onRefused (exec (.divRegReg (.gpr 0) (.gpr 1)) (privAt [(.gpr 0, .int (-7)), (.gpr 1, .int 2)] [])) .negativeDivision = true := by decide +kernel
theorem test_mod : onNext (exec (.modRegImm (.gpr 0) 5) (privAt [(.gpr 0, .int 17)] [])) (fun t => t.reg (.gpr 0) = .int 2) = true ∧
    onFault (exec (.modRegReg (.gpr 0) (.gpr 1)) (privAt [(.gpr 0, .int 7), (.gpr 1, .int 0)] [])) (.privileged .arith) = true := by decide +kernel
/-- V100, V101: a string operand and an overflow. -/
theorem test_arith_refusals : onRefused (exec (.addRegImm (.gpr 0) 1) (privAt [(.gpr 0, .str ['a'])] [])) .stringArith = true ∧
    onRefused (exec (.inr (.gpr 0)) (privAt [(.gpr 0, .int 2147483647)] [])) .overflow = true := by decide +kernel
theorem test_inr_dcr : onNext (exec (.inr (.gpr 3)) (privAt [(.gpr 3, .int 9)] [])) (fun t => t.reg (.gpr 3) = .int 10) = true ∧
    onNext (exec (.dcr (.gpr 3)) (privAt [(.gpr 3, .int 0)] [])) (fun t => t.reg (.gpr 3) = .int (-1)) = true := by decide +kernel
/-- V104, V105: the six relations on 2 and 5, and on 5 and 5. -/
theorem test_compare :
    let r (i : Instr) (a b : Int) (v : Int) : Bool := onNext (exec i (privAt [(.gpr 0, .int a), (.gpr 1, .int b)] [])) (fun t => t.reg (.gpr 0) = .int v)
    r (.lt (.gpr 0) (.gpr 1)) 2 5 1 ∧ r (.gt (.gpr 0) (.gpr 1)) 2 5 0 ∧ r (.eq (.gpr 0) (.gpr 1)) 2 5 0 ∧
    r (.ne (.gpr 0) (.gpr 1)) 2 5 1 ∧ r (.ge (.gpr 0) (.gpr 1)) 2 5 0 ∧ r (.le (.gpr 0) (.gpr 1)) 2 5 1 ∧
    r (.lt (.gpr 0) (.gpr 1)) 5 5 0 ∧ r (.gt (.gpr 0) (.gpr 1)) 5 5 0 ∧ r (.eq (.gpr 0) (.gpr 1)) 5 5 1 ∧
    r (.ne (.gpr 0) (.gpr 1)) 5 5 0 ∧ r (.ge (.gpr 0) (.gpr 1)) 5 5 1 ∧ r (.le (.gpr 0) (.gpr 1)) 5 5 1 := by decide +kernel
/-- V106, V107. -/
theorem test_compare_strings :
    onNext (exec (.eq (.gpr 0) (.gpr 1)) (privAt [(.gpr 0, .str ['a', 'b']), (.gpr 1, .str ['a', 'b'])] [])) (fun t => t.reg (.gpr 0) = .int 1) = true ∧
    onRefused (exec (.lt (.gpr 0) (.gpr 1)) (privAt [(.gpr 0, .str ['a', 'b']), (.gpr 1, .str ['a', 'b'])] [])) .stringOrder = true ∧
    onRefused (exec (.eq (.gpr 0) (.gpr 1)) (privAt [(.gpr 0, .str ['5']), (.gpr 1, .int 5)] [])) .mixedComparison = true := by decide +kernel

/-! ### The stack (V110 to V115, V120) -/

/-- V112: PUSH SP pushes the old SP. -/
theorem test_push : onNext (exec (.push .sp) (privAt [(.sp, .int 30000)] [])) (fun t => t.peek 30001 = some (.int 30000) && t.sp = .int 30001) = true ∧
    onRefused (exec (.push (.gpr 4)) (privAt [(.sp, .int 510)] [])) .romWrite = true := by decide +kernel
/-- V111; R107: POP SP leaves the popped word in SP. -/
theorem test_pop : onNext (exec (.pop (.gpr 5)) (privAt [(.sp, .int 30001)] [(30001, .int 8)])) (fun t => t.reg (.gpr 5) = .int 8 && t.sp = .int 30000) = true ∧
    onNext (exec (.pop .sp) (privAt [(.sp, .int 30001)] [(30001, .int 8)])) (fun t => t.sp = .int 8) = true := by decide +kernel
/-- V120. -/
theorem test_backup : onNext (exec .backup (privAt [(.sp, .int 40000), (.bp, .int 77), (.gpr 19, .int 19)] [])) (fun t => t.sp = .int 40021 &&
    t.peek 40001 = some (.int 77) && t.peek 40021 = some (.int 19) && t.peek 40022 = none) = true := by decide +kernel
theorem test_restore : onNext (exec .restore (privAt [(.sp, .int 40021)] ((List.range 21).map fun i => (40001 + i, .int i)))) (fun t => t.sp = .int 40000 &&
    t.reg .bp = .int 0 && t.reg (.gpr 0) = .int 1 && t.reg (.gpr 19) = .int 20) = true := by decide +kernel

/-! ### System instructions (V116, V118, V119, V121) -/

theorem test_nop_brkp : onNext (exec .nop (privAt [] [])) (fun t => t.ip = .int 602) = true ∧
    onNext (exec .brkp (privAt [] [])) (fun t => t.ip = .int 602) = true := by decide +kernel
theorem test_iret : onNext (exec .iret { userAt [(.sp, .int 4201)] [(21097, .int 2052)] with mode := .priv }) (fun t => t.ip = .int 2052 &&
    t.sp = .int 4200 && t.mode = .unpriv && t.peek 29713 = some (.str ['1', '1', '1', '0'])) = true := by decide +kernel
theorem test_halt : onNext (exec .halt (privAt [] [])) (fun t => t.halted && t.ip = .int 600 && onNext (step t) (fun u => u = t)) = true := by
  decide +kernel
/-- V121, with the entry of V80. -/
theorem test_encrypt_unprivileged : onNext (exec (.encrypt (.gpr 0)) (userAt [(.gpr 0, .int 5)] [])) (fun t => t.ec = .int 1 && t.eip = .int 2048 &&
    t.reg (.gpr 0) = .int 5 && t.ip = .int 1024) = true := by decide +kernel

/-! ### Exceptions and interrupts (V61a to V90) -/

/-- V82, V80: a page fault, its entry and the push of the faulting instruction's own address. -/
theorem test_page_fault : onNext (step (userAt [] (code 35840 "MOV R0, [3000]"))) (fun t => t.ec = .int 0 && t.eip = .int 2048 && t.epn = .int 5 &&
    t.peek 21097 = some (.int 2048) && t.peek 29713 = some (.str ['1', '1', '1', '1']) && t.sp = .int 4201 && t.mode = .priv && t.ip = .int 1024) = true := by
  decide +kernel
/-- V83: a write to a page that is not writable. -/
theorem test_illegal_mem : onNext (step (userAt [(.gpr 0, .int 1)] (code 35840 "MOV [2100], R0"))) (fun t => t.ec = .int 2 && t.ema = .int 2100) = true := by
  decide +kernel
/-- V85: operand registers are checked before the destination is translated. -/
theorem test_check_order : onNext (step (userAt [] (code 35840 "MOV [2100], PTBR"))) (fun t => t.ec = .int 1) = true := by decide +kernel
/-- V84, V87. -/
theorem test_division_by_zero : onNext (step (userAt [(.gpr 0, .int 7)] (code 35840 "DIV R0, 0"))) (fun t => t.ec = .int 3 && t.reg (.gpr 0) = .int 7) = true ∧
    onFault (step (privAt [] (code 600 "DIV R0, 0"))) (.privileged .arith) = true := by decide +kernel
/-- V86, V88. -/
theorem test_illegal_words : onNext (step (userAt [] [(35840, .int 5), (35841, .int 6)])) (fun t => t.ec = .int 1 && t.ip = .int 1024) = true ∧
    onFault (step (privAt [] [(600, .int 5), (601, .int 6)])) (.privileged .illegalInstr) = true := by decide +kernel
/-- V90, k = 2. -/
theorem test_disk_interrupt : onNext (step { userAt [] [] with ip := .int 2054, pendDisk := true }) (fun t => t.peek 21097 = some (.int 2054) &&
    t.sp = .int 4201 && !t.pendDisk && t.mode = .priv && t.ip = .int 3072) = true := by decide +kernel
/-- R146, R10: after a RET of a string no interrupt entry can push IP. -/
theorem test_interrupt_at_string_ip : onRefused (step { userAt [] [] with ip := .str ['x'], pendDisk := true }) .badIp = true := by decide +kernel
/-- V62, V63: with XSM_TICKS = 1 an INT pends the timer interrupt, which waits in PRIV mode. -/
theorem test_timer : onNext (step { userAt [] (code 35840 "INT 7") with cfg := { quiet with ticks := some 1 } }) (fun t => t.pendTimer && t.timerCount = 0 &&
    t.mode = .priv && t.ip = .int 8192) = true := by decide +kernel

/-! ### Witnesses: a state and operands that meet each obligation's hypotheses -/

theorem unlocked_of_idle {s : State} (h : s.diskOp = .idle) (a : Nat) : Unlocked s a := fun _ _ _ _ hd => by rw [h] at hd; cases hd

/-- The start-up state with one instruction's words on the disk. -/
def bootState : State := { State.reset with disk := [(0, some (text "MOV R0, 3").1), (1, some (text "MOV R0, 3").2)] }

/-- R8, R9, R61: the reference configuration and the vectors' one are admissible. -/
theorem reference_admissible : Config.reference.Admissible := ⟨by decide, nofun⟩
theorem quiet_admissible : quiet.Admissible := ⟨by decide, nofun⟩

theorem wit_BootRomHoldsTwoInstructions : State.reset.cfg.Admissible ∧ State.reset.RomIntact := ⟨reference_admissible, fun _ _ => rfl⟩

theorem wit_BootRunsTheBootBlock : bootState.cfg.Admissible ∧ bootState.memWf ∧ bootState.RomIntact ∧ bootState.mode = .priv ∧
    bootState.ip = .int 0 ∧ bootState.diskOp = .idle ∧ bootState.halted = false ∧ bootState.userGap = [] ∧
    bootState.peekDisk 0 = some (text "MOV R0, 3").1 ∧ bootState.peekDisk 1 = some (text "MOV R0, 3").2 ∧
    (decodeWords bootState.cfg (text "MOV R0, 3").1 (text "MOV R0, 3").2).toOption = some (.movRegImm (.gpr 0) 3) :=
  ⟨reference_admissible, ⟨.nil, nofun⟩, fun _ _ => rfl, rfl, rfl, rfl, rfl, rfl, rfl, rfl, by decide +kernel⟩

/-- At the bounds: the longest string, the extreme numbers, a text of exactly two words; an instruction of the reference ISA_EXT. -/
theorem wit_DecodeOfEncodeIsTheInstruction :
    WellFormed Config.reference (.movRegStr .ptbr (List.replicate 15 'x')) = true ∧
    WellFormed Config.reference (.movIndImmReg (-2147483648) (.gpr 19)) = true ∧ WellFormed Config.reference (.jmp 2147483647) = true ∧
    WellFormed { Config.reference with wordChars := 5 } (.loadi (.imm 1) (.imm 0)) = true ∧ Config.reference.decoder = .reference ∧
    (Instr.movRegStr .ptbr []).supplement = true ∧ (Instr.movRegStr .ptbr []).mnemonic ∈ Config.reference.isaExt := by decide +kernel

/-- Words that are no text; ADD on a machine without the supplement, and on one with it. -/
theorem wit_IllegalWordsTrapOrFault :
    let core := { quiet with isaExt := [] }
    decodeWords quiet (.int 5) (.int 6) = .error .notText ∧ spelled quiet (.int 5) (.int 6) = .error .notText ∧
    (userAt [] []).mode = .unpriv ∧ (privAt [] []).mode = .priv ∧ (userAt [] []).cfg = quiet ∧
    (spelled core (text "INR R0").1 (text "INR R0").2).toOption = some (.inr (.gpr 0)) ∧ (Instr.inr (.gpr 0)).supplement = true ∧
    (Instr.inr (.gpr 0)).mnemonic ∉ core.isaExt ∧ (Instr.inr (.gpr 0)).mnemonic ∈ quiet.isaExt ∧
    (∀ o ∈ (Instr.addRegImm (.gpr 0) 2147483647).operands, operandInRange quiet o = true) ∧
    (∃ o ∈ (Instr.addRegImm (.gpr 0) 2147483648).operands, operandInRange quiet o = false) := by
  decide +kernel

theorem wit_CanonicalMemoriesThatReadAlikeAreEqual :
    State.reset.memWf ∧ { State.reset with ip := .int 2 }.memWf ∧ (∀ a, State.reset.peek a = { State.reset with ip := .int 2 }.peek a) :=
  ⟨⟨.nil, nofun⟩, ⟨.nil, nofun⟩, fun _ => rfl⟩

/-- The last address and the two words nearest to it that are none. -/
theorem wit_PrivilegedAddressesArePhysical : (userAt [] []).mode = .unpriv ∧ (privAt [] []).mode = .priv ∧ (65535 : Nat) ≤ 65535 ∧
    (∀ n : Nat, n ≤ 65535 → Word.int 65536 ≠ .int n) ∧ (∀ n : Nat, n ≤ 65535 → Word.int (-1) ≠ .int n) ∧
    (∀ n : Nat, n ≤ 65535 → Word.str [] ≠ .int n) :=
  ⟨rfl, rfl, Nat.le_refl _, fun n h e => by have := Word.int.inj e; omega, fun n _ e => by have := Word.int.inj e; omega, fun n _ e => by cases e⟩

/-- Context U, logical 4201 (V77c). -/
theorem wit_TranslationFollowsTheEntryAndSetsItsBits :
    (userAt [] []).memWf ∧ (userAt [] []).ptlr = .int 10 ∧ (userAt [] []).ptbr = .int 29696 ∧ (0 : Int) ≤ 4201 ∧ (4201 : Int) / 512 < 10 ∧
    ((29712 : Nat) : Int) = 29696 + 2 * (4201 / 512) ∧ 511 ≤ 29712 ∧ 29712 + 1 ≤ 65535 ∧
    (userAt [] []).peek (29712 + 1) = some (wordOfAux ⟨false, true, true, false⟩) ∧ (userAt [] []).peek 29712 = some (.int (41 : Nat)) ∧
    Unlocked (userAt [] []) 29712 ∧ Unlocked (userAt [] []) (29712 + 1) ∧ (userAt [] []).cfg.translator = .reference ∧
    immInRange (userAt [] []).cfg 4201 = true :=
  ⟨by decide +kernel, rfl, rfl, by decide, by decide, by decide, by decide, by decide, by decide +kernel, by decide +kernel,
    unlocked_of_idle rfl _, unlocked_of_idle rfl _, rfl, by decide +kernel⟩

/-- The lowest and the highest entry, pages 0 and 127. -/
theorem wit_TranslationFollowsTheEntry_bounds :
    let s := { userAt [] [(512, wordOfAux ⟨false, true, false, false⟩), (65534, .int 127), (65535, wordOfAux ⟨false, true, true, true⟩)] with
      ptbr := .int 65534, ptlr := .int 1 }
    s.peek 65534 = some (.int (127 : Nat)) ∧ s.peek (65534 + 1) = some (wordOfAux ⟨false, true, true, true⟩) ∧
      ((65534 : Nat) : Int) = 65534 + 2 * (511 / 512) ∧ (511 : Int) / 512 < 1 := by
  decide +kernel

/-- A PTBR that is a string, one below 0 and one whose entry ends past 65535; an auxiliary word of another shape. -/
theorem wit_TranslationRejects_entry :
    let s := userAt [] [(29705, .str ['0', '1', '2', '0'])]
    { s with ptbr := .str [] }.ptbr = .str [] ∧ (-1 : Int) + 2 * (511 / 512) < 0 ∧ (65535 : Int) < 65535 + 2 * (511 / 512) + 1 ∧
    s.ptlr = .int 10 ∧ (511 : Int) / 512 < 10 ∧ ((29704 : Nat) : Int) = 29696 + 2 * (2100 / 512) ∧
    s.peek (29704 + 1) = some (.str ['0', '1', '2', '0']) ∧ ∀ r v w d : Bool, Word.str ['0', '1', '2', '0'] ≠ wordOfAux ⟨r, v, w, d⟩ := by
  decide +kernel

/-- V77d to V77f, and the addresses next to the bounds; entries that are not valid (page 9), read-only (page 4), and valid with page
numbers 127 and 128. -/
theorem wit_TranslationRejectsInOrder :
    let s := userAt [] [(29704, .int 127)]
    let t := userAt [] [(29704, .int 128)]
    s.cfg.translator = .reference ∧ immInRange s.cfg 5119 = true ∧ immInRange s.cfg (-1) = true ∧ (-1 : Int) < 0 ∧ s.ptlr = .int 10 ∧
    s.ptbr = .int 29696 ∧ { s with ptlr := .str [] }.ptlr = .str [] ∧ (10 : Int) ≤ 5120 / 512 ∧ (5119 : Int) / 512 < 10 ∧
    ((29714 : Nat) : Int) = 29696 + 2 * (5119 / 512) ∧ s.peek (29714 + 1) = some (wordOfAux ⟨false, false, false, false⟩) ∧
    ((29704 : Nat) : Int) = 29696 + 2 * (2100 / 512) ∧ s.peek (29704 + 1) = some (wordOfAux ⟨true, true, false, false⟩) ∧
    s.peek 29704 = some (.int (127 : Nat)) ∧ t.peek (29704 + 1) = some (wordOfAux ⟨true, true, false, false⟩) ∧
    t.peek 29704 = some (.int 128) ∧ s.diskOp = .idle ∧ t.diskOp = .idle := by
  decide +kernel

theorem wit_TranslationRejects_pageNumber : ∀ q : Nat, q ≤ 127 → Word.int 128 ≠ .int q :=
  fun q h e => by have := Word.int.inj e; omega

/-- R121, I39: a valid entry whose page number is out of range is refused, also at a write its write bit forbids. -/
theorem test_page_number_before_write_bit :
    translate .write (.int 2100) (userAt [] [(29704, .int 128)]) = .refuse .pageTableEntry ∧
    onRefused (step (userAt [(.gpr 0, .int 1)] ((29704, .int 128) :: code 35840 "MOV [2100], R0"))) .pageTableEntry = true := by
  decide +kernel

theorem wit_AddressingChangesOnlyTheEntrysBits :
    (userAt [] []).memWf ∧ memAddr .read (.int 4201) (userAt [] []) = .ok 21097 (stateOr (memAddr .read (.int 4201) (userAt [] [])) State.reset) ∧
    logicalPage (userAt [] []) (.int 4201) = some (8, 105) ∧ entryAddr (userAt [] []) 8 = some 29712 ∧
    memAddr .read (.int 700) (privAt [] []) = .ok 700 (privAt [] []) ∧ (userAt [] []).mode = .unpriv ∧
    (userAt [] []).cfg.translator = .reference := by
  decide +kernel

/-- A walk that reads a word and answers with it written to the next. -/
def sampleWalk : Walk := .read 700 fun v => .addr 5 [(701, v)]

/-- With an open Translate: a string is turned away before it; a walk reads words that are there, without value, and barred. -/
theorem wit_AddressingChanges_opened :
    let s := { userAt [] [(700, .int 1)] with cfg := { quiet with translator := .opened } }
    let b := { s with diskOp := .busy .load 1 0 0 }
    (s.memWf ∧ s.mode = .unpriv ∧ s.cfg.translator = .opened ∧ immInRange s.cfg 4201 = true ∧
      memAddr .read (.str ['a']) s = .exc (.illegalMem (.str ['a'])) s) ∧
    physRead 700 s = .ok (.int 1) s ∧ physRead 701 s = .fault .noValue ∧ physRead 700 b = .refuse .pageLocked := by
  decide +kernel

/-- R41, R138: the walk's answer rests on the word it read; in the page of a pending load it is refused. -/
theorem test_walk :
    let s := { userAt [] [(700, .int 1)] with cfg := { quiet with translator := .opened } }
    (match sampleWalk.run s with | .ok p t => decide (p = 5 ∧ t.peek 701 = some (.int 1) ∧ t.touched = [(701, none)]) | _ => false) = true ∧
    sampleWalk.run { s with diskOp := .busy .load 1 0 0 } = .refuse .pageLocked := by
  decide +kernel

/-- Addresses 511 and 512, and the first word of a locked page. -/
theorem wit_RomAndPendingPagesAreBarred :
    511 < 512 ∧ 512 ≤ 25600 ∧ { privAt [] [] with diskOp := .busy .load 50 7 0 }.diskOp = .busy .load 50 7 0 ∧ 25600 / 512 = (50 : Fin 128).val ∧
    { privAt [] [(30720, .int 1)] with diskOp := .busy .store 60 100 0 }.peek 30720 = some (.int 1) ∧
    readLocked (privAt [] []) 700 = false ∧ (privAt [] []).peek 700 = none := by
  decide +kernel

theorem wit_MovToRegisterCompletes :
    (privAt [] []).ip = .int 600 ∧ Accepts [.port 0, .gpr 0] (privAt [] []) ∧ readReg (.gpr 0) (privAt [] []) = .ok (.int 0) (privAt [] []) ∧
    Accepts [.gpr 19] (userAt [] []) :=
  ⟨by decide +kernel, ⟨by decide +kernel, by decide +kernel⟩, by decide +kernel, ⟨by decide +kernel, by decide +kernel⟩⟩

theorem wit_MovFromMemoryCompletes :
    let s := userAt [(.gpr 2, .int 4200)] [(21096, .int 6)]
    let t := stateOr (memAddr .read (.int 4200) s) s
    s.ip = .int 2048 ∧ t.peek 21096 = some (.int 6) ∧ readLocked t 21096 = false ∧ readReg (.gpr 2) s = .ok (.int 4200) s ∧
    memAddr .read (.int 4200) s = .ok 21096 t := by
  decide +kernel

theorem wit_MovFromMemoryCompletes_accepts : Accepts [.gpr 0, .gpr 2] (userAt [(.gpr 2, .int 4200)] [(21096, .int 6)]) :=
  ⟨by decide +kernel, by decide +kernel⟩

theorem wit_MovToMemoryCompletes :
    let s := userAt [(.gpr 2, .int 4201), (.gpr 0, .int 6)] []
    let t := stateOr (memAddr .write (.int 4201) s) s
    s.memWf ∧ s.ip = .int 2048 ∧ readReg (.gpr 0) s = .ok (.int 6) s ∧ 512 ≤ 21097 ∧ t.diskOp = .idle ∧
    readReg (.gpr 2) s = .ok (.int 4201) s ∧ memAddr .write (.int 4201) s = .ok 21097 t := by
  decide +kernel

theorem wit_MovToMemoryCompletes_accepts : Accepts [.gpr 2, .gpr 0] (userAt [(.gpr 2, .int 4201), (.gpr 0, .int 6)] []) :=
  ⟨by decide +kernel, by decide +kernel⟩

theorem wit_InvalidP0ReadsAsAnyWord : State.reset.p0Valid = false ∧ ¬ (Reg.port 1 = .port 0 ∧ State.reset.p0Valid = false) := by decide

theorem wit_PrivilegeAndNamedRegistersAreChecked :
    (privilegedInstr .halt = true ∧ (userAt [] []).mode = .unpriv) ∧
    (privilegedInstr (.encrypt .ip) = true ∧ State.reset.mode = .priv ∧ Reg.ip ∈ instrRegs (.encrypt .ip)) ∧
    (privilegedInstr (.movRegReg (.gpr 0) .ptbr) = false ∧ Reg.ip ∉ instrRegs (.movRegReg (.gpr 0) .ptbr) ∧
      ∃ r ∈ instrRegs (.movRegReg (.gpr 0) .ptbr), r.privileged = true) ∧
    (Reg.ip ∉ instrRegs (.push .sp) ∧ ∀ r ∈ instrRegs (.push .sp), r.privileged = false) := by
  decide +kernel


/-- INT 0 and INT 18, the two ends of the range. -/
theorem wit_IntEntersItsHandler :
    let t := stateOr (memAddr .write (.int 4201) (userAt [] [])) State.reset
    (userAt [] []).memWf ∧ (userAt [] []).mode = .unpriv ∧ (0 : Int) ≤ 0 ∧ (18 : Int) ≤ 18 ∧ (userAt [] []).ip = .int 2048 ∧
    (userAt [] []).sp = .int 4200 ∧ memAddr .write (.int (4200 + 1)) (userAt [] []) = .ok 21097 t ∧ 512 ≤ 21097 ∧ t.diskOp = .idle := by
  decide +kernel

/-- INT -1 and INT 19; an SP that is not an Int; a push address past PTLR (V51). -/
theorem wit_IntThatCannotEnterTraps :
    let s := userAt [(.sp, .int 5119)] []
    (privAt [] []).mode = .priv ∧ s.mode = .unpriv ∧ ((-1 : Int) < 0 ∨ 18 < (-1 : Int)) ∧ ((19 : Int) < 0 ∨ 18 < (19 : Int)) ∧
    (userAt [(.sp, .str ['x'])] []).sp = .str ['x'] ∧ s.ip = .int 2048 ∧ s.sp = .int 5119 ∧ immInRange s.cfg (2048 + 2) = true ∧
    memAddr .write (.int (5119 + 1)) s = .exc (.illegalMem (.int 5120)) s := by
  decide +kernel

/-- IsExact at the ends of the range: INT_MAX is itself, the number after it and the one before INT_MIN are free. -/
theorem wit_IsExact_bounds : IsExact quiet 2147483647 (.int 2147483647) ∧ IsExact quiet 2147483648 (anyWord quiet 0) ∧
    IsExact { quiet with intMin := 0 } (0 - 1) (anyWord { quiet with intMin := 0 } 0) :=
  ⟨⟨fun _ => rfl, fun h => absurd h (by decide)⟩, ⟨fun h => absurd h (by decide), fun _ => ⟨0, rfl⟩⟩,
    ⟨fun h => absurd h (by decide), fun _ => ⟨0, rfl⟩⟩⟩

theorem wit_JumpsAndBranchesSetOnlyIp :
    let s := privAt [(.gpr 0, .int 0), (.gpr 1, .str [])] []
    s.ip = .int 600 ∧ readReg (.gpr 0) s = .ok (.int 0) s ∧ readReg (.gpr 1) s = .ok (.str []) s := by
  decide +kernel

theorem wit_JumpsAndBranches_accepts : Accepts [.gpr 0] (privAt [(.gpr 0, .int 0), (.gpr 1, .str [])] []) :=
  ⟨by decide +kernel, by decide +kernel⟩

theorem wit_CallPushesAndRetPopsIp :
    let s := userAt [] [(21096, .int 2052)]
    s.memWf ∧ s.ip = .int 2048 ∧ s.sp = .int 4200 ∧
    memAddr .write (.int (4200 + 1)) s = .ok 21097 (stateOr (memAddr .write (.int 4201) s) s) ∧
    memAddr .read (.int 4200) s = .ok 21096 (stateOr (memAddr .read (.int 4200) s) s) ∧
    (stateOr (memAddr .read (.int 4200) s) s).peek 21096 = some (.int 2052) ∧
    readLocked (stateOr (memAddr .read (.int 4200) s) s) 21096 = false := by
  decide +kernel

/-- Operands for the disk macros: the last page and block, in a register and given. -/
def diskState : State := privAt [(.gpr 1, .int 127), (.gpr 2, .int 511)] []

/-- For LoadiCopiesTheBlock and LoadAndStoreStartATransfer. -/
theorem wit_disk_macros :
    diskState.memWf ∧ diskState.diskWf ∧ diskState.mode = .priv ∧ diskState.ip = .int 600 ∧
    readRegImm (.reg (.gpr 1)) diskState = .ok (.int ((127 : Fin 128).val : Nat)) diskState ∧
    readRegImm (.imm 511) diskState = .ok (.int ((511 : Fin 512).val : Nat)) diskState ∧ diskState.diskOp = .idle ∧ (127 : Fin 128) ≠ 0 ∧
    0 < diskState.cfg.dtime := by
  decide +kernel

/-- For LoadiCopiesTheBlock, LoadAndStoreStartATransfer, TransferWithNoDelayCompletesAtOnce and DiskMacrosCheckTheirOperands. -/
theorem wit_disk_macros_accept : Accepts (regsOf (.reg (.gpr 1)) ++ regsOf (.imm 511)) diskState := ⟨by decide +kernel, by decide +kernel⟩

theorem wit_TransferWithNoDelayCompletesAtOnce :
    let s := { diskState with cfg := { quiet with dtime := 0 } }
    s.memWf ∧ s.diskWf ∧ s.mode = .priv ∧ s.ip = .int 600 ∧ readRegImm (.reg (.gpr 1)) s = .ok (.int ((127 : Fin 128).val : Nat)) s ∧
    readRegImm (.imm 511) s = .ok (.int ((511 : Fin 512).val : Nat)) s ∧ s.diskOp = .idle ∧ s.cfg.dtime = 0 := by
  decide +kernel

/-- Page 128 and block 512 are out of range, 127 and 511 are the last; a pending transfer; page 0. -/
theorem wit_DiskMacrosCheckTheirOperands :
    (∀ n : Nat, n ≤ 127 → Word.int 128 ≠ .int n) ∧ (∀ m : Nat, m ≤ 511 → Word.int 512 ≠ .int m) ∧
    { diskState with diskOp := .busy .load 50 7 0 }.diskOp ≠ .idle ∧ diskState.diskOp = .idle ∧
    readRegImm (.imm 0) diskState = .ok (.int (0 : Nat)) diskState :=
  ⟨fun n h e => by have := Word.int.inj e; omega, fun n h e => by have := Word.int.inj e; omega, by decide, by decide +kernel, rfl⟩

/-- For OutDisplaysP1AndInStartsTheWait and IniTakesTheUsersWord. -/
theorem wit_console : (privAt [] []).mode = .priv ∧ (privAt [] []).ip = .int 600 ∧ (privAt [] []).consoleWait = false ∧
    (privAt [] []).cfg.debug = true ∧ (privAt [] []).userIni = [] ∧ { privAt [] [] with userIni := [.int 42] }.userIni = [.int 42] ∧
    { privAt [] [] with consoleWait := true }.consoleWait = true ∧ { privAt [] [] with cfg := { quiet with debug := false } }.cfg.debug = false := by
  decide +kernel

theorem wit_UserInputReachesOnlyAWaitingConsole :
    (privAt [] []).userGap = [] ∧ { privAt [] [] with userGap := [none] }.userGap = [none] ∧
    { privAt [] [] with userGap := [some (.int 42)] }.userGap = [some (.int 42)] ∧ { privAt [] [] with waiting := true }.waiting = true ∧
    (privAt [] []).waiting = false ∧ (privAt [] []).consoleWait = false ∧ { privAt [] [] with consoleWait := true }.consoleWait = true := by
  decide +kernel

/-- R96 (3): the result is the largest number; the next one overflows. -/
theorem wit_ArithmeticWritesTheExactResult :
    let s := privAt [(.gpr 0, .int 2147483646), (.gpr 1, .int 1)] []
    s.ip = .int 600 ∧ readReg (.gpr 0) s = .ok (.int 2147483646) s ∧ readReg (.gpr 1) s = .ok (.int 1) s ∧ s.cfg.intMin ≤ 2147483646 + 1 ∧
    2147483646 + 1 ≤ s.cfg.intMax := by
  decide +kernel

theorem wit_arith_accepts : Accepts [.gpr 0, .gpr 1] (privAt [(.gpr 0, .int 2147483646), (.gpr 1, .int 1)] []) ∧
    Accepts [.gpr 0] (privAt [(.gpr 0, .int 2147483646), (.gpr 1, .int 1)] []) :=
  ⟨⟨by decide +kernel, by decide +kernel⟩, ⟨by decide +kernel, by decide +kernel⟩⟩

theorem wit_DivisionWritesQuotientAndRemainder :
    let s := privAt [(.gpr 0, .int 0), (.gpr 1, .int 1)] []
    s.cfg = quiet ∧ s.ip = .int 600 ∧ readReg (.gpr 0) s = .ok (.int 0) s ∧ (0 : Int) ≤ 0 ∧ 0 ≤ s.cfg.intMax ∧
    readReg (.gpr 1) s = .ok (.int 1) s ∧ (0 : Int) < 1 := by
  decide +kernel

/-- A zero divisor; a string operand; a negative operand; the bounds of the range and the numbers next to them. -/
theorem wit_ArithmeticLaws :
    ((ArithOp.div = .div ∨ ArithOp.div = .mod) ∧ Word.int 0 = .int 0) ∧ ¬ ((ArithOp.add = .div ∨ ArithOp.add = .mod) ∧ Word.int 0 = .int 0) ∧
    (∃ cs, Word.str ['a'] = .str cs) ∧ ((ArithOp.mod = .div ∨ ArithOp.mod = .mod) ∧ ((-1 : Int) < 0 ∨ (2 : Int) < 0)) ∧
    State.reset.cfg.intMin ≤ -2147483648 ∧ (-2147483649 : Int) < State.reset.cfg.intMin ∧ (2147483647 : Int) ≤ State.reset.cfg.intMax ∧
    State.reset.cfg.intMax < 2147483648 :=
  ⟨by decide, by decide, ⟨_, rfl⟩, by decide, by decide, by decide, by decide, by decide⟩

/-- A zero divisor given and in a register; an overflow of two registers and of a register with 1. -/
theorem wit_ArithmeticTrapsAndRefusals :
    let s := userAt [(.gpr 0, .int 7)] []
    let t := privAt [(.gpr 0, .int 2147483647), (.gpr 1, .int 1)] []
    readReg (.gpr 0) s = .ok (.int 7) s ∧ readReg (.gpr 1) s = .ok (.int 0) s ∧ s.mode = .unpriv ∧ t.mode = .priv ∧
    readReg (.gpr 0) t = .ok (.int 2147483647) t ∧ readReg (.gpr 1) t = .ok (.int 1) t ∧
    arith .add (.int 2147483647) (.int 1) t = .refuse .overflow := by
  decide +kernel

theorem wit_ArithmeticTraps_accepts : Accepts [.gpr 0, .gpr 1] (userAt [(.gpr 0, .int 7)] []) ∧ Accepts [.gpr 0] (userAt [(.gpr 0, .int 7)] []) :=
  ⟨⟨by decide +kernel, by decide +kernel⟩, ⟨by decide +kernel, by decide +kernel⟩⟩

theorem wit_ComparisonsWriteOneOrZero :
    let s := privAt [(.gpr 0, .int 5), (.gpr 1, .int 5), (.gpr 2, .str ['5'])] []
    s.ip = .int 600 ∧ readReg (.gpr 0) s = .ok (.int 5) s ∧ readReg (.gpr 1) s = .ok (.int 5) s ∧ readReg (.gpr 2) s = .ok (.str ['5']) s ∧
    (Instr.le (.gpr 0) (.gpr 1), true) ∈ [(Instr.ge (.gpr 0) (.gpr 1), decide ((5 : Int) ≤ 5)), (.le (.gpr 0) (.gpr 1), decide ((5 : Int) ≤ 5))] := by
  decide +kernel

theorem wit_Comparisons_accepts : Accepts [.gpr 0, .gpr 1] (privAt [(.gpr 0, .int 5), (.gpr 1, .int 5), (.gpr 2, .str ['5'])] []) :=
  ⟨by decide +kernel, by decide +kernel⟩

theorem wit_PushAndPopMoveTheTop :
    let s := userAt [(.gpr 4, .int 8)] [(21096, .int 9)]
    s.memWf ∧ s.ip = .int 2048 ∧ s.sp = .int 4200 ∧ readReg (.gpr 4) s = .ok (.int 8) s ∧
    memAddr .write (.int (4200 + 1)) s = .ok 21097 (stateOr (memAddr .write (.int 4201) s) s) ∧
    memAddr .read (.int 4200) s = .ok 21096 (stateOr (memAddr .read (.int 4200) s) s) ∧
    (stateOr (memAddr .read (.int 4200) s) s).peek 21096 = some (.int 9) := by
  decide +kernel

theorem wit_PushAndPop_accepts : Accepts [.gpr 4] (userAt [(.gpr 4, .int 8)] [(21096, .int 9)]) ∧ Accepts [.sp] (userAt [] []) :=
  ⟨⟨by decide +kernel, by decide +kernel⟩, ⟨by decide +kernel, by decide +kernel⟩⟩

/-- The lowest and the highest SP. -/
theorem wit_BackupPushesTheRegisters :
    let s := privAt [(.sp, .int 511)] []
    let t := privAt [(.sp, .int 65514)] []
    s.cfg = quiet ∧ s.memWf ∧ s.mode = .priv ∧ s.ip = .int 600 ∧ s.sp = .int (511 : Nat) ∧ 511 ≤ 511 ∧ 511 + 21 ≤ 65535 ∧ s.diskOp = .idle ∧
    t.sp = .int (65514 : Nat) ∧ 65514 + 21 ≤ 65535 := by
  decide +kernel

theorem wit_RestorePopsTheRegisters :
    let s := privAt [(.sp, .int 40021)] ((List.range 21).map fun i => (40001 + i, .int i))
    let vs := (List.range 21).map fun i => Word.int i
    s.cfg = quiet ∧ s.mode = .priv ∧ s.ip = .int 600 ∧ s.sp = .int ((40000 : Nat) + 21) ∧ 40000 + 21 ≤ 65535 ∧ vs.length = 21 ∧
    (∀ j, j < 21 → s.peek (40000 + 1 + j) = vs[j]?) ∧ s.diskOp = .idle := by
  decide +kernel

/-- RESTORE in the very state BACKUP left. -/
theorem wit_RestoreUndoesBackup :
    let s := privAt [(.sp, .int 40000), (.bp, .int 7)] []
    let u := nextOr (exec .backup s) s
    s.cfg = quiet ∧ s.memWf ∧ s.mode = .priv ∧ s.ip = .int 600 ∧ s.sp = .int (40000 : Nat) ∧ onNext (exec .backup s) (fun t => t = u) = true ∧
    u.cfg = s.cfg ∧ u.mode = .priv ∧ u.ip = .int 602 ∧ u.diskOp = .idle := by
  decide +kernel

/-- V81 to V83: address conditions of a MOV, and an SP that is not an Int. -/
theorem wit_MemoryOperandsAndStackTrap :
    let s := userAt [(.gpr 2, .int 5632), (.sp, .int 5119)] []
    readReg (.gpr 2) s = .ok (.int 5632) s ∧ memAddr .read (.int 5632) s = .exc (.illegalMem (.int 5632)) s ∧
    memAddr .write (.int 5632) s = .exc (.illegalMem (.int 5632)) s ∧ s.sp = .int 5119 ∧ s.ip = .int 2048 ∧
    memAddr .write (.int (5119 + 1)) s = .exc (.illegalMem (.int 5120)) s ∧ memAddr .read (.int 5119) s = .exc (.pageFault (.int 9)) s ∧
    (userAt [(.sp, .str ['x'])] []).sp = .str ['x'] := by
  decide +kernel

theorem wit_MemoryOperands_accepts : Accepts [.gpr 0, .gpr 2] (userAt [(.gpr 2, .int 5632), (.sp, .int 5119)] []) :=
  ⟨by decide +kernel, by decide +kernel⟩

/-- A word without value (700), one in the ROM (100) and one in the page of a pending load (25600); context U with logical page 8 mapped
to page 0. -/
theorem wit_BarredMemoryStopsTheInstruction :
    let s := privAt [(.gpr 2, .int 700), (.sp, .int 700)] []
    let b := { s with diskOp := .busy .load 50 7 0 }
    let u := userAt [] [(29712, .int 0)]
    let v := stateOr (memAddr .write (.int 4201) u) u
    (physRead 700 s = .fault .noValue ∧ physRead 25600 b = .refuse .pageLocked ∧ s.sp = .int 700 ∧ s.ip = .int 600 ∧
      readReg (.gpr 2) s = .ok (.int 700) s ∧ memAddr .read (.int 700) s = .ok 700 s ∧ memAddr .write (.int 100) s = .ok 100 s ∧
      memAddr .write (.int 25600) b = .ok 25600 b ∧ u.mode = .unpriv ∧ u.sp = .int 4200 ∧ memAddr .write (.int (4200 + 1)) u = .ok 105 v) ∧
    (∀ w, physWrite 105 w v = .refuse .romWrite) ∧ ∀ w, physWrite 25600 w b = .refuse .pageLocked :=
  ⟨by decide +kernel, fun _ => rfl, fun _ => rfl⟩

/-- BACKUP and RESTORE in PRIV mode: at the first word (`j` = 0) one in the ROM, one without value and one past 65535; at the second one
past 65535 and one below 0. -/
theorem wit_BackupAndRestoreStop :
    let s := privAt [] [(0, .int 1)]
    s.cfg = quiet ∧ s.mode = .priv ∧ Pushable s 65534 1 ∧ (65535 : Int) < 65534 + 1 + 1 ∧ Pushable s 510 0 ∧ (510 : Int) + 1 + 0 = 511 ∧
    Poppable s 0 1 ∧ (0 : Int) - 1 < 0 ∧ s.cfg.intMin ≤ 0 - 1 ∧ Poppable s 700 0 ∧ readLocked s 700 = false ∧ s.peek 700 = none ∧
    readLocked { s with diskOp := .busy .load 50 7 0 } 25600 = true :=
  ⟨by decide +kernel, rfl, fun i hi => ⟨65535, by omega, by omega, by omega, unlocked_of_idle rfl _⟩, by decide, fun i hi => by omega, by decide,
    fun i hi => ⟨0, by omega, by omega, by decide +kernel, .int 1, by decide +kernel⟩, by decide, by decide, fun i hi => by omega,
    by decide +kernel, by decide +kernel, by decide +kernel⟩

theorem wit_BarredMemory_accepts : Accepts [.gpr 2, .gpr 2] (privAt [(.gpr 2, .int 700), (.sp, .int 700)] []) ∧
    Accepts [.gpr 2] (privAt [(.gpr 2, .int 700), (.sp, .int 700)] []) :=
  ⟨⟨by decide +kernel, by decide +kernel⟩, ⟨by decide +kernel, by decide +kernel⟩⟩

theorem wit_NopAndBrkpOnlyAdvance : State.reset.ip = .int 0 := rfl

/-- V118, an SP that does not translate, and one that is not an Int. -/
theorem wit_IretReturnsToUnprivilegedMode :
    let s := { userAt [(.sp, .int 4201)] [(21097, .int 2052)] with mode := .priv }
    let t := stateOr (translate .read (.int 4201) s) s
    s.mode = .priv ∧ s.sp = .int 4201 ∧ translate .read (.int 4201) s = .ok 21097 t ∧ readLocked t 21097 = false ∧
    t.peek 21097 = some (.int 2052) ∧ translate .read (.int 5119) s = .exc (.pageFault (.int 9)) s ∧
    { s with sp := .str ['x'] }.sp = .str ['x'] := by
  decide +kernel

theorem wit_HaltStopsTheMachine : State.reset.mode = .priv ∧ State.reset.diskWf ∧ { State.reset with halted := true }.halted = true :=
  ⟨rfl, ⟨.nil, nofun⟩, rfl⟩

theorem wit_EncryptAppliesTheFunction : State.reset.mode = .priv ∧ Reg.gpr 0 ≠ .ip ∧ State.reset.ip = .int 0 ∧
    readReg (.gpr 0) State.reset = .ok (.int 0) State.reset := by decide +kernel

/-- With no touched word; a page, an address and a word that is none to report. -/
theorem wit_ExceptionEntry :
    let s := userAt [] []
    let t := stateOr (memAddr .write (.int 4201) s) s
    s.mode = .unpriv ∧ s.memWf ∧ s.touched = [] ∧ s.ip = .int 2048 ∧ immInRange s.cfg 2048 = true ∧ s.sp = .int 4200 ∧
    memAddr .write (.int (4200 + 1)) (settleTouched s.touched s) = .ok 21097 t ∧ 512 ≤ 21097 ∧ t.diskOp = .idle ∧
    wordFits s.cfg (.int 5) = true ∧ wordFits s.cfg (.int 5120) = true ∧ wordFits s.cfg (.int 2147483648) = false := by
  decide +kernel

/-- With the auxiliary word of the code page touched by the fetch. -/
theorem wit_ExceptionEntry_touched :
    let s := { userAt [] [] with touched := [(29705, some (.str ['0', '1', '0', '0']))] }
    (∀ x ∈ s.touched, x.1 < 65536) ∧
    ∃ t, memAddr .write (.int (4200 + 1)) (settleTouched s.touched s) = .ok 21097 t ∧ t.diskOp = .idle := by
  intro s
  have h : ∀ b : Bool, ∃ t, memAddr .write (.int (4200 + 1))
      { (if s.cfg.translator = .opened ∨ b = true then s.poke 29705 (some (.str ['0', '1', '0', '0'])) else s) with freeCount := 1 } =
        .ok 21097 t ∧ t.diskOp = .idle := fun b =>
    ⟨stateOr (memAddr .write (.int (4200 + 1))
      { (if s.cfg.translator = .opened ∨ b = true then s.poke 29705 (some (.str ['0', '1', '0', '0'])) else s) with freeCount := 1 }) s,
      by revert b; decide +kernel⟩
  exact ⟨by decide, h (Config.freeBit 0)⟩

/-- The push of a disk interrupt, and the entries that are refused: a string or a number that is no word in IP, a string in SP, a push
address past PTLR. -/
theorem wit_DeviceInterruptEntry :
    let s := { userAt [] [] with pendDisk := true }
    let t := stateOr (memAddr .write (.int 4201) s) s
    s.mode = .unpriv ∧ s.memWf ∧ s.pending .disk = true ∧ s.ip = .int 2048 ∧ immInRange s.cfg 2048 = true ∧ s.sp = .int 4200 ∧
    memAddr .write (.int (4200 + 1)) s = .ok 21097 t ∧ 512 ≤ 21097 ∧ t.diskOp = .idle ∧
    { s with ip := .str [] }.ip = .str [] ∧ wordFits s.cfg { s with ip := .int 2147483648 }.ip = false ∧
    { s with sp := .str ['x'] }.sp = .str ['x'] ∧
    memAddr .write (.int (5119 + 1)) { s with sp := .int 5119 } = .exc (.illegalMem (.int 5120)) { s with sp := .int 5119 } := by
  decide +kernel

theorem wit_FaultLeavesTouchedWordsOldOrNew :
    let l : List (Nat × Option Word) := [(29713, some (.str ['0', '1', '1', '0'])), (65535, none)]
    (userAt [] []).memWf ∧ (l.map Prod.fst).Nodup ∧ (∀ x ∈ l, x.1 < 65536) ∧ (65535, none) ∈ l ∧
    { quiet with translator := .opened }.translator = .opened := by
  decide +kernel

/-- R156, I36: what an open Translate wrote for a faulting instruction is undone. -/
theorem test_settle_opened :
    let s := { privAt [] [(700, .int 1), (701, .int 2)] with cfg := { quiet with translator := .opened } }
    let t := settleTouched [(700, some (.int 9)), (701, none)] s
    t.peek 700 = some (.int 9) ∧ t.peek 701 = none := by
  decide +kernel

/-- A push address in the ROM (logical page 8 mapped to page 0), in the page of a pending transfer, and through a table whose page is being
loaded, for an exception and for a device interrupt alike: no word is noted. -/
theorem wit_TrapEntryPushIsBarred :
    let u := userAt [] [(29712, .int 0)]
    let v := { userAt [] [] with diskOp := .busy .store 41 7 0 }
    let w := { userAt [] [] with diskOp := .busy .load 58 7 0 }
    let x := stateOr (memAddr .write (.int 4201) v) v
    settleTouched u.touched u = u ∧ memAddr .write (.int (4200 + 1)) u = .ok 105 (stateOr (memAddr .write (.int 4201) u) u) ∧ 105 < 512 ∧
    memAddr .write (.int (4200 + 1)) v = .ok 21097 x ∧ x.diskOp = .busy .store 41 7 0 ∧ 21097 / 512 = 41 ∧
    memAddr .write (.int (4200 + 1)) w = .refuse .pageLocked ∧
    memAddr .write (.int (4200 + 1)) { u with ptbr := .int 900 } = .fault .noValue := by
  decide +kernel

/-- A string or a number that is no word in IP, a string in SP, a push address past PTLR. -/
theorem wit_ExceptionsThatCannotBeTaken :
    let s := userAt [(.sp, .int 5119)] []
    State.reset.mode = .priv ∧ s.mode = .unpriv ∧ { s with ip := .str [] }.ip = .str [] ∧
    wordFits s.cfg { s with ip := .int 2147483648 }.ip = false ∧ s.ip = .int 2048 ∧ immInRange s.cfg 2048 = true ∧
    { s with sp := .str ['x'] }.sp = .str ['x'] ∧ s.sp = .int 5119 ∧
    memAddr .write (.int (5119 + 1)) (settleTouched s.touched s) = .exc (.illegalMem (.int 5120)) s := by
  decide +kernel

theorem wit_PendingInterruptComesBeforeTheInstruction :
    let s := { userAt [] [] with pendTimer := true, pendDisk := true }
    s.halted = false ∧ s.userGap = [] ∧ s.mode = .unpriv ∧ s.pending .disk = true := by
  decide +kernel

/-- NOP; words that are illegal; a fetch from a page that is not valid, from a word without value and from an odd address. -/
theorem wit_StepRunsTheDecodedInstruction :
    let s := userAt [] (code 35840 "NOP")
    let x := userAt [] [(35840, .int 5), (35841, .int 6)]
    let f := { s with ip := .int 2560 }
    s.halted = false ∧ dueInterrupt (userGapStep s) = none ∧ fetch (userGapStep s) = .ok (text "NOP") (stateOr (fetch s) s) ∧
    (decodeWords (stateOr (fetch s) s).cfg (text "NOP").1 (text "NOP").2).toOption = some .nop ∧
    onNext (exec .nop (stateOr (fetch s) s)) (fun _ => true) = true ∧
    fetch (userGapStep x) = .ok (.int 5, .int 6) (stateOr (fetch x) x) ∧
    decodeWords (stateOr (fetch x) x).cfg (.int 5) (.int 6) = .error .notText ∧
    fetch (userGapStep f) = .exc (.pageFault (.int 5)) f ∧ fetch (userGapStep (privAt [] [])) = .fault .noValue ∧
    fetch (userGapStep { privAt [] [] with ip := .int 601 }) = .refuse .badIp := by
  decide +kernel

/-- With open semantics the supplement leaves `exec`, the source's own instructions do not. -/
theorem wit_StepRuns_opened :
    let s := { privAt [] (code 600 "INR R0") with cfg := { quiet with isaMeaning := .opened } }
    (fetch (userGapStep s) = .ok (text "INR R0") s ∧
      (decodeWords s.cfg (text "INR R0").1 (text "INR R0").2).toOption = some (.inr (.gpr 0)) ∧
      (Instr.inr (.gpr 0)).supplement = true ∧ s.cfg.isaMeaning = .opened ∧ (Instr.movRegStr (.gpr 0) []).supplement = true ∧
      (Instr.movRegImm (.gpr 0) 0).supplement = false) ∧
    execute .consoleOut s = exec .consoleOut s ∧ execute (.inr (.gpr 0)) s = finish (extension (.inr (.gpr 0)) s) :=
  ⟨by decide +kernel, rfl, rfl⟩

/-- An effect that stores and writes registers, EC among them. -/
def sampleEffect : Effect where
  stores := [(.int 701, .int 5)]
  regs := [(.gpr 0, .int 9), (.ec, .int 7)]
  target := none
  ending := .goOn

/-- In PRIV mode (`s`) the accesses of an effect, in UNPRIV mode (`u`) what is turned away; the registers that may be written. -/
theorem wit_OpenInstructionsObeyTheMachinesRules :
    let s := privAt [] [(700, .int 1)]
    let u := userAt [] []
    (s.memWf ∧ s.mode = .priv ∧ s.ip = .int 600 ∧ memRead .read (.int 700) s = .ok (.int 1) s ∧
      memRead .read (.int 65536) s = .exc (.illegalMem (.int 65536)) s ∧ locateAll sampleEffect.stores s = .ok [(701, .int 5)] s ∧
      locateAll [(.int (-1), .int 5)] s = .exc (.illegalMem (.int (-1))) s ∧
      storeAll [(701, .int 5)] s = .ok () (s.poke 701 (some (.int 5))) ∧ sampleEffect.ending = .goOn) ∧
    (Reg.ip ∈ instrRegs (.inr .ip) ∧ .ec ∈ instrRegs (.inr .ec) ∧ Reg.ip ∉ instrRegs (.inr .ec) ∧ Reg.ec.privileged = true ∧
      u.mode = .unpriv ∧ (Reg.ec, Word.int 7) ∈ sampleEffect.regs ∧ (sampleEffect.regs.map Prod.fst).Nodup) ∧
    (mayWrite quiet (.inr (.gpr 0)) (.gpr 0) = true ∧ mayWrite quiet (.inr (.gpr 0)) .ec = false ∧ mayWrite quiet (.inr .ec) .ec = true ∧
      mayWrite { quiet with statusWrites := .byMov } (.inr .ec) .ec = false ∧
      mayWrite { quiet with statusWrites := .byMov } (.movRegStr .ec []) .ec = true) := by
  decide +kernel

/-- A return from a trap as IRET's (V118): with a stack to return by, with one that does not translate, and with a table without value. -/
theorem wit_OpenInstructions_return :
    let i := Instr.inr (.gpr 0)
    let s := { userAt [(.sp, .int 4201)] [(21097, .int 2052)] with mode := .priv }
    let t := setAll i [(.gpr 0, .int 9)] s
    locateAll [] s = .ok [] s ∧ storeAll [] s = .ok () s ∧ s.memWf ∧ returnFromTrap t = .ok () (stateOr (returnFromTrap t) t) ∧
    returnFromTrap (setAll i [(.sp, .int 5119)] s) = .refuse .iretTranslate ∧
    returnFromTrap (setAll i [(.ptbr, .int 900)] s) = .fault .noValue := by
  decide +kernel

theorem wit_OpenInstructions_accepts : Accepts (instrRegs (.inr (.gpr 0))) (privAt [] [(700, .int 1)]) ∧
    Accepts (instrRegs (.inr (.gpr 0))) (userAt [] []) :=
  ⟨⟨by decide +kernel, by decide +kernel⟩, ⟨by decide +kernel, by decide +kernel⟩⟩

/-- R88: the effect's words are written and IP advances; R150: EC, which INR R0 does not name, stays; R156: with the arithmetic condition
nothing is written; R128: in UNPRIV mode the write of EC is an illegal instruction. -/
theorem test_open_effect :
    let s := privAt [] [(700, .int 1)]
    onNext (finish (sampleEffect.apply (.inr (.gpr 0)) s)) (fun t =>
      t.peek 701 = some (.int 5) && t.reg (.gpr 0) = .int 9 && t.reg .ec = .int 0 && t.ip = .int 602) = true ∧
    { sampleEffect with ending := .arith }.apply (.inr (.gpr 0)) s = .exc .arith s ∧
    sampleEffect.apply (.inr (.gpr 0)) (userAt [] []) = .exc .illegalInstr (userAt [] []) := by
  decide +kernel

/-- R73, R152: IP as an operand is refused before what the effect writes is looked at. -/
theorem test_open_operands (h : Config.openPrivileged (.addRegReg (.port 1) .ip) = false) :
    extension (.addRegReg (.port 1) .ip) (userAt [] []) = .refuse .ipOperand := by
  unfold extension
  rw [h]
  rfl

/-- R88, R94, R107: the results of INR EC and POP EC go to EC; where R150 prevails that of INR EC does not, and MOV EC, 1 writes it. -/
theorem test_status_writes :
    let m := { privAt [] [] with cfg := { quiet with statusWrites := .byMov } }
    onNext (exec (.inr .ec) (privAt [] [])) (fun t => t.ec = .int 1 && t.ip = .int 602) = true ∧
    onNext (exec (.pop .ec) (privAt [(.sp, .int 700)] [(700, .int 9)])) (fun t => t.ec = .int 9 && t.sp = .int 699) = true ∧
    onNext (exec (.inr .ec) m) (fun t => t.ec = .int 0 && t.ip = .int 602) = true ∧
    onNext (exec (.movRegImm .ec 1) m) (fun t => t.ec = .int 1) = true := by
  decide +kernel

/-- The last even address, an odd one, and one past the end. -/
theorem wit_FetchReadsTwoWordsAtAnEvenIp :
    let s := { privAt [] [(65534, .int 1), (65535, .int 2)] with ip := .int 65534 }
    s.mode = .priv ∧ s.ip = .int (65534 : Nat) ∧ 65534 % 2 = 0 ∧ s.peek 65534 = some (.int 1) ∧ s.peek (65534 + 1) = some (.int 2) ∧
    readLocked s 65534 = false ∧ readLocked s (65534 + 1) = false := by
  decide +kernel

/-- In UNPRIV mode: context U's code page, a page that is not valid, and an even IP whose next address is past INT_MAX. -/
theorem wit_FetchReads_unprivileged :
    let s := userAt [] (code 35840 "NOP")
    let t := stateOr (memAddr .fetch (.int 2048) { s with touched := [] }) s
    let u := stateOr (memAddr .fetch (.int 2049) t) s
    let f := { s with ip := .int 2560 }
    s.mode = .unpriv ∧ s.ip = .int 2048 ∧ immInRange s.cfg 2048 = true ∧ immInRange s.cfg (2048 + 1) = true ∧
    memAddr .fetch (.int 2048) { s with touched := [] } = .ok 35840 t ∧ readLocked t 35840 = false ∧ t.peek 35840 = some (text "NOP").1 ∧
    memAddr .fetch (.int (2048 + 1)) t = .ok 35841 u ∧ readLocked u 35841 = false ∧ u.peek 35841 = some (text "NOP").2 ∧
    memAddr .fetch (.int 2560) { f with touched := [] } = .exc (.pageFault (.int 5)) f ∧
    immInRange { quiet with intMax := 65536 } 65536 = true ∧ immInRange { quiet with intMax := 65536 } (65536 + 1) = false := by
  decide +kernel

theorem wit_FetchRefuses : (∀ n : Nat, n ≤ 65534 → n % 2 = 0 → { privAt [] [] with ip := .int 65536 }.ip ≠ .int n) ∧
    (∀ z : Int, { privAt [] [] with ip := .int 601 }.ip = .int z → z % 2 = 1) :=
  ⟨fun n h _ e => by have h2 : Word.int 65536 = .int n := e; have := Word.int.inj h2; omega,
    fun z e => by have h2 : Word.int 601 = .int z := e; have := Word.int.inj h2; omega⟩

/-- The count before and at XSM_TICKS. -/
theorem wit_TimerCountsUnprivilegedInstructions :
    let s := { userAt [] [] with cfg := { quiet with ticks := some 3 }, timerCount := 2 }
    onNext (retire .unpriv (.next s)) (fun _ => true) = true ∧ s.cfg.ticks = some 3 ∧ s.timerCount + 1 = 3 ∧
    { s with timerCount := 0 }.timerCount + 1 ≠ 3 ∧ (userAt [] []).cfg.ticks = none := by
  decide +kernel

/-- The count before and at XSM_DTIME. -/
theorem wit_DiskTransferCompletesAfterItsTime :
    let s := { userAt [] [] with diskOp := .busy .load 50 7 19 }
    s.memWf ∧ s.diskWf ∧ s.diskOp = .busy .load 50 7 19 ∧ onNext (retire .unpriv (.next s)) (fun _ => true) = true ∧ s.cfg.dtime ≤ 19 + 1 ∧
    18 + 1 < s.cfg.dtime := by
  decide +kernel

theorem wit_EveryStepKeepsTheInvariant : State.reset.Inv ∧ onNext (step State.reset) (fun _ => true) = true :=
  ⟨⟨reference_admissible, ⟨.nil, nofun⟩, ⟨.nil, nofun⟩, fun _ _ => rfl, nofun, fun t h => by cases h; decide, rfl⟩, by decide +kernel⟩

theorem reset_wordsFit : State.reset.WordsFit := by
  constructor
  · intro r
    cases r with
    | gpr i => revert i; decide
    | port i => revert i; decide
    | _ => decide
  · exact .inl (by decide)
  · intro a w h
    by_cases ha : a < 512
    · have := (by decide +kernel : ∀ a : Fin 512, (State.reset.peek a.val).all (wordFits State.reset.cfg) = true) ⟨a, ha⟩
      rwa [h] at this
    · have : romWord State.reset.cfg a = none := by
        unfold romWord
        simp only [show a ≠ 0 by omega, show a ≠ 1 by omega, show a ≠ 2 by omega, show a ≠ 3 by omega, if_false]
        rw [if_neg (by omega)]
      rw [show State.reset.peek a = romWord State.reset.cfg a from rfl, this] at h
      cases h
  · nofun
  · nofun
  · nofun
  · nofun

theorem wit_EveryStepKeepsWordsInRange : State.reset.Inv ∧ State.reset.WordsFit ∧ onNext (step State.reset) (fun _ => true) = true :=
  ⟨wit_EveryStepKeepsTheInvariant.1, reset_wordsFit, wit_EveryStepKeepsTheInvariant.2⟩

theorem wit_ConfigurationStaysAndTerminalGrows : onNext (step State.reset) (fun _ => true) = true := by decide +kernel

/-- IRET enters UNPRIV mode; a pending disk interrupt stays pending over a NOP; in PRIV mode INR EC changes
EC, and where R150 prevails MOV EC, 1 does; in UNPRIV mode OUT does, an illegal instruction. -/
theorem wit_ModePendingFlagsAndStatusRegistersChangeByRule :
    let s := { userAt [(.sp, .int 4201)] [(21097, .int 2052)] with mode := .priv }
    let d := { privAt [] [] with pendDisk := true }
    let m := { privAt [] [] with cfg := { quiet with statusWrites := .byMov } }
    let u := userAt [] []
    s.mode = .priv ∧ onNext (execute .iret s) (fun t => t.mode = .unpriv) = true ∧ d.pending .disk = true ∧
    onNext (execute .nop d) (fun _ => true) = true ∧ d.mode = .priv ∧ onNext (execute (.inr .ec) d) (fun t => t.ec ≠ d.ec) = true ∧
    m.mode = .priv ∧ m.cfg.statusWrites = .byMov ∧ onNext (execute (.movRegImm .ec 1) m) (fun t => t.ec ≠ m.ec) = true ∧
    u.mode = .unpriv ∧ onNext (execute .consoleOut u) (fun t => t.ec ≠ u.ec && t.mode = .priv) = true := by
  decide +kernel

theorem wit_UnprivilegedInstructionsLeavePrivilegedState :
    let s := userAt [] []
    s.mode = .unpriv ∧ onNext (execute (.push (.gpr 0)) s) (fun t => t.mode = .unpriv) = true := by
  decide +kernel

/-- With XSM_DTIME = 0 a STORE changes the disk at once. -/
theorem wit_OnlyStoreWritesTheDisk :
    let s := { privAt [] [(30720, .int 1)] with cfg := { quiet with dtime := 0 } }
    onNext (execute (.store (.imm 60) (.imm 100)) s) (fun t => t.peekDisk 51200 = some (.int 1) && s.peekDisk 51200 = none) = true := by
  decide +kernel

end Sys2Proof.Tests
end

/-! ### The addresses an access reaches in each mode (R38, R40) -/

section
namespace Sys2Proof.Machine

variable {s : State}

/-- A word has no physical address exactly when it differs from every `Int` of 0..65535. -/
theorem physAddr_eq_none {L : Word} : physAddr L = none ↔ ∀ n : Nat, n ≤ 65535 → L ≠ .int n := by
  simp only [Option.eq_none_iff_forall_ne_some, ne_eq, physAddr_eq_some, not_and']

/-- R38: in PRIV mode the physical address of a word is the address of the access. -/
theorem memAddr_priv_of_physAddr {k : Access} {L : Word} {a : Nat} (hm : s.mode = .priv) (h : physAddr L = some a) :
    memAddr k L s = .ok a s := by
  simp only [memAddr, hm, h]

/-- R40: in PRIV mode a word with no physical address is an illegal memory access. -/
theorem memAddr_priv_of_physAddr_none {k : Access} {L : Word} (hm : s.mode = .priv) (h : physAddr L = none) :
    memAddr k L s = .exc (.illegalMem L) s := by
  simp only [memAddr, hm, h]

/-- R41: in UNPRIV mode the address of an access is Translate's. -/
theorem memAddr_unpriv {k : Access} {L : Word} (hm : s.mode = .unpriv) : memAddr k L s = translate k L s := by
  simp only [memAddr, hm]

/-- Settles O8: PRIV mode goes by `physAddr`, whose failures are faults there, and UNPRIV mode by `translate`. -/
theorem privilegedAddressesArePhysical : Obligations.PrivilegedAddressesArePhysical := by
  refine fun s k => ⟨fun hm => ⟨fun n hn => ?_, fun L hL => ⟨?_, raise_priv hm⟩⟩, fun hm L => memAddr_unpriv hm⟩
  · exact memAddr_priv_of_physAddr hm (physAddr_eq_some.2 ⟨rfl, hn⟩)
  · exact memAddr_priv_of_physAddr_none hm (physAddr_eq_none.2 hL)

end Sys2Proof.Machine
end

/-! ### The checks before an instruction's operands are read (R66, R73, R152) -/

section
namespace Sys2Proof.Machine

variable {s : State} {i : Instr}

/-- R66: a privileged-only instruction in UNPRIV mode is an illegal instruction, whatever it would do. -/
theorem privilegedOnly_unpriv (hm : s.mode = .unpriv) (x : Res Unit) : privilegedOnly s x = .exc .illegalInstr s := by
  simp only [privilegedOnly, hm]

/-- R73 (1): IP among the registers named is refused. -/
theorem checkRegs_ip {rs : List Reg} (h : Reg.ip ∈ rs) : checkRegs rs s = .refuse .ipOperand := if_pos h

/-- R73 (2): without IP, a privileged register named in UNPRIV mode is an illegal instruction. -/
theorem checkRegs_privileged {rs : List Reg} (hip : Reg.ip ∉ rs) (hm : s.mode = .unpriv) (hr : ∃ r ∈ rs, r.privileged = true) :
    checkRegs rs s = .exc .illegalInstr s := by
  rw [checkRegs, if_neg hip, if_pos ⟨hm, List.any_eq_true.2 hr⟩]

/-- The registers a disk macro checks are those its two operands name. -/
theorem regsOf_append_eq_operandRegs (page block : RegImm) :
    regsOf page ++ regsOf block = [page.operand, block.operand].flatMap operandRegs := by
  cases page <;> cases block <;> rfl

/-- R77: in PRIV mode a disk macro begins with the check of the registers it names. -/
theorem diskMacroStep_priv (hm : s.mode = .priv) (page block : RegImm) (g : Fin 128 → Fin 512 → State → Res Unit) :
    ∃ f, diskMacroStep page block g s = (checkRegs ([page.operand, block.operand].flatMap operandRegs) s).bind f := by
  rw [diskMacroStep, privilegedOnly_priv hm, regsOf_append_eq_operandRegs]
  exact ⟨_, rfl⟩

/-- R118, R152 (3): a privileged-only instruction checks the mode before anything else. -/
theorem exec_eq_finish_privilegedOnly (hi : privilegedInstr i = true) : ∃ x, exec i s = finish (privilegedOnly s x) := by
  cases i with
  | loadi | load | store | consoleOut | consoleIn | consoleIni | iret | halt | backup | restore | encrypt => exact ⟨_, rfl⟩
  | _ => cases hi

/-- R73, R152 (4): an instruction that names a register and that the mode admits checks all the registers it names before anything
else. -/
theorem exec_eq_finish_checkRegs_bind (hp : privilegedInstr i = true → s.mode = .priv) (hr : instrRegs i ≠ []) :
    ∃ f, exec i s = finish ((checkRegs (instrRegs i) s).bind f) := by
  cases i with
  | loadi | load | store =>
    obtain ⟨f, hf⟩ := diskMacroStep_priv (hp rfl) _ _ _
    exact ⟨f, congrArg finish hf⟩
  | encrypt => exact ⟨_, congrArg finish (privilegedOnly_priv (hp rfl) _)⟩
  | jmp | intr | call | ret | nop | brkp | consoleOut | consoleIn | consoleIni | iret | halt | backup | restore =>
    exact absurd rfl hr
  | _ => exact ⟨_, rfl⟩

/-- Settles O17: the mode is checked first, then the registers named, and what either check answers is what the instruction answers. -/
theorem privilegeAndNamedRegistersAreChecked : Obligations.PrivilegeAndNamedRegistersAreChecked := by
  refine fun i s => ⟨fun hi hm => ?_, fun hp => ⟨fun hip => ?_, fun hip hm hr => ?_, fun hip hr => checkRegs_accepts ⟨hip, hr⟩⟩⟩
  · obtain ⟨x, hx⟩ := exec_eq_finish_privilegedOnly hi
    rw [hx, privilegedOnly_unpriv hm, finish_exc]
  · obtain ⟨f, hf⟩ := exec_eq_finish_checkRegs_bind hp (List.ne_nil_of_mem hip)
    rw [hf, checkRegs_ip hip, Res.bind_refuse, finish_refuse]
  · obtain ⟨f, hf⟩ := exec_eq_finish_checkRegs_bind hp (List.ne_nil_of_mem hr.choose_spec.1)
    rw [hf, checkRegs_privileged hip hm hr, Res.bind_exc, finish_exc]

end Sys2Proof.Machine
end

/-! ### Jumps and conditional branches (R74, R104, R105) -/

section
namespace Sys2Proof.Machine

variable {s t : State} {ri : Reg} {target n z : Int} {onZero : Bool}

theorem exec_jmp : exec (.jmp target) s = .next { s with ip := .int target } := rfl

theorem exec_jz : exec (.jz ri target) s = finish (branch true ri target s) := rfl

theorem exec_jnz : exec (.jnz ri target) s = finish (branch false ri target s) := rfl

/-- R104, R105: a branch on a number writes IP, with its target or with the next instruction's address. -/
theorem branch_int (ha : Accepts [ri] s) (hn : s.ip = .int n) (hr : readReg ri s = .ok (.int z) t) :
    branch onZero ri target s = .ok () { t with ip := .int (if decide (z = 0) = onZero then target else n + 2) } := by
  have hip : t.ip = .int n := by rw [readReg_state hr]; exact hn
  rw [branch, checkRegs_accepts ha, Res.bind_ok, hr, Res.bind_ok]
  by_cases hc : decide (z = 0) = onZero
  · simp only [if_pos hc]
  · simp only [if_neg hc, advance_int hip]

/-- R104, R105: a branch on a string is refused. -/
theorem branch_str {cs : List Char} (ha : Accepts [ri] s) (hr : readReg ri s = .ok (.str cs) t) :
    branch onZero ri target s = .refuse .stringBranch := by
  rw [branch, checkRegs_accepts ha, Res.bind_ok, hr, Res.bind_ok]

/-- Reading a register leaves P0_VALID as it is. -/
theorem readReg_p0Valid {v : Word} (h : readReg ri s = .ok v t) : t.p0Valid = s.p0Valid := by
  rw [readReg_state h]

/-- R104, R105: a branch on a number completes, and changes nothing but IP. -/
theorem finish_branch_int (ha : Accepts [ri] s) (hn : s.ip = .int n) (hr : readReg ri s = .ok (.int z) t) :
    ∃ u, finish (branch onZero ri target s) = .next u ∧ u.ip = .int (if decide (z = 0) = onZero then target else n + 2) ∧
      Frame [.ip] [] s u ∧ u.p0Valid = s.p0Valid :=
  ⟨_, congrArg finish (branch_int ha hn hr), rfl, (frame_readReg hr).trans (frame_ip _ (List.mem_singleton_self _)),
    show t.p0Valid = s.p0Valid from readReg_p0Valid hr⟩

/-- Settles O20: JMP is one write of IP; JZ and JNZ are the branch on zero and the branch on not zero. -/
theorem jumpsAndBranchesSetOnlyIp : Obligations.JumpsAndBranchesSetOnlyIp := by
  refine fun s t ri v n target =>
    ⟨⟨_, exec_jmp, rfl, frame_ip _ (List.mem_singleton_self _), rfl⟩, fun ha hn hr => ⟨fun z hz => ?_, fun cs hcs => ?_⟩⟩
  · subst hz
    have jz := finish_branch_int (onZero := true) (target := target) ha hn hr
    have jnz := finish_branch_int (onZero := false) (target := target) ha hn hr
    rw [exec_jz, exec_jnz]
    exact ⟨by simpa only [decide_eq_true_eq] using jz, by simpa only [decide_eq_false_iff_not, ite_not] using jnz⟩
  · subst hcs
    rw [exec_jz, exec_jnz, branch_str ha hr, branch_str ha hr]
    exact ⟨finish_refuse _, finish_refuse _⟩

end Sys2Proof.Machine
end

/-! ### What a successful translation does (R120 to R123) -/

section
namespace Sys2Proof.Machine

variable {s : State} {k : Access} {L new : Word} {old : Option Word} {x : Aux} {a e lp off q : Nat} {n b z : Int}

/-- R121: the auxiliary word of four bits is read back as those bits. -/
theorem auxOfWord_wordOfAux (x : Aux) : auxOfWord (wordOfAux x) = some x := by
  obtain ⟨r, v, w, d⟩ := x
  cases r <;> cases v <;> cases w <;> cases d <;> rfl

/-- R123: the bits after a successful translation. -/
theorem auxAfter_eq (k : Access) (x : Aux) : auxAfter k x = { x with ref := true, dirty := x.dirty || decide (k = .write) } := by
  cases k <;> rfl

/-- R121: the numbers of 0..127 are page numbers. -/
theorem pageOfWord_natCast (hq : q ≤ 127) : pageOfWord (.int q) = some q := by
  simp only [pageOfWord, Int.toNat_natCast, ite_eq_left_iff]
  omega

/-- R120: an address below PTLR's pages lies in page `z / 512` at offset `z % 512`. -/
theorem logicalPage_int (hn : s.ptlr = .int n) (h0 : 0 ≤ z) (hz : z / 512 < n) :
    logicalPage s (.int z) = some (z.toNat / 512, z.toNat % 512) := by
  simp only [logicalPage, hn, if_neg (show ¬ (z < 0 ∨ n ≤ z / 512) by omega)]

/-- R121: the entry of a logical page stands at PTBR plus twice the page, where both its words are in physical memory. -/
theorem entryAddr_int (hb : s.ptbr = .int b) (he : (e : Int) = b + 2 * lp) (h : e + 1 ≤ 65535) : entryAddr s lp = some e := by
  simp only [entryAddr, hb, ← he, Int.toNat_natCast, ite_eq_left_iff]
  omega

/-- Writing one word of memory and noting which words are touched. -/
theorem frame_poke {rs : List Reg} (h : s.memWf) (a : Nat) (v : Option Word) (l : List (Nat × Option Word)) :
    Frame rs [a] s { s.poke a v with touched := l } where
  regs := fun r _ => by cases r <;> rfl
  mem := fun c hc => (peek_poke h a c v).trans (if_neg (by simpa using hc))
  mode := rfl
  devices := ⟨rfl, rfl, rfl, rfl, rfl, rfl, rfl, rfl, rfl, rfl⟩
  controller := ⟨rfl, rfl, fun _ => rfl⟩

/-- R123: the update of an unlocked page-table word outside the ROM is one write, with the note of touched words kept up. -/
theorem updateAux_of (ha : 512 ≤ a) (hu : Unlocked s a) :
    ∃ l, updateAux a old new s = .ok () { s.poke a (some new) with touched := l } := by
  rw [updateAux, (physWrite_ok (u := ())).2 ⟨ha, hu, rfl⟩, Res.bind_ok]
  split
  · exact ⟨s.touched, rfl⟩
  · exact ⟨_, rfl⟩

/-- R121, R122: a valid entry that the access may use, whose words are unlocked, gives its page and is updated. -/
theorem walkEntry_of (he : 511 ≤ e) (hx : s.peek (e + 1) = some (wordOfAux x)) (hv : x.valid = true) (hk : k = .write → x.write = true)
    (hp : s.peek e = some (.int q)) (hq : q ≤ 127) (hu : Unlocked s e) (hu1 : Unlocked s (e + 1)) :
    ∃ l, walkEntry k L lp off e s = .ok (512 * q + off) { s.poke (e + 1) (some (wordOfAux (auxAfter k x))) with touched := l } := by
  have hw : ¬ (k = .write ∧ x.write = false) := fun ⟨h, hf⟩ => by simp [hk h] at hf
  have haux : physRead (e + 1) s = .ok (wordOfAux x) s := physRead_ok.2 ⟨rfl, readLocked_of_unlocked hu1, hx⟩
  have hpage : physRead e s = .ok (.int q) s := physRead_ok.2 ⟨rfl, readLocked_of_unlocked hu, hp⟩
  obtain ⟨l, hl⟩ := updateAux_of (old := some (wordOfAux x)) (new := wordOfAux (auxAfter k x)) (show 512 ≤ e + 1 by omega) hu1
  exact ⟨l, by simp [walkEntry, haux, auxOfWord_wordOfAux, hv, hpage, pageOfWord_natCast hq, hw, hl]⟩

/-- Settles O9: the address lies in the logical space, its entry passes the walk's checks, and the walk's one write is that of the
auxiliary word. -/
theorem translationFollowsTheEntryAndSetsItsBits : Obligations.TranslationFollowsTheEntryAndSetsItsBits := by
  intro s k z n b e q x hc hf hwf hn hb h0 hz he he1 he2 hx hv hk hp hq hu hu1
  have hpage : logicalPage s (.int z) = some (z.toNat / 512, z.toNat % 512) := logicalPage_int hn h0 hz
  have hentry : entryAddr s (z.toNat / 512) = some e := entryAddr_int hb (by omega) he2
  have hoff : z.toNat % 512 = (z % 512).toNat := by omega
  obtain ⟨l, hl⟩ := walkEntry_of (L := .int z) (lp := z.toNat / 512) (off := z.toNat % 512) he1 hx hv hk hp hq hu hu1
  refine ⟨{ s.poke (e + 1) (some (wordOfAux (auxAfter k x))) with touched := l }, ?_, ?_, frame_poke hwf _ _ _, rfl⟩
  · rw [translate_reference hc hf, ← hoff, ← hl]
    simp only [referenceTranslate, hpage, hentry]
  · rw [← auxAfter_eq]
    exact (peek_poke hwf _ _ _).trans (if_pos rfl)

end Sys2Proof.Machine
end

/-! ### NOP and BRKP (R110, R111) -/

section
namespace Sys2Proof.Machine

variable {s : State} {n : Int}

theorem exec_nop : exec .nop s = finish (advance s) := rfl

theorem exec_brkp : exec .brkp s = finish (advance s) := rfl

/-- An instruction that only advances completes, and changes nothing but IP. -/
theorem finish_advance_int (hn : s.ip = .int n) :
    ∃ u, finish (advance s) = .next u ∧ u.ip = .int (n + 2) ∧ Frame [.ip] [] s u ∧ u.p0Valid = s.p0Valid :=
  ⟨_, congrArg finish (advance_int hn), rfl, frame_ip _ (List.mem_singleton_self _), rfl⟩

/-- Settles O40: each of the two is nothing but the advance of IP. -/
theorem nopAndBrkpOnlyAdvance : Obligations.NopAndBrkpOnlyAdvance := by
  intro s n hn
  rw [exec_nop, exec_brkp]
  exact ⟨finish_advance_int hn, finish_advance_int hn⟩

end Sys2Proof.Machine
end

/-! ### Decoding what was encoded (R61, R62, R63) -/

section
namespace Sys2Proof

variable {cfg : Config} {i : Instr}

/-- A character that neither ends nor quotes a token. -/
def PlainChar (c : Char) : Prop := c ≠ dquote ∧ c ≠ ' ' ∧ c ≠ ','

theorem plainChar_of_isDigit {c : Char} (h : c.isDigit = true) : PlainChar c := by
  refine ⟨?_, ?_, ?_⟩ <;> rintro rfl <;> revert h <;> decide

theorem mnemonicText_plain (m : Mnemonic) : ∀ c ∈ mnemonicText m, PlainChar c := by
  cases m <;> simp [mnemonicText, PlainChar, dquote]

theorem mnemonicText_ne_nil (m : Mnemonic) : mnemonicText m ≠ [] := by cases m <;> exact List.cons_ne_nil _ _

theorem regText_plain (r : Reg) : ∀ c ∈ regText r, PlainChar c := by
  cases r with
  | gpr n | port n =>
    refine List.forall_mem_cons.2 ⟨?_, fun c hc => plainChar_of_isDigit (digitsText_isDigit hc)⟩
    simp [PlainChar, dquote]
  | _ => simp [regText, PlainChar, dquote]

theorem intText_plain (z : Int) : ∀ c ∈ intText z, PlainChar c := by
  intro c hc
  rcases intText_chars hc with h | rfl
  · exact plainChar_of_isDigit h
  · simp [PlainChar, dquote]

theorem plain_bracketed {t : List Char} (h : ∀ c ∈ t, PlainChar c) : ∀ c ∈ '[' :: t ++ [']'], PlainChar c := by
  intro c hc
  rcases List.mem_append.1 hc with hc | hc
  · rcases List.mem_cons.1 hc with rfl | hc
    · simp [PlainChar, dquote]
    · exact h c hc
  · obtain rfl := List.mem_singleton.1 hc
    simp [PlainChar, dquote]

theorem intText_ne_nil (z : Int) : intText z ≠ [] := by
  unfold intText; split
  · exact List.cons_ne_nil _ _
  · exact natText_ne_nil _

theorem operandText_ne_nil (o : Operand) : operandText o ≠ [] := by
  cases o with
  | reg r => obtain ⟨c, cs, h, -⟩ := regText_head r; simp [operandText, h]
  | imm z => exact intText_ne_nil z
  | memReg | memImm | str => exact List.cons_ne_nil _ _

/-! #### Tokens -/

/-- R62: the text of an operand is gathered whole, a string's quotes shielding its spaces and commas. -/
theorem tokensFrom_operandText {o : Operand} (h : operandFits cfg o = true) (r : List Char) :
    tokensFrom (operandText o ++ r) [] false = tokensFrom r (operandText o).reverse false := by
  have plain : ∀ {t : List Char}, (∀ c ∈ t, PlainChar c) → tokensFrom (t ++ r) [] false = tokensFrom r t.reverse false :=
    fun ht => by simpa using tokensFrom_plain r [] ht
  cases o with
  | reg q => exact plain (regText_plain q)
  | imm z => exact plain (intText_plain z)
  | memReg q => exact plain (plain_bracketed (regText_plain q))
  | memImm z => exact plain (plain_bracketed (intText_plain z))
  | str cs =>
    have hq : dquote ∉ cs := by
      have : strFits cfg cs = true := h
      simp_all [strFits]
    have htail := tokensFrom_quoted (dquote :: r) [dquote] hq
    simp only [operandText, List.cons_append, List.append_assoc, List.nil_append, tokensFrom, if_true, Bool.not_false, Bool.not_true] at htail ⊢
    rw [htail]
    simp

theorem flushToken_reverse {t : List Char} (h : t ≠ []) (rest : List (List Char)) : flushToken t.reverse rest = t :: rest := by
  simp [flushToken, h]

theorem tokensFrom_space (r cur : List Char) : tokensFrom (' ' :: r) cur false = flushToken cur (tokensFrom r [] false) := by
  rw [tokensFrom, if_neg (by decide), if_neg (by decide), if_pos (by decide)]

theorem tokensFrom_comma (r cur : List Char) : tokensFrom (',' :: r) cur false = flushToken cur (tokensFrom r [] false) := by
  rw [tokensFrom, if_neg (by decide), if_neg (by decide), if_pos (by decide)]

/-- R62: the operands' text splits into the operands' texts. -/
theorem tokens_operandsText : ∀ {os : List Operand}, (∀ o ∈ os, operandFits cfg o = true) → tokens (operandsText os) = os.map operandText
  | [], _ => rfl
  | [o], h => by
    have ho := tokensFrom_operandText (h o (by simp)) []
    rw [List.append_nil] at ho
    rw [operandsText, tokens, ho, tokensFrom, flushToken_reverse (operandText_ne_nil o)]
    rfl
  | o :: p :: os, h => by
    have ih := tokens_operandsText (os := p :: os) fun q hq => h q (List.mem_cons_of_mem _ hq)
    rw [operandsText, tokens, List.append_assoc, tokensFrom_operandText (h o (by simp)), List.cons_append, List.cons_append,
      List.nil_append, tokensFrom_comma, tokensFrom_space, flushToken_reverse (operandText_ne_nil o)]
    exact congrArg (operandText o :: ·) ih

/-- R62: an instruction's text splits into its mnemonic and its operands' texts. -/
theorem tokens_instrText (h : ∀ o ∈ i.operands, operandFits cfg o = true) :
    tokens (instrText i) = mnemonicText i.mnemonic :: i.operands.map operandText := by
  have hm : ∀ r, tokensFrom (mnemonicText i.mnemonic ++ r) [] false = tokensFrom r (mnemonicText i.mnemonic).reverse false :=
    fun r => by simpa using tokensFrom_plain r [] (mnemonicText_plain i.mnemonic)
  unfold instrText
  split
  · next ho =>
    have hnil := hm []
    rw [List.append_nil] at hnil
    rw [tokens, hnil, tokensFrom, flushToken_reverse (mnemonicText_ne_nil _), ho]
    rfl
  · next o os ho =>
    rw [ho] at h
    rw [tokens, hm, tokensFrom_space, flushToken_reverse (mnemonicText_ne_nil _), ho]
    exact congrArg _ (tokens_operandsText h)

/-! #### Operands -/

/-- R63: no number begins with another character than a minus sign or a digit. -/
theorem immOfText_none {c : Char} {cs : List Char} (hm : c ≠ '-') (hd : c.isDigit = false) : immOfText cfg (c :: cs) = none := by
  simp [immOfText, intOfText, natOfText, digitsValue, hm, hd]

theorem immOfText_intText {z : Int} (h : immInRange cfg z = true) : immOfText cfg (intText z) = some z := by
  simp only [immOfText, intOfText_intText, if_pos h]

/-- No register's name is a number. -/
theorem regOfText_intText (z : Int) : regOfText (intText z) = none := by
  cases ht : intText z with
  | nil => exact absurd ht (intText_ne_nil z)
  | cons c cs =>
    rcases intText_chars (z := z) (c := c) (by simp [ht]) with hc | hc
    · exact regOfText_none (.inr (.inl hc))
    · exact regOfText_none (.inl hc)

theorem operandOfText_bracketed {t : List Char} : operandOfText cfg ('[' :: t ++ [']']) = memOfText cfg t := by
  rw [List.cons_append, operandOfText, regOfText_none (.inr (.inr (.inl rfl))), immOfText_none (by decide) (by decide)]
  simp only [if_pos, beforeClose_append, Option.bind_some]

/-- R63, R117: the text of an operand the configuration admits is read back as that operand. -/
theorem operandOfText_operandText {o : Operand} (h : operandFits cfg o = true) : operandOfText cfg (operandText o) = some o := by
  cases o with
  | reg r => simp only [operandText, operandOfText, regOfText_regText]
  | imm z =>
    have hz : immInRange cfg z = true := h
    simp only [operandText, operandOfText, regOfText_intText, immOfText_intText hz]
  | memReg r => simp only [operandText, operandOfText_bracketed, memOfText, regOfText_regText]
  | memImm z =>
    have hz : immInRange cfg z = true := h
    simp only [operandText, operandOfText_bracketed, memOfText, regOfText_intText, immOfText_intText hz, Option.map_some]
  | str cs =>
    have hs : strFits cfg cs = true := h
    rw [operandText, List.cons_append, operandOfText, regOfText_none (.inr (.inr (.inr rfl))), immOfText_none (by decide) (by decide)]
    simp only [if_neg (show dquote ≠ '[' by decide), if_pos, beforeClose_append, Option.bind_some, hs]

theorem operandsOfText_map_operandText : ∀ {os : List Operand}, (∀ o ∈ os, operandFits cfg o = true) →
    operandsOfText cfg (os.map operandText) = some os
  | [], _ => rfl
  | o :: os, h => by
    have ih := operandsOfText_map_operandText (os := os) fun p hp => h p (List.mem_cons_of_mem _ hp)
    simp only [List.map_cons, operandsOfText, operandOfText_operandText (h o (by simp)), ih]

/-! #### The round trip -/

theorem operandFits_of_wellFormed (h : WellFormed cfg i = true) : ∀ o ∈ i.operands, operandFits cfg o = true := by
  simp only [WellFormed, Bool.and_eq_true, List.all_eq_true] at h
  exact h.1

/-- R62: the canonical text of an instruction whose operands are admitted decodes to it. -/
theorem decodeText_instrText (h : ∀ o ∈ i.operands, operandFits cfg o = true) : decodeText cfg (instrText i) = .ok i := by
  simp only [decodeText, tokens_instrText h, mnemonicOfText_mnemonicText, operandsOfText_map_operandText h, instrOfOperands_operands]

theorem decode_encode (h : WellFormed cfg i = true) : decode cfg (encode cfg i).1 (encode cfg i).2 = .ok i := by
  rw [encode, decode, List.take_append_drop]
  exact decodeText_instrText (operandFits_of_wellFormed h)

/-- R10: an operand that can be written down is a word of the machine. -/
theorem operandInRange_of_operandFits {o : Operand} (h : operandFits cfg o = true) : operandInRange cfg o = true := by
  cases o with
  | reg | memReg => rfl
  | imm | memImm => exact h
  | str cs =>
    have hs : strFits cfg cs = true := h
    simp only [strFits, Bool.and_eq_true] at hs
    exact hs.1

/-- R9: a machine admits each well-formed instruction that is the source's or of its ISA_EXT. -/
theorem admits_of_wellFormed (h : WellFormed cfg i = true) (hx : i.supplement = true → i.mnemonic ∈ cfg.isaExt) : admits cfg i = true := by
  simp only [admits, Bool.and_eq_true, List.all_eq_true, Bool.or_eq_true, Bool.not_eq_true', List.contains_iff_mem]
  exact ⟨fun o ho => operandInRange_of_operandFits (operandFits_of_wellFormed h o ho),
    (Bool.eq_false_or_eq_true i.supplement).elim (fun hs => .inr (hx hs)) .inl⟩

theorem decodeWords_encode (h : WellFormed cfg i = true) (hx : i.supplement = true → i.mnemonic ∈ cfg.isaExt)
    (hd : cfg.decoder = .reference) : decodeWords cfg (encode cfg i).1 (encode cfg i).2 = .ok i := by
  simp only [decodeWords, spelled, hd, decode_encode h, admits_of_wellFormed h hx, if_true]

/-- R60, R62: the two words that encode a well-formed instruction are words of the machine. -/
theorem wordFits_encode (h : WellFormed cfg i = true) :
    wordFits cfg (encode cfg i).1 = true ∧ wordFits cfg (encode cfg i).2 = true := by
  obtain ⟨t0, t1, he, -, h0, h1⟩ := Laws.TextFits.of_length i cfg h
  rw [he]
  exact ⟨decide_eq_true h0, decide_eq_true h1⟩

/-- Settles O4: the text splits back into its tokens, each token reads back as what it was written from, and a machine with an open
decoder spells what it admits by its contract. -/
theorem decodeOfEncodeIsTheInstruction : Obligations.DecodeOfEncodeIsTheInstruction := by
  refine fun cfg i h => ⟨decode_encode h, fun hx => ⟨decodeWords_encode h hx, fun ha => ?_⟩⟩
  cases hd : cfg.decoder with
  | reference =>
    obtain ⟨h0, h1⟩ := wordFits_encode h
    exact ⟨encode cfg i, h0, h1, by rw [decodeWords_encode h hx hd]; rfl⟩
  | opened => exact ha.spellsAll hd i (admits_of_wellFormed h hx)

end Sys2Proof
end

/-! ### What every part of an instruction keeps

A property of states `P`, with a property `V` of the words they hold, that every small update of the state keeps is kept by every
instruction.  `Bus` lists the updates that memory and the stack are made of, `Closed` those of the instruction `i` begun in mode `m`, with
the permission each of them has there. -/

section
namespace Sys2Proof.Machine

variable {α β : Type} {P : State → Prop} {V : Word → Prop} {c : Config} {i : Instr} {m : Mode} {s t : State}

/-- `P` holds of the state a part answers, or raises an exception from, and `Q` of the value it answers. -/
def Res.Keeps (P : State → Prop) (Q : α → Prop) : Res α → Prop
  | .ok a s => P s ∧ Q a
  | .exc _ s => P s
  | .fault _ => True
  | .refuse _ => True

theorem Res.Keeps.bind {Q : α → Prop} {R : β → Prop} {x : Res α} {f : α → State → Res β} (h : x.Keeps P Q)
    (k : ∀ a s, P s → Q a → (f a s).Keeps P R) : (x.bind f).Keeps P R := by
  cases x with
  | ok a s => exact k a s h.1 h.2
  | exc e s => exact h
  | fault | refuse => trivial

theorem Res.Keeps.imp {Q R : α → Prop} {x : Res α} (h : x.Keeps P Q) (k : ∀ a, Q a → R a) : x.Keeps P R := by
  cases x with
  | ok a s => exact ⟨h.1, k a h.2⟩
  | exc e s => exact h
  | fault | refuse => trivial

/-- A next state has `P`, or is where an exception leads from a state that has `P`. -/
def Completes (P : State → Prop) (x : Out) : Prop := ∀ t, x = .next t → P t ∨ ∃ e u, P u ∧ raise e u = .next t

theorem Res.Keeps.finish {x : Res Unit} (h : x.Keeps P fun _ => True) : Completes P (finish x) := by
  intro t hx
  rcases finish_next.1 hx with ⟨u, rfl⟩ | ⟨e, u, rfl, hr⟩
  · exact .inl h.1
  · exact .inr ⟨e, u, h, hr⟩

/-- `P` and `V` admit what addressing, memory and the stack do. -/
structure Bus (c : Config) (P : State → Prop) (V : Word → Prop) : Prop where
  cfg : ∀ {s}, P s → s.cfg = c
  word : ∀ {w}, (c.Admissible → wordFits c w = true) → V w
  aux : ∀ {w x y}, V w → auxOfWord w = some x → V (wordOfAux y)
  reg : ∀ {s r}, P s → (c.Admissible → r ≠ .ip) → V (s.reg r)
  mem : ∀ {s a w}, P s → s.peek a = some w → V w
  draw : ∀ {s n}, P s → P { s with freeCount := n }
  poke : ∀ {s a v}, P s → 512 ≤ a → a < 65536 → V v → P (s.poke a (some v))
  note : ∀ {s a old}, P s → 512 ≤ a → a < 65536 → (∀ w, old = some w → V w) → P { s with touched := (a, old) :: s.touched }
  sp : ∀ {s w}, P s → V w → P { s with sp := w }

/-- An instruction of an ISA_EXT whose semantics are open. -/
def IsOpen (c : Config) (i : Instr) : Prop := i.supplement = true ∧ c.isaMeaning = .opened

/-- The registers an instruction begun in mode `m` may write: a privileged one in PRIV mode only (R128); an exception status register only
if it is named, and where R150 prevails by MOV alone (log 24). -/
def Settable (i : Instr) (m : Mode) (c : Config) (r : Reg) : Prop :=
  (r.privileged = true → m = .priv) ∧
  (c.Admissible → r ≠ .ip ∧ (isStatus r = true → r ∈ instrRegs i ∧ (c.statusWrites = .byMov → i.mnemonic = .mov)))

/-- `P` and `V` admit every update that the instruction `i`, begun in mode `m`, may make before it completes or raises an exception. -/
structure Closed (i : Instr) (m : Mode) (c : Config) (P : State → Prop) (V : Word → Prop) : Prop extends Bus c P V where
  imm : ∀ {z}, .imm z ∈ i.operands → V (.int z)
  str : ∀ {cs}, .str cs ∈ i.operands → V (.str cs)
  ip : ∀ {s w}, P s → (V w ∨ ∃ n, s.ip = .int n ∧ w = .int (n + 2)) → P { s with ip := w }
  setReg : ∀ {s r v}, P s → V v → Settable i m c r → P (s.setReg r v)
  enter : ∀ {s}, P s → P { s with mode := .priv }
  valid : ∀ {s b}, m = .priv → P s → P { s with p0Valid := b }
  out : ∀ {s w}, m = .priv → P s → V w → P { s with termOut := s.termOut ++ [w] }
  consoleWait : ∀ {s}, m = .priv → P s → P { s with consoleWait := true }
  waiting : ∀ {s b}, m = .priv → P s → P { s with waiting := b }
  ini : ∀ {s w ws}, m = .priv → P s → s.userIni = w :: ws → V w ∧ P { s with userIni := ws }
  block : ∀ {s p b}, m = .priv → P s → p ≠ 0 → P (blockToPage p b s)
  transfer : ∀ {s kind p b}, m = .priv → P s → (kind = .load → p ≠ 0) → (kind = .store → ∃ page block, i = .store page block) →
    P (startTransfer kind p b s)
  halt : ∀ {s}, m = .priv → P s → i = .halt ∨ IsOpen c i → P { abandonStore s with halted := true }
  leave : ∀ {s}, m = .priv → P s → i = .iret ∨ IsOpen c i → P { s with mode := .unpriv }

/-! #### Memory and the stack -/

theorem Bus.physRead (h : Bus c P V) (hs : P s) (a : Nat) : (physRead a s).Keeps P V := by
  cases hx : Machine.physRead a s with
  | ok w t => obtain ⟨rfl, -, hw⟩ := physRead_ok.1 hx; exact ⟨hs, h.mem hs hw⟩
  | exc e t => exact absurd hx physRead_ne_exc
  | fault | refuse => trivial

theorem Bus.physWrite (h : Bus c P V) (hs : P s) {a : Nat} {v : Word} (ha : a < 65536) (hv : V v) :
    (physWrite a v s).Keeps P fun _ => 512 ≤ a := by
  cases hx : Machine.physWrite a v s with
  | ok u t => obtain ⟨h1, -, rfl⟩ := physWrite_ok.1 hx; exact ⟨h.poke hs h1 ha hv, h1⟩
  | exc e t => exact absurd hx physWrite_ne_exc
  | fault | refuse => trivial

theorem Bus.updateAux (h : Bus c P V) (hs : P s) {a : Nat} {old : Option Word} {new : Word} (ha : a < 65536)
    (ho : ∀ w, old = some w → V w) (hn : V new) : (updateAux a old new s).Keeps P fun _ => True :=
  (h.physWrite hs ha hn).bind fun _ s hs h1 => by
    refine ⟨?_, trivial⟩
    split
    · exact hs
    · exact h.note hs h1 ha ho

theorem fitWord_word (h : Bus c P V) (w : Word) : V (fitWord c w) := h.word fun ha => wordFits_fitWord ha w

theorem Bus.writeTable (h : Bus c P V) : ∀ {ws : List (Fin 65536 × Word)} {s : State}, P s → (writeTable ws s).Keeps P fun _ => True
  | [], _, hs => ⟨hs, trivial⟩
  | (a, v) :: _, _, hs =>
    (h.updateAux hs a.isLt (fun _ hw => h.mem hs hw) (h.cfg hs ▸ fitWord_word h v)).bind fun _ _ hs _ => h.writeTable hs

theorem Res.Keeps.of_ok {Q : α → Prop} {x : Res α} {a : α} (h : x.Keeps P Q) (hx : x = .ok a t) : P t := by
  subst hx; exact h.1

theorem Bus.translate (h : Bus c P V) (hs : P s) {k : Access} {L : Word} {p : Nat} (hx : translate k L s = .ok p t) : P t := by
  rcases translate_cases k L s with hy | ⟨z, rfl, -, hy | hy⟩ <;> rw [hy] at hx
  · cases hx
  · unfold referenceTranslate at hx
    split at hx <;> [cases hx; skip]
    split at hx <;> [cases hx; skip]
    next e he =>
      obtain ⟨w, x, -, -, hw, hxw, -, -, -, -, hu, -⟩ := walkEntry_ok hx
      have hv : V w := h.mem hs hw
      exact (h.updateAux hs (entryAddr_lt he) (fun _ hw' => Option.some.inj hw' ▸ hv) (h.aux hv hxw)).of_ok hu
  · obtain ⟨-, ws, -, -, hw⟩ := Walk.run_ok hx
    exact (h.writeTable hs).of_ok hw

/-- The physical addresses are words of every configuration R9 admits. -/
theorem wordFits_nat (h : c.Admissible) {n : Nat} (hn : n ≤ 65535) : wordFits c (.int n) = true := by
  obtain ⟨hmin, hmax, -⟩ := h.inDomain
  simp only [wordFits, immInRange, decide_eq_true_eq]
  omega

/-- An address that an access accepts is a word of the machine. -/
theorem wordFits_of_memAddr {k : Access} {L : Word} {p : Nat} (hx : memAddr k L s = .ok p t) (ha : s.cfg.Admissible) :
    wordFits s.cfg L = true := by
  unfold memAddr at hx
  split at hx
  · split at hx <;> cases hx
    next hp =>
      obtain ⟨rfl, hle⟩ := physAddr_eq_some.1 hp
      exact wordFits_nat ha hle
  · exact (translate_ok hx).2.2

theorem Bus.memAddr (h : Bus c P V) (hs : P s) (k : Access) (L : Word) : (memAddr k L s).Keeps P fun p => p < 65536 ∧ V L := by
  cases hx : Machine.memAddr k L s with
  | ok p t =>
    have hL : V L := h.word fun ha => by
      have hc := h.cfg hs
      subst hc
      exact wordFits_of_memAddr hx ha
    refine ⟨?_, (memAddr_ok hx).1, hL⟩
    unfold Machine.memAddr at hx
    split at hx
    · split at hx <;> cases hx; exact hs
    · exact h.translate hs hx
  | exc e t => rw [(memAddr_exc hx).1]; exact hs
  | fault | refuse => trivial

theorem Bus.memRead (h : Bus c P V) (hs : P s) (k : Access) (L : Word) : (memRead k L s).Keeps P V :=
  (h.memAddr hs k L).bind fun a _ hs _ => h.physRead hs a

theorem Bus.memWrite (h : Bus c P V) (hs : P s) (L : Word) {v : Word} (hv : V v) : (memWrite L v s).Keeps P fun _ => V L :=
  (h.memAddr hs .write L).bind fun _ _ hs ha => (h.physWrite hs ha.1 hv).imp fun _ _ => ha.2

theorem Bus.drawWord (h : Bus c P V) (hs : P s) : (drawWord s).Keeps P V :=
  ⟨h.draw hs, h.word fun ha => by rw [h.cfg hs]; exact wordFits_anyWord ha _⟩

theorem Bus.exactWord (h : Bus c P V) (hs : P s) (z : Int) : (exactWord z s).Keeps P V := by
  unfold Machine.exactWord
  split
  · next hz => exact ⟨hs, h.word fun _ => by rw [← h.cfg hs]; exact hz⟩
  · exact h.drawWord hs

theorem Bus.push (h : Bus c P V) (hs : P s) {v : Word} (hv : V v) : (push v s).Keeps P fun _ => True := by
  unfold Machine.push
  split
  · exact hs
  · exact (h.memWrite hs _ hv).bind fun _ _ hs hz => ⟨h.sp hs hz, trivial⟩

theorem Bus.pushReturn (h : Bus c P V) (hs : P s) (ip : Int) : (pushReturn ip s).Keeps P fun _ => True :=
  (h.exactWord hs _).bind fun _ _ hs hw => h.push hs hw

theorem Bus.dropTop (h : Bus c P V) (hs : P s) (z : Int) : (dropTop z s).Keeps P fun _ => True :=
  (h.exactWord hs _).bind fun _ _ hs hw => ⟨h.sp hs hw, trivial⟩

theorem Bus.pop (h : Bus c P V) (hs : P s) : (pop s).Keeps P V := by
  unfold Machine.pop
  split
  · exact hs
  · exact (h.memRead hs _ _).bind fun _ _ hs hv => (h.dropTop hs _).bind fun _ _ hs _ => ⟨hs, hv⟩

theorem Bus.readReg (h : Bus c P V) (hs : P s) {r : Reg} (hr : r ≠ .ip) : (readReg r s).Keeps P V := by
  unfold Machine.readReg
  split
  · exact h.drawWord hs
  · exact ⟨hs, h.reg hs fun _ => hr⟩

theorem Bus.behaviour (h : Bus c P V) (b : Behaviour) (hs : P s) : (b.run s).Keeps P fun _ => True := by
  induction b generalizing s with
  | act _ => exact ⟨hs, trivial⟩
  | read L next ih => exact (h.memRead hs _ _).bind fun v _ hs _ => ih v hs

theorem Bus.locateAll (h : Bus c P V) : ∀ {ws : List (Word × Word)} {s : State}, P s →
    (locateAll ws s).Keeps P fun as => ∀ x ∈ as, x.1 < 65536
  | [], _, hs => ⟨hs, nofun⟩
  | _ :: _, _, hs => (h.memAddr hs _ _).bind fun _ _ hs ha => (h.locateAll hs).bind fun _ _ hs has =>
    ⟨hs, List.forall_mem_cons.2 ⟨ha.1, has⟩⟩

theorem Bus.storeAll (h : Bus c P V) : ∀ {as : List (Nat × Word)} {s : State}, (∀ x ∈ as, x.1 < 65536) → P s →
    (storeAll as s).Keeps P fun _ => True
  | [], _, _, hs => ⟨hs, trivial⟩
  | (_, v) :: _, _, ha, hs =>
    (h.physWrite hs (ha _ (List.mem_cons_self ..)) (h.cfg hs ▸ fitWord_word h v)).bind fun _ _ hs _ =>
      h.storeAll (fun x hx => ha x (List.mem_cons_of_mem _ hx)) hs

end Sys2Proof.Machine
end

/-! ### What every instruction keeps -/

section
namespace Sys2Proof.Machine

variable {α β : Type} {P : State → Prop} {V : Word → Prop} {c : Config} {i : Instr} {m : Mode} {s t : State}

/-! #### Permissions -/

/-- A register that is neither privileged nor IP may always be written. -/
theorem settable_of_unprivileged {r : Reg} (hr : r.privileged = false) (hi : r ≠ .ip) : Settable i m c r :=
  ⟨fun hp => by simp [hr] at hp, fun _ => ⟨hi, fun hs => by cases r <;> simp_all [isStatus, Reg.privileged]⟩⟩

theorem settable_port (hm : m = .priv) (n : Fin 4) : Settable i m c (.port n) := ⟨fun _ => hm, fun _ => ⟨nofun, nofun⟩⟩

/-- BACKUP_ORDER names neither IP nor an exception status register. -/
theorem settable_of_mem_backupOrder {r : Reg} (hr : r ∈ c.backupOrder) (hm : m = .priv) : Settable i m c r := by
  refine ⟨fun _ => hm, fun ha => ?_⟩
  obtain ⟨-, -, -, -, -, hperm, -⟩ := ha.inDomain
  have hmem : r ∈ Config.referenceBackupOrder := hperm.mem_iff.1 hr
  have : ∀ r ∈ Config.referenceBackupOrder, r ≠ .ip ∧ isStatus r = false := by decide
  obtain ⟨h1, h2⟩ := this r hmem
  exact ⟨h1, fun h => by simp [h2] at h⟩

/-- A register that an accepted instruction names may be written, by MOV or where R150 does not keep it. -/
theorem settable_of_accepts {r : Reg} (ha : Accepts (instrRegs i) s) (hr : r ∈ instrRegs i)
    (hk : isStatus r = true → c.statusWrites = .byMov → i.mnemonic = .mov) : Settable i s.mode c r := by
  obtain ⟨hip, hp⟩ := ha
  refine ⟨fun h => ?_, fun _ => ⟨fun he => hip (he ▸ hr), fun hs => ⟨hr, hk hs⟩⟩⟩
  cases hm : s.mode with
  | priv => rfl
  | unpriv => rw [hp hm r hr] at h; cases h

/-- So may one that an open instruction's semantics write, if the mode admits it. -/
theorem settable_of_mayWrite {r : Reg} (hw : mayWrite c i r = true) (hp : r.privileged = true → m = .priv) : Settable i m c r := by
  refine ⟨hp, fun _ => ⟨mayWrite_ne_ip hw, fun hs => ?_⟩⟩
  simp only [mayWrite, hs, Bool.and_eq_true, Bool.not_true, Bool.false_or, Bool.or_eq_true, List.contains_iff_mem, beq_iff_eq] at hw
  obtain ⟨-, hn, hk⟩ := hw
  exact ⟨hn, fun hb => hk.elim id fun hb' => by rw [hb] at hb'; cases hb'⟩

/-! #### The checks and IP -/

theorem Closed.checked {f : Unit → State → Res α} {Q : α → Prop} {rs : List Reg} (hs : P s)
    (k : Accepts rs s → (f () s).Keeps P Q) : ((checkRegs rs s).bind f).Keeps P Q := by
  cases hx : checkRegs rs s with
  | ok u t => obtain ⟨rfl, ha⟩ := checkRegs_ok.1 hx; exact k ha
  | exc e t =>
    unfold checkRegs at hx
    split_ifs at hx
    cases hx; exact hs
  | fault | refuse => trivial

theorem Closed.privilegedOnly {x : Res Unit} (hs : P s) (k : s.mode = .priv → x.Keeps P fun _ => True) :
    (privilegedOnly s x).Keeps P fun _ => True := by
  unfold Machine.privilegedOnly
  split
  · next hm => exact k hm
  · exact hs

theorem Closed.advance (h : Closed i m c P V) (hs : P s) : (advance s).Keeps P fun _ => True := by
  unfold Machine.advance withIp
  split
  · next n hn => exact ⟨h.ip hs (.inr ⟨n, hn, rfl⟩), trivial⟩
  · trivial

/-- The handlers are words of every configuration R9 admits. -/
theorem Closed.handler (h : Closed i m c P V) {n : Nat} (hn : n ≤ 18) : V (.int (handler n)) :=
  h.word fun ha => wordFits_nat ha (show 1024 * (n + 1) ≤ 65535 by omega)

/-! #### Writing registers -/

theorem Closed.setResult (h : Closed i s.mode c P V) {r : Reg} {v : Word} (ht : P t) (ha : Accepts (instrRegs i) s) (hr : r ∈ instrRegs i)
    (hv : V v) : P (t.setResult r v) := by
  unfold State.setResult
  split
  · exact ht
  · next hk =>
    refine h.setReg ht hv (settable_of_accepts ha hr fun hs hb => ?_)
    rw [State.keeps, hs, h.cfg ht, hb] at hk
    exact absurd rfl hk

theorem Closed.movToReg (h : Closed i s.mode c P V) {r : Reg} {v : Word} (ht : P t) (ha : Accepts (instrRegs i) s) (hr : r ∈ instrRegs i)
    (hm : i.mnemonic = .mov) (hv : V v) : P (movToReg r v t) := by
  have hset := settable_of_accepts (c := c) ha hr fun _ _ => hm
  unfold Machine.movToReg
  split
  · next hp => exact h.valid (hset.1 (by rw [hp]; rfl)) (h.setReg ht hv hset)
  · exact h.setReg ht hv hset

theorem ne_ip_of_accepts {rs : List Reg} {r : Reg} (ha : Accepts rs s) (hr : r ∈ rs) : r ≠ .ip := fun he => ha.1 (he ▸ hr)

/-! #### Instructions with a common form -/

/-- The one exception of arithmetic is the arithmetic condition, and it changes nothing. -/
theorem arith_exc {op : ArithOp} {a b : Word} {e : Cause} (h : arith op a b s = .exc e t) : e = .arith ∧ t = s := by
  have hn : ∀ r, narrow r s ≠ .exc e t := fun r => by unfold narrow; split <;> exact nofun
  unfold arith at h
  split at h
  · cases h; exact ⟨rfl, rfl⟩
  split at h <;> [split at h; cases h]
  case _ | _ | _ => exact absurd h (hn _)
  all_goals
    unfold divide at h
    split at h <;> [cases h; exact absurd h (hn _)]

theorem compareWords_ne_exc {rel : Relation} {a b : Word} {e : Cause} : compareWords rel a b s ≠ .exc e t := by
  unfold compareWords
  split <;> [exact nofun; split <;> exact nofun; exact nofun; exact nofun]

theorem arith_keeps (h : Closed i m c P V) {op : ArithOp} {a b : Word} (hs : P s) : (arith op a b s).Keeps P V := by
  cases hx : arith op a b s with
  | ok v t =>
    obtain ⟨rfl, r, rfl, h1, h2⟩ := arith_ok hx
    exact ⟨hs, h.word fun _ => by rw [← h.cfg hs]; simp [wordFits, immInRange, h1, h2]⟩
  | exc e t => rw [(arith_exc hx).2]; exact hs
  | fault | refuse => trivial

theorem compareWords_keeps (h : Closed i m c P V) {rel : Relation} {a b : Word} (hs : P s) : (compareWords rel a b s).Keeps P V := by
  cases hx : compareWords rel a b s with
  | ok v t =>
    obtain ⟨rfl, rfl | rfl⟩ := compareWords_ok hx
    · exact ⟨hs, h.word fun ha => wordFits_nat ha (n := 0) (by omega)⟩
    · exact ⟨hs, h.word fun ha => wordFits_nat ha (n := 1) (by omega)⟩
  | exc e t => exact absurd hx compareWords_ne_exc
  | fault | refuse => trivial

theorem Closed.arithTo (h : Closed i s.mode c P V) {op : ArithOp} {ri : Reg} {f : State → Res Word} (hs : P s)
    (ha : Accepts (instrRegs i) s) (hr : ri ∈ instrRegs i) (hf : ∀ t, P t → (f t).Keeps P V) :
    (arithTo op ri f s).Keeps P fun _ => True :=
  (h.readReg hs (ne_ip_of_accepts ha hr)).bind fun _ _ hs _ => (hf _ hs).bind fun _ _ hs _ =>
    (arith_keeps h hs).bind fun _ _ hs hv => h.advance (h.setResult hs ha hr hv)

theorem Closed.arithRegReg (h : Closed i s.mode c P V) {op : ArithOp} {ri rj : Reg} (hs : P s) (hi : instrRegs i = [ri, rj]) :
    Completes P (arithRegReg op ri rj s) :=
  Res.Keeps.finish (Closed.checked hs fun ha => by
    rw [← hi] at ha
    exact h.arithTo hs ha (by simp [hi]) fun _ ht => h.readReg ht (ne_ip_of_accepts ha (by simp [hi])))

theorem Closed.arithRegImm (h : Closed i s.mode c P V) {op : ArithOp} {ri : Reg} {n : Int} (hs : P s) (hi : instrRegs i = [ri])
    (hn : V (.int n)) : Completes P (arithRegImm op ri n s) :=
  Res.Keeps.finish (Closed.checked hs fun ha => by
    rw [← hi] at ha
    exact h.arithTo hs ha (by simp [hi]) fun _ ht => ⟨ht, hn⟩)

theorem Closed.compareRegs (h : Closed i s.mode c P V) {rel : Relation} {ri rj : Reg} (hs : P s) (hi : instrRegs i = [ri, rj]) :
    Completes P (compareRegs rel ri rj s) :=
  Res.Keeps.finish (Closed.checked hs fun ha => by
    rw [← hi] at ha
    exact (h.readReg hs (ne_ip_of_accepts ha (by simp [hi]))).bind fun _ _ hs _ =>
      (h.readReg hs (ne_ip_of_accepts ha (by simp [hi]))).bind fun _ _ hs _ =>
        (compareWords_keeps h hs).bind fun _ _ hs hv => h.advance (h.setResult hs ha (by simp [hi]) hv))

theorem Closed.movReg (h : Closed i s.mode c P V) {dst : Reg} {x : Res Word} (hx : x.Keeps P V) (ha : Accepts (instrRegs i) s)
    (hr : dst ∈ instrRegs i) (hm : i.mnemonic = .mov) : (movReg dst x).Keeps P fun _ => True :=
  hx.bind fun _ _ hs hv => h.advance (h.movToReg hs ha hr hm hv)

theorem Closed.movMem (h : Closed i m c P V) {src : Reg} {f : State → Res Word} (hs : P s) (hr : src ≠ .ip)
    (hf : ∀ t, P t → (f t).Keeps P fun _ => True) : (movMem src f s).Keeps P fun _ => True :=
  (h.readReg hs hr).bind fun _ _ hs hv => (hf _ hs).bind fun _ _ hs _ => (h.memWrite hs _ hv).bind fun _ _ hs _ => h.advance hs

theorem Closed.branch (h : Closed i m c P V) {onZero : Bool} {ri : Reg} {target : Int} (hs : P s) (hv : V (.int target)) :
    Completes P (finish (branch onZero ri target s)) :=
  Res.Keeps.finish (Closed.checked hs fun ha => (h.readReg hs (ne_ip_of_accepts ha (by simp))).bind fun _ _ hs _ => by
    split
    · split
      · exact ⟨h.ip hs (.inl hv), trivial⟩
      · exact h.advance hs
    · trivial)

theorem readRegImm_keeps (h : Closed i m c P V) {o : RegImm} (hs : P s) (ho : Reg.ip ∉ regsOf o) :
    (readRegImm o s).Keeps P fun _ => True := by
  cases o with
  | reg r => exact (h.readReg hs fun he => ho (by simp [regsOf, he])).imp fun _ _ => trivial
  | imm z => exact ⟨hs, trivial⟩

theorem Closed.diskStep (h : Closed i s.mode c P V) {page block : RegImm} {f : Fin 128 → Fin 512 → State → Res Unit} (hs : P s)
    (hf : s.mode = .priv → ∀ p b t, P t → (f p b t).Keeps P fun _ => True) : Completes P (finish (diskMacroStep page block f s)) :=
  Res.Keeps.finish (Closed.privilegedOnly hs fun hm => Closed.checked hs fun ha => by
    obtain ⟨hp, hb⟩ : Reg.ip ∉ regsOf page ∧ Reg.ip ∉ regsOf block := by simpa [not_or] using ha.1
    refine (readRegImm_keeps h hs hp).bind fun _ _ hs _ => (readRegImm_keeps h hs hb).bind fun _ _ hs _ => ?_
    split
    · split
      · exact hf hm _ _ _ hs
      · trivial
    · trivial)

theorem pushAll_keeps (h : Closed i m c P V) : ∀ {rs : List Reg} {s : State}, (c.Admissible → Reg.ip ∉ rs) → P s →
    (pushAll rs s).Keeps P fun _ => True
  | [], _, _, hs => ⟨hs, trivial⟩
  | r :: _, _, hr, hs =>
    (h.push hs (h.reg hs fun ha he => hr ha (by simp [he]))).bind fun _ _ hs _ =>
      pushAll_keeps h (fun ha hm => hr ha (List.mem_cons_of_mem _ hm)) hs

theorem popAll_keeps (h : Closed i m c P V) : ∀ {rs : List Reg} {s : State}, (∀ r ∈ rs, Settable i m c r) → P s →
    (popAll rs s).Keeps P fun _ => True
  | [], _, _, hs => ⟨hs, trivial⟩
  | r :: _, _, hr, hs =>
    (h.pop hs).bind fun _ _ hs hv =>
      popAll_keeps h (fun q hq => hr q (List.mem_cons_of_mem _ hq)) (h.setReg hs hv (hr r (List.mem_cons_self ..)))

theorem Closed.returnFromTrap (h : Closed i m c P V) (hs : P s) (hm : m = .priv) (hi : i = .iret ∨ IsOpen c i) :
    (returnFromTrap s).Keeps P fun _ => True := by
  unfold Machine.returnFromTrap
  split <;> [trivial; skip]
  split <;> [skip; trivial; trivial; trivial]
  next u ht =>
    exact (h.physRead (h.translate hs ht) _).bind fun _ _ hs hv => (h.dropTop hs _).bind fun _ _ hs _ =>
      ⟨h.leave hm (h.ip hs (.inl hv)) hi, trivial⟩

/-! #### The arms of the dispatch -/

theorem Closed.execIntr (h : Closed i m c P V) {n : Int} (hs : P s) : Completes P (execIntr n s) := by
  unfold Machine.execIntr
  split
  · intro t hx; cases hx
  · refine Res.Keeps.finish ?_
    split
    · exact hs
    · next hn =>
      unfold withIp
      split
      · exact (h.pushReturn hs _).bind fun _ _ hs _ => ⟨h.ip (h.enter hs) (.inl (h.handler (by omega))), trivial⟩
      · trivial

theorem Closed.execConsoleIni (h : Closed i s.mode c P V) (hs : P s) : Completes P (execConsoleIni s) :=
  Res.Keeps.finish (Closed.privilegedOnly hs fun hm => by
    split <;> [trivial; skip]
    split <;> [trivial; skip]
    split
    · exact ⟨h.waiting hm hs, trivial⟩
    · next w ws hw =>
      obtain ⟨hv, hs⟩ := h.ini hm hs hw
      exact h.advance (h.waiting hm (h.valid hm (h.setReg hs hv (settable_port hm 0)))))

theorem Closed.exec (h : Closed i s.mode c P V) (hs : P s) : Completes P (exec i s) := by
  cases i with
  | movRegReg dst src =>
    exact Res.Keeps.finish (Closed.checked hs fun ha => h.movReg (h.readReg hs (ne_ip_of_accepts ha (by simp))) ha
      (List.mem_cons_self ..) rfl)
  | movRegImm dst n =>
    exact Res.Keeps.finish (Closed.checked hs fun ha => h.movReg ⟨hs, h.imm (by simp [Instr.operands])⟩ ha (List.mem_cons_self ..) rfl)
  | movRegStr dst cs =>
    exact Res.Keeps.finish (Closed.checked hs fun ha => h.movReg ⟨hs, h.str (by simp [Instr.operands])⟩ ha (List.mem_cons_self ..) rfl)
  | movRegIndReg dst a =>
    exact Res.Keeps.finish (Closed.checked hs fun ha => h.movReg
      ((h.readReg hs (ne_ip_of_accepts ha (by simp))).bind fun _ _ hs _ => h.memRead hs _ _) ha (List.mem_cons_self ..) rfl)
  | movRegIndImm dst n =>
    exact Res.Keeps.finish (Closed.checked hs fun ha => h.movReg (h.memRead hs _ _) ha (List.mem_cons_self ..) rfl)
  | movIndRegReg a src =>
    exact Res.Keeps.finish (Closed.checked hs fun ha => h.movMem hs (ne_ip_of_accepts ha (by simp))
      fun _ ht => (h.readReg ht (ne_ip_of_accepts ha (by simp))).imp fun _ _ => trivial)
  | movIndImmReg n src =>
    exact Res.Keeps.finish (Closed.checked hs fun ha => h.movMem hs (ne_ip_of_accepts ha (by simp))
      fun _ ht => ⟨ht, trivial⟩)
  | jmp target => rintro t ⟨⟩; exact .inl (h.ip hs (.inl (h.imm (by simp [Instr.operands]))))
  | intr n => exact h.execIntr hs
  | loadi page block =>
    refine h.diskStep hs fun hm p b t ht => ?_
    split
    · trivial
    · next hp => exact h.advance (h.block hm ht hp)
  | load page block =>
    refine h.diskStep hs fun hm p b t ht => ?_
    split
    · trivial
    · next hp => exact h.advance (h.transfer hm ht (fun _ => hp) nofun)
  | store page block => exact h.diskStep hs fun hm p b t ht => h.advance (h.transfer hm ht nofun fun _ => ⟨page, block, rfl⟩)
  | consoleOut =>
    exact Res.Keeps.finish (Closed.privilegedOnly hs fun hm => h.advance (h.out hm hs (h.reg (r := .port 1) hs fun _ => nofun)))
  | consoleIn =>
    refine Res.Keeps.finish (Closed.privilegedOnly hs fun hm => ?_)
    split
    · trivial
    · exact h.advance (h.valid hm (h.consoleWait hm hs))
  | consoleIni => exact h.execConsoleIni hs
  | addRegReg | subRegReg | mulRegReg | divRegReg | modRegReg => exact h.arithRegReg hs rfl
  | addRegImm | subRegImm | mulRegImm | divRegImm | modRegImm => exact h.arithRegImm hs rfl (h.imm (by simp [Instr.operands]))
  | inr | dcr => exact h.arithRegImm hs rfl (h.word fun ha => wordFits_nat ha (n := 1) (by omega))
  | lt | gt | eq | ne | ge | le => exact h.compareRegs hs rfl
  | jz | jnz => exact h.branch hs (h.imm (by simp [Instr.operands]))
  | push ri =>
    exact Res.Keeps.finish (Closed.checked hs fun ha => (h.readReg hs (ne_ip_of_accepts ha (by simp))).bind fun _ _ hs hv =>
      (h.push hs hv).bind fun _ _ hs _ => h.advance hs)
  | pop ri =>
    exact Res.Keeps.finish (Closed.checked hs fun ha => (h.pop hs).bind fun _ _ hs hv =>
      h.advance (h.setResult hs ha (List.mem_cons_self ..) hv))
  | call target =>
    refine Res.Keeps.finish ?_
    unfold withIp
    split
    · exact (h.pushReturn hs _).bind fun _ _ hs _ => ⟨h.ip hs (.inl (h.imm (by simp [Instr.operands]))), trivial⟩
    · trivial
  | ret => exact Res.Keeps.finish ((h.pop hs).bind fun _ _ hs hv => ⟨h.ip hs (.inl hv), trivial⟩)
  | nop | brkp => exact Res.Keeps.finish (h.advance hs)
  | iret => exact Res.Keeps.finish (Closed.privilegedOnly hs fun hm => h.returnFromTrap hs hm (.inl rfl))
  | halt => exact Res.Keeps.finish (Closed.privilegedOnly hs fun hm => ⟨h.halt hm hs (.inl rfl), trivial⟩)
  | backup =>
    refine Res.Keeps.finish (Closed.privilegedOnly hs fun hm => (pushAll_keeps h (fun ha hip => ?_) hs).bind fun _ _ hs _ => h.advance hs)
    rw [h.cfg hs] at hip
    exact ((settable_of_mem_backupOrder (i := .backup) hip hm).2 ha).1 rfl
  | restore =>
    refine Res.Keeps.finish (Closed.privilegedOnly hs fun hm => (popAll_keeps h (fun r hr => ?_) hs).bind fun _ _ hs _ => h.advance hs)
    rw [h.cfg hs, List.mem_reverse] at hr
    exact settable_of_mem_backupOrder hr hm
  | encrypt ri =>
    exact Res.Keeps.finish (Closed.privilegedOnly hs fun hm => Closed.checked hs fun ha =>
      (h.readReg hs (ne_ip_of_accepts ha (by simp))).bind fun v t ht _ =>
        h.advance (h.setResult ht ha (List.mem_cons_self ..) (h.cfg ht ▸ fitWord_word h.toBus (Config.encrypt v))))

/-! #### Instructions of an open ISA_EXT -/

theorem setAll_closed (h : Closed i m c P V) {ws : List (Reg × Word)} (hw : ∀ x ∈ ws, x.1.privileged = true → m = .priv) (hs : P s) :
    P (setAll i ws s) := by
  induction ws generalizing s with
  | nil => exact hs
  | cons x ws ih =>
    obtain ⟨r, v⟩ := x
    obtain ⟨hr, hws⟩ := List.forall_mem_cons.1 hw
    rw [setAll]
    refine ih hws ?_
    split
    · next hmay =>
      rw [h.cfg hs] at hmay ⊢
      exact h.setReg hs (fitWord_word h.toBus v) (settable_of_mayWrite hmay hr)
    · exact hs

theorem Closed.conclude (h : Closed i m c P V) {e : Effect} (hi : IsOpen c i) (he : e.needsPriv = true → m = .priv) (hs : P s) :
    (e.conclude s).Keeps P fun _ => True := by
  have hv : ∀ w, V (fitWord s.cfg w) := fun w => h.cfg hs ▸ fitWord_word h.toBus w
  have hp : e.ending = .toUnpriv ∨ e.ending = .halt → m = .priv := fun hx => he (by
    rcases hx with hx | hx <;> simp [Effect.needsPriv, hx])
  unfold Effect.conclude
  split
  · exact h.advance hs
  · exact ⟨h.ip hs (.inl (hv _)), trivial⟩
  · next hx _ => exact h.returnFromTrap hs (hp (.inl hx)) (.inr hi)
  · next hx _ => exact ⟨h.leave (hp (.inl hx)) (h.ip hs (.inl (hv _))) (.inr hi), trivial⟩
  · next hx => exact ⟨h.halt (hp (.inr hx)) hs (.inr hi), trivial⟩
  · exact hs
  · trivial

theorem Closed.applyEffect (h : Closed i s.mode c P V) {e : Effect} (hi : IsOpen c i) (hs : P s) : (e.apply i s).Keeps P fun _ => True := by
  unfold Effect.apply
  split
  · exact hs
  · next hn =>
    have hp : e.needsPriv = true → s.mode = .priv := fun he => by
      cases hm : s.mode with
      | priv => rfl
      | unpriv => exact absurd ⟨hm, he⟩ hn
    have hregs : ∀ x ∈ e.regs, x.1.privileged = true → s.mode = .priv := fun x hx hx1 => hp (by
      simp only [Effect.needsPriv, Bool.or_eq_true]
      exact .inl (.inl (List.any_eq_true.2 ⟨x, hx, hx1⟩)))
    refine (h.locateAll hs).bind fun as t ht has => ?_
    split
    · exact ht
    · trivial
    all_goals
      refine (h.storeAll has ht).bind fun _ _ ht _ => (h.conclude hi hp (setAll_closed h hregs ht)).bind fun _ t ht _ => ?_
      refine ⟨?_, trivial⟩
      cases hval : e.validates i with
      | false => rw [Bool.or_false]; exact ht
      | true =>
        simp only [Effect.validates, Bool.and_eq_true, List.any_eq_true, beq_iff_eq] at hval
        obtain ⟨-, x, hx, hx0⟩ := hval
        exact h.valid (hregs x hx (by rw [hx0]; rfl)) ht

theorem Closed.extension (h : Closed i s.mode c P V) (hi : IsOpen c i) (hs : P s) : (extension i s).Keeps P fun _ => True := by
  unfold Machine.extension
  split
  · exact hs
  · refine Closed.checked hs fun _ => ?_
    cases hb : (behaviourOf i s).run { s with freeCount := s.freeCount + 1 } with
    | ok e t =>
      have ht := h.behaviour (behaviourOf i s) (h.draw hs (n := s.freeCount + 1))
      rw [hb] at ht
      have hm : t.mode = s.mode := by rw [(Behaviour.run_ok hb).same]
      exact Closed.applyEffect (hm ▸ h) hi ht.1
    | exc e t =>
      have ht := h.behaviour (behaviourOf i s) (h.draw hs (n := s.freeCount + 1))
      rwa [hb] at ht
    | fault | refuse => trivial

/-- Every instruction keeps what its updates keep, until it completes or raises an exception. -/
theorem Closed.execute (h : Closed i s.mode c P V) (hs : P s) : Completes P (execute i s) := by
  unfold Machine.execute
  split
  · next hi => exact Res.Keeps.finish (h.extension (h.cfg hs ▸ hi) hs)
  · exact h.exec hs

end Sys2Proof.Machine
end

/-! ### What a step is made of, and the invariant (R132) -/

section
namespace Sys2Proof.Machine

variable {P : State → Prop} {V : Word → Prop} {c : Config} {i : Instr} {m : Mode} {s t : State}

/-! #### The entries and the step, by cases -/

theorem push_same {v : Word} {u : Unit} (h : push v s = .ok u t) : ∃ mem l w, t = { s with mem := mem, touched := l, sp := w } := by
  obtain ⟨s1, hc, ht⟩ := push_change h
  exact ⟨_, _, _, ht.trans (congrArg (fun x => { x with sp := t.sp }) hc.same)⟩

/-- What an exception entry changes. -/
theorem raise_same {e : Cause} (h : raise e s = .next t) :
    ∃ mem l n w ec eip epn ema, t = { s with
      mem := mem, touched := l, freeCount := n, sp := w, ec := ec, eip := eip, epn := epn, ema := ema, mode := .priv, ip := .int 1024 } := by
  obtain ⟨-, n, v, -, -, hp, rfl⟩ := raise_next h
  obtain ⟨mem, k, hs⟩ : ∃ mem k, settleTouched s.touched s = { s with mem := mem, freeCount := k } := ⟨_, _, settleTouched_same _ _⟩
  rw [hs] at hp
  obtain ⟨mem, l, w, rfl⟩ := push_same hp
  exact ⟨_, _, _, _, _, _, _, _, rfl⟩

/-- What an interrupt entry changes. -/
theorem takeInterrupt_same {k : Device} (h : takeInterrupt k s = .next t) :
    ∃ mem w, t = { s.clearPending k with mem := mem, sp := w, mode := .priv, ip := .int (handler k.number), touched := [] } := by
  obtain ⟨n, v, -, -, hp, rfl⟩ := takeInterrupt_next h
  obtain ⟨mem, l, w, rfl⟩ := push_same hp
  cases k <;> exact ⟨_, _, rfl⟩

/-- The state after an instruction that began in mode `m`: counted if that was UNPRIV. -/
def retired (m : Mode) (s : State) : State := { (match m with | .unpriv => countOne s | .priv => s) with touched := [] }

theorem retire_next {x : Out} : retire m x = .next t ↔ ∃ u, x = .next u ∧ t = retired m u := by
  cases x with
  | next u => exact ⟨fun h => by cases h; exact ⟨u, rfl, rfl⟩, by rintro ⟨_, ⟨⟩, rfl⟩; rfl⟩
  | fault | refused => simp

/-- An instruction of the step runs the words fetched, or raises the exception of the fetch or of words that do not decode. -/
theorem runInstruction_next (h : runInstruction s = .next t) :
    ∃ v, t = retired s.mode v ∧
      ((∃ w u i, fetch s = .ok w u ∧ decodeWords u.cfg w.1 w.2 = .ok i ∧ execute i u = .next v) ∨
        ∃ e u, (fetch s = .exc e u ∨ ∃ w, fetch s = .ok w u) ∧ raise e u = .next v) := by
  obtain ⟨v, hv, rfl⟩ := retire_next.1 h
  refine ⟨v, rfl, ?_⟩
  split at hv
  · next w u hf =>
    unfold execWords at hv
    split at hv
    · next i hi => exact .inl ⟨w, u, i, hf, hi, hv⟩
    · exact .inr ⟨_, u, .inr ⟨w, hf⟩, hv⟩
  · next e u hf => exact .inr ⟨e, u, .inl hf, hv⟩
  · cases hv
  · cases hv

/-- A step of a halted machine changes nothing; any other is an interrupt entry or an instruction, after what the user does. -/
theorem step_next (h : step s = .next t) :
    (s.halted = true ∧ t = s) ∨
      (∃ k u, dueInterrupt (userGapStep s) = some (k, u) ∧ takeInterrupt k u = .next t) ∨
      runInstruction (userGapStep s) = .next t := by
  unfold step at h
  split at h
  · next hh => cases h; exact .inl ⟨hh, rfl⟩
  · unfold processorStep at h
    split at h
    · next k u hd => exact .inr (.inl ⟨k, u, hd, h⟩)
    · exact .inr (.inr h)

/-- The interrupt due is one that is pending; choosing it draws at most one free value. -/
theorem dueInterrupt_some {k : Device} (h : dueInterrupt s = some (k, t)) :
    s.mode = .unpriv ∧ s.pending k = true ∧ t = { s with freeCount := t.freeCount } := by
  unfold dueInterrupt at h
  split at h
  · cases h
  · next hm => exact ⟨hm, chooseDevice_some h⟩

/-- The instructions a decoder reads are admitted. -/
theorem admits_of_decodeWords {w0 w1 : Word} (h : decodeWords c w0 w1 = .ok i) : admits c i = true := by
  unfold decodeWords at h
  split at h
  · split at h
    · next ha => cases h; exact ha
    · cases h
  · cases h

/-! #### A property that every step keeps -/

/-- `P` is kept by everything a step is made of, under the configuration `c`. -/
structure Cyclic (c : Config) (P : State → Prop) (V : Word → Prop) : Prop where
  closed : ∀ i m, admits c i = true → Closed i m c P V
  bus : Bus c P V
  gap : ∀ {s}, P s → P (userGapStep s)
  interrupt : ∀ {s t k}, P s → takeInterrupt k s = .next t → P t
  raise : ∀ {s t e}, P s → raise e s = .next t → P t
  count : ∀ {s}, P s → P (countOne s)
  forget : ∀ {s}, P s → P { s with touched := [] }

theorem Cyclic.retired (h : Cyclic c P V) (hs : P s) : P (retired m s) := by
  cases m with
  | priv => exact h.forget hs
  | unpriv => exact h.forget (h.count hs)

theorem Cyclic.fetch (h : Cyclic c P V) (hs : P s) : (fetch s).Keeps P fun _ => True := by
  unfold Machine.fetch
  split <;> [skip; trivial]
  unfold fetch.withIpWords
  split <;> [skip; trivial]
  exact (h.bus.memRead (h.forget hs) _ _).bind fun _ _ hs _ => (h.bus.memRead hs _ _).bind fun _ _ hs _ => ⟨hs, trivial⟩

theorem Cyclic.execute (h : Cyclic c P V) (hs : P s) (hi : admits c i = true) (hx : execute i s = .next t) : P t :=
  ((h.closed i s.mode hi).execute hs t hx).elim id fun ⟨_, _, hu, hr⟩ => h.raise hu hr

theorem Cyclic.runInstruction (h : Cyclic c P V) (hs : P s) (hx : runInstruction s = .next t) : P t := by
  obtain ⟨v, rfl, ⟨w, u, i, hf, hd, he⟩ | ⟨e, u, hf, hr⟩⟩ := runInstruction_next hx
  · have hu := (h.fetch hs).of_ok hf
    exact h.retired (h.execute hu (admits_of_decodeWords (h.bus.cfg hu ▸ hd)) he)
  · have hu : P u := by
      have k := h.fetch hs
      rcases hf with hf | ⟨w, hf⟩
      · rwa [hf] at k
      · exact k.of_ok hf
    exact h.retired (h.raise hu hr)

/-- A step keeps it. -/
theorem Cyclic.step (h : Cyclic c P V) (hs : P s) (hx : step s = .next t) : P t := by
  rcases step_next hx with ⟨-, rfl⟩ | ⟨k, u, hd, hi⟩ | hr
  · exact hs
  · obtain ⟨-, -, hu⟩ := dueInterrupt_some hd
    exact h.interrupt (hu ▸ h.bus.draw (h.gap hs)) hi
  · exact h.runInstruction (h.gap hs) hr

/-! #### The invariant (O55) -/

theorem Kept.abandonHalt (h : Kept c s) : Kept c { Machine.abandonStore s with halted := true } := h.abandonStore.of_same rfl rfl rfl rfl rfl rfl

theorem kept_bus (c : Config) : Bus c (Kept c) fun _ => True where
  cfg := Kept.cfg
  word := fun _ => trivial
  aux := fun _ _ => trivial
  reg := fun _ _ => trivial
  mem := fun _ _ => trivial
  draw := fun h => h.of_same rfl rfl rfl rfl rfl rfl
  poke := fun h h1 h2 _ => h.poke h1 h2
  note := fun h h1 h2 _ => ⟨h.cfg, h.memWf, h.diskWf, h.rom, h.transfer, h.timer, List.forall_mem_cons.2 ⟨⟨h1, h2⟩, h.noted⟩⟩
  sp := fun h _ => h.of_same rfl rfl rfl rfl rfl rfl

theorem kept_closed (i : Instr) (m : Mode) (c : Config) : Closed i m c (Kept c) fun _ => True where
  toBus := kept_bus c
  imm := fun _ => trivial
  str := fun _ => trivial
  ip := fun h _ => h.of_same rfl rfl rfl rfl rfl rfl
  setReg := fun h _ _ => h.setReg _ _
  enter := fun h => h.of_same rfl rfl rfl rfl rfl rfl
  valid := fun _ h => h.of_same rfl rfl rfl rfl rfl rfl
  out := fun _ h _ => h.of_same rfl rfl rfl rfl rfl rfl
  consoleWait := fun _ h => h.of_same rfl rfl rfl rfl rfl rfl
  waiting := fun _ h => h.of_same rfl rfl rfl rfl rfl rfl
  ini := fun _ h _ => ⟨trivial, h.of_same rfl rfl rfl rfl rfl rfl⟩
  block := fun _ h hp => h.blockToPage _ hp
  transfer := fun _ h hp _ => h.startTransfer _ hp
  halt := fun _ h _ => h.abandonHalt
  leave := fun _ h _ => h.of_same rfl rfl rfl rfl rfl rfl

theorem Kept.forget (h : Kept c s) : Kept c { s with touched := [] } :=
  ⟨h.cfg, h.memWf, h.diskWf, h.rom, h.transfer, h.timer, fun _ hx => nomatch hx⟩

theorem kept_cyclic (c : Config) : Cyclic c (Kept c) fun _ => True where
  closed := fun i m _ => kept_closed i m c
  bus := kept_bus c
  gap := Kept.userGapStep
  interrupt := fun h hi => h.takeInterrupt hi
  raise := fun h hr => h.raise hr
  count := Kept.countOne
  forget := Kept.forget

/-- A step that the machine takes ends with no touched word noted. -/
theorem step_touched (h : step s = .next t) : t = s ∨ t.touched = [] := by
  rcases step_next h with ⟨-, rfl⟩ | ⟨k, u, -, hi⟩ | hr
  · exact .inl rfl
  · obtain ⟨_, _, rfl⟩ := takeInterrupt_same hi
    exact .inr rfl
  · obtain ⟨v, rfl, -⟩ := runInstruction_next hr
    exact .inr rfl

/-- Settles O55: each part of a step keeps `Kept`, and a step ends with no touched word noted. -/
theorem everyStepKeepsTheInvariant : Obligations.EveryStepKeepsTheInvariant := by
  intro s t hs h
  have k := (kept_cyclic s.cfg).step hs.kept h
  refine ⟨by rw [k.cfg]; exact hs.admissible, k.memWf, k.diskWf, k.rom, k.transfer, k.timer, ?_⟩
  rcases step_touched h with rfl | h
  · exact hs.untouched
  · exact h

end Sys2Proof.Machine
end

/-! ### Every word the machine holds is a word of its configuration (R10, R35) -/

section
namespace Sys2Proof.Machine

variable {c : Config} {i : Instr} {m : Mode} {s t : State}

/-- What holds inside and between instructions of a machine whose words are words of its configuration: the words a page table held before
the instruction in progress among them. -/
structure Sound (c : Config) (s : State) : Prop where
  kept : Kept c s
  admissible : c.Admissible
  fit : s.WordsFit
  olds : ∀ x ∈ s.touched, ∀ w, x.2 = some w → wordFits c w = true

/-- Which words a state holds, but for its registers, is a matter of these fields. -/
theorem State.WordsFit.of_same (h : s.WordsFit) (hr : ∀ r, r ≠ .ip → wordFits s.cfg (t.reg r) = true)
    (hip : wordFits s.cfg t.ip = true ∨ ∃ z, t.ip = .int z ∧ s.cfg.intMax < z) (hc : t.cfg = s.cfg := by rfl)
    (hm : t.mem = s.mem := by rfl) (hd : t.disk = s.disk := by rfl) (ht : t.termOut = s.termOut := by rfl)
    (hg : t.userGap = s.userGap := by rfl) (hi : t.userIni = s.userIni := by rfl) : t.WordsFit where
  regs := hc ▸ hr
  ip := hc ▸ hip
  mem := by have := h.mem; unfold State.peek at *; rwa [hc, hm]
  disk := by have := h.disk; unfold State.peekDisk at *; rwa [hc, hd]
  term := by rw [hc, ht]; exact h.term
  gap := by rw [hc, hg]; exact h.gap
  ini := by rw [hc, hi]; exact h.ini

theorem Sound.word (h : Sound c s) {w : Word} (hw : wordFits c w = true) : wordFits s.cfg w = true := by rw [h.kept.cfg]; exact hw

/-- An update that touches no word keeps them all. -/
theorem Sound.of_same (h : Sound c s) (hr : ∀ r, t.reg r = s.reg r := by intro r; cases r <;> rfl) (hc : t.cfg = s.cfg := by rfl)
    (hm : t.mem = s.mem := by rfl) (hd : t.disk = s.disk := by rfl) (ho : t.diskOp = s.diskOp := by rfl)
    (hn : t.timerCount = s.timerCount := by rfl) (hl : t.touched = s.touched := by rfl) (ht : t.termOut = s.termOut := by rfl)
    (hg : t.userGap = s.userGap := by rfl) (hi : t.userIni = s.userIni := by rfl) : Sound c t where
  kept := h.kept.of_same hc hm hd ho hn hl
  admissible := h.admissible
  fit := h.fit.of_same (fun r hne => hr r ▸ h.fit.regs r hne) (by rw [show t.ip = s.ip from hr .ip]; exact h.fit.ip) hc hm hd ht hg hi
  olds := hl ▸ h.olds

theorem Sound.setReg (h : Sound c s) {r : Reg} {v : Word} (hv : wordFits c v = true) (hr : r ≠ .ip) : Sound c (s.setReg r v) where
  kept := h.kept.setReg r v
  admissible := h.admissible
  fit := h.fit.of_same (fun q hq => by
      rw [State.reg_setReg]; split
      · exact h.word hv
      · exact h.fit.regs q hq)
    (by rw [State.setReg_ip s r v hr]; exact h.fit.ip)
    (by simp) (by simp) (by simp) (by simp) (by simp) (by simp)
  olds := by rw [State.setReg_touched]; exact h.olds

/-- R17: IP takes a word of the machine, or the address of the next instruction. -/
theorem Sound.setIp (h : Sound c s) {w : Word} (hw : wordFits c w = true ∨ ∃ n, s.ip = .int n ∧ w = .int (n + 2)) :
    Sound c { s with ip := w } where
  kept := h.kept.of_same rfl rfl rfl rfl rfl rfl
  admissible := h.admissible
  fit := by
    refine h.fit.of_same (fun q hq => by rw [State.reg_withIp _ _ _ hq]; exact h.fit.regs q hq) ?_
    rcases hw with hw | ⟨n, hn, rfl⟩
    · exact .inl (h.word hw)
    · have hip := h.fit.ip
      simp only [hn, wordFits, immInRange, decide_eq_true_eq, Word.int.injEq, exists_eq_left'] at hip ⊢
      omega
  olds := h.olds

theorem Sound.pokeOption (h : Sound c s) {a : Nat} {v : Option Word} (h1 : 512 ≤ a) (h2 : a < 65536)
    (hv : ∀ w, v = some w → wordFits c w = true) : Sound c (s.poke a v) where
  kept := h.kept.poke h1 h2
  admissible := h.admissible
  fit := ⟨fun r hr => by rw [State.poke_reg]; exact h.fit.regs r hr, h.fit.ip, fun b w hb => by
      rw [peek_poke h.kept.memWf] at hb
      split at hb
      · exact h.word (hv w hb)
      · exact h.fit.mem b w hb, h.fit.disk, h.fit.term, h.fit.gap, h.fit.ini⟩
  olds := h.olds

/-- An auxiliary word differs from another only in its characters. -/
theorem wordFits_wordOfAux {w : Word} {x y : Aux} (hw : wordFits c w = true) (hx : auxOfWord w = some x) : wordFits c (wordOfAux y) = true := by
  unfold auxOfWord at hx
  split at hx
  · exact hw
  · cases hx

theorem Sound.bus (ha : c.Admissible) : Bus c (Sound c) fun w => wordFits c w = true where
  cfg := fun h => h.kept.cfg
  word := fun h => h ha
  aux := wordFits_wordOfAux
  reg := fun h hr => h.kept.cfg ▸ h.fit.regs _ (hr ha)
  mem := fun h hp => h.kept.cfg ▸ h.fit.mem _ _ hp
  draw := fun h => h.of_same
  poke := fun h h1 h2 hv => h.pokeOption h1 h2 fun _ hw => Option.some.inj hw ▸ hv
  note := fun h h1 h2 ho =>
    ⟨(kept_bus c).note h.kept h1 h2 fun _ _ => trivial, ha, h.fit.of_same (fun r hr => by
      cases r <;> exact h.fit.regs _ hr) h.fit.ip, List.forall_mem_cons.2 ⟨ho, h.olds⟩⟩
  sp := fun h hw => h.setReg (r := .sp) hw nofun

/-! #### The disk -/

/-- A block brought into a page brings words of the disk. -/
theorem State.WordsFit.blockToPage (h : s.WordsFit) (hm : s.memWf) (p : Fin 128) (b : Fin 512) : (blockToPage p b s).WordsFit :=
  ⟨fun r hr => by rw [blockToPage_reg]; exact h.regs r hr, h.ip, fun a w ha => by
      rw [peek_blockToPage hm] at ha
      split at ha
      · exact h.disk _ w ha
      · exact h.mem _ w ha, h.disk, h.term, h.gap, h.ini⟩

/-- A page stored to a block stores words of memory. -/
theorem State.WordsFit.pageToBlock (h : s.WordsFit) (hd : s.diskWf) (p : Fin 128) (b : Fin 512) : (pageToBlock p b s).WordsFit :=
  ⟨fun r hr => by rw [pageToBlock_reg]; exact h.regs r hr, h.ip, h.mem, fun a w ha => by
      rw [peekDisk_pageToBlock hd] at ha
      split at ha
      · exact h.mem _ w ha
      · exact h.disk _ w ha, h.term, h.gap, h.ini⟩

theorem State.WordsFit.diskComplete (h : s.WordsFit) (hm : s.memWf) (hd : s.diskWf) (kind : Transfer) (p : Fin 128) (b : Fin 512) :
    (diskComplete kind p b s).WordsFit := by
  cases kind with
  | load =>
    have k := h.blockToPage hm p b
    exact k.of_same (fun r hr => by cases r <;> exact k.regs _ hr) k.ip
  | store =>
    have k := h.pageToBlock hd p b
    exact k.of_same (fun r hr => by cases r <;> exact k.regs _ hr) k.ip

theorem Sound.diskComplete (h : Sound c s) {kind : Transfer} {p : Fin 128} (b : Fin 512) (hp : kind = .load → p ≠ 0) :
    Sound c (diskComplete kind p b s) :=
  ⟨h.kept.diskComplete b hp, h.admissible, h.fit.diskComplete h.kept.memWf h.kept.diskWf kind p b, by rw [diskComplete_touched]; exact h.olds⟩

theorem Sound.blockToPage (h : Sound c s) {p : Fin 128} (b : Fin 512) (hp : p ≠ 0) : Sound c (blockToPage p b s) :=
  ⟨h.kept.blockToPage b hp, h.admissible, h.fit.blockToPage h.kept.memWf p b, h.olds⟩

/-- DISK_OP holds no word. -/
theorem Sound.withDiskOp (h : Sound c s) (k : Kept c { s with diskOp := t.diskOp }) : Sound c { s with diskOp := t.diskOp } :=
  ⟨k, h.admissible, h.fit.of_same (fun r hr => by cases r <;> exact h.fit.regs _ hr) h.fit.ip, h.olds⟩

theorem Sound.startTransfer (h : Sound c s) {kind : Transfer} {p : Fin 128} (b : Fin 512) (hp : kind = .load → p ≠ 0) :
    Sound c (startTransfer kind p b s) := by
  have k := h.kept.startTransfer b hp
  unfold Machine.startTransfer at k ⊢
  split
  · exact h.diskComplete b hp
  · next hd =>
    rw [if_neg hd] at k
    exact h.withDiskOp (t := { s with diskOp := .busy kind p b 0 }) k

/-- What a read of the disk gives after an abandoned store: the block's old word or the page's (I40). -/
theorem peekDisk_abandonStore (h : s.diskWf) (a : Nat) :
    (abandonStore s).peekDisk a = s.peekDisk a ∨ ∃ p b n, s.diskOp = .busy .store p b n ∧ a / 512 = b.val ∧
      (abandonStore s).peekDisk a = s.peek (512 * p.val + a % 512) := by
  unfold abandonStore
  split
  · next p b n hd =>
    have hr := Cells.read_copy (size := 262144) (base := 512 * b.val) (n := 512)
      (src := fun i => if Config.freeBit (s.freeCount + i) then s.peek (512 * p.val + i) else s.peekDisk (512 * b.val + i)) (by omega) h a
    by_cases ha : 512 * b.val ≤ a ∧ a < 512 * b.val + 512
    · rw [if_pos ha] at hr
      have hoff : a - 512 * b.val = a % 512 := by omega
      have hback : 512 * b.val + a % 512 = a := by omega
      split at hr
      · exact .inr ⟨p, b, n, hd, by omega, hr.trans (by rw [hoff])⟩
      · exact .inl (hr.trans (by rw [hoff, hback]))
    · rw [if_neg ha] at hr
      exact .inl hr
  · exact .inl rfl

theorem abandonStore_same (s : State) : ∃ d n, abandonStore s = { s with disk := d, freeCount := n } := by
  unfold abandonStore; split <;> exact ⟨_, _, rfl⟩

theorem Sound.abandonHalt (h : Sound c s) : Sound c { abandonStore s with halted := true } := by
  refine ⟨h.kept.abandonHalt, h.admissible, ⟨?_, ?_, ?_, fun a w ha => ?_, ?_, ?_, ?_⟩, ?_⟩
  case refine_4 =>
    obtain ⟨d, n, hs⟩ := abandonStore_same s
    have hc : (abandonStore s).cfg = s.cfg := by rw [hs]
    show wordFits (abandonStore s).cfg w = true
    rw [hc]
    replace ha : (abandonStore s).peekDisk a = some w := ha
    rcases peekDisk_abandonStore h.kept.diskWf a with he | ⟨p, b, n, -, -, he⟩ <;> rw [he] at ha
    · exact h.fit.disk a w ha
    · exact h.fit.mem _ w ha
  all_goals
    obtain ⟨d, n, hs⟩ := abandonStore_same s
    rw [hs]
  · exact fun r hr => by cases r <;> exact h.fit.regs _ hr
  · exact h.fit.ip
  · exact h.fit.mem
  · exact h.fit.term
  · exact h.fit.gap
  · exact h.fit.ini
  · exact h.olds

/-! #### Every instruction, and every step -/

theorem Sound.out (h : Sound c s) {w : Word} (hw : wordFits c w = true) : Sound c { s with termOut := s.termOut ++ [w] } where
  kept := h.kept.of_same rfl rfl rfl rfl rfl rfl
  admissible := h.admissible
  fit := ⟨fun r hr => by cases r <;> exact h.fit.regs _ hr, h.fit.ip, h.fit.mem, h.fit.disk, fun v hv =>
      (List.mem_append.1 hv).elim (h.fit.term v) fun hv => by rw [List.mem_singleton.1 hv]; exact h.word hw, h.fit.gap, h.fit.ini⟩
  olds := h.olds

theorem Sound.userIni (h : Sound c s) {ws : List Word} (hw : ∀ w ∈ ws, wordFits c w = true) : Sound c { s with userIni := ws } where
  kept := h.kept.of_same rfl rfl rfl rfl rfl rfl
  admissible := h.admissible
  fit := ⟨fun r hr => by cases r <;> exact h.fit.regs _ hr, h.fit.ip, h.fit.mem, h.fit.disk, h.fit.term, h.fit.gap, fun w hm => h.word (hw w hm)⟩
  olds := h.olds

theorem Sound.userGap (h : Sound c s) {gs : List (Option Word)} (hg : ∀ w, some w ∈ gs → wordFits c w = true) :
    Sound c { s with userGap := gs } where
  kept := h.kept.of_same rfl rfl rfl rfl rfl rfl
  admissible := h.admissible
  fit := ⟨fun r hr => by cases r <;> exact h.fit.regs _ hr, h.fit.ip, h.fit.mem, h.fit.disk, h.fit.term, fun w hm => h.word (hg w hm), h.fit.ini⟩
  olds := h.olds

theorem imm_fits {z : Int} (ha : admits c i = true) (hz : .imm z ∈ i.operands) : wordFits c (.int z) = true := by
  simp only [admits, Bool.and_eq_true, List.all_eq_true] at ha
  exact ha.1 _ hz

theorem str_fits {cs : List Char} (ha : admits c i = true) (hz : .str cs ∈ i.operands) : wordFits c (.str cs) = true := by
  simp only [admits, Bool.and_eq_true, List.all_eq_true] at ha
  exact ha.1 _ hz

theorem Sound.closed (hc : c.Admissible) (hi : admits c i = true) (m : Mode) : Closed i m c (Sound c) fun w => wordFits c w = true where
  toBus := Sound.bus hc
  imm := imm_fits hi
  str := str_fits hi
  ip := fun h hw => h.setIp hw
  setReg := fun h hv hs => h.setReg hv (hs.2 hc).1
  enter := fun h => h.of_same
  valid := fun _ h => h.of_same
  out := fun _ h hw => h.out hw
  consoleWait := fun _ h => h.of_same
  waiting := fun _ h => h.of_same
  ini := fun _ h hw => by
    have hini := h.fit.ini
    rw [hw, h.kept.cfg] at hini
    obtain ⟨h1, h2⟩ := List.forall_mem_cons.1 hini
    exact ⟨h1, h.userIni h2⟩
  block := fun _ h hp => h.blockToPage _ hp
  transfer := fun _ h hp _ => h.startTransfer _ hp
  halt := fun _ h _ => h.abandonHalt
  leave := fun _ h _ => h.of_same

theorem Sound.settleTouched : ∀ {l : List (Nat × Option Word)} {s : State}, Sound c s →
    (∀ x ∈ l, (512 ≤ x.1 ∧ x.1 < 65536) ∧ ∀ w, x.2 = some w → wordFits c w = true) → Sound c (settleTouched l s)
  | [], _, h, _ => h
  | (a, old) :: l, s, h, hl => by
    obtain ⟨⟨⟨h1, h2⟩, hold⟩, htl⟩ := List.forall_mem_cons.1 hl
    rw [Machine.settleTouched]
    refine Sound.settleTouched ?_ htl
    split
    · exact (h.pokeOption h1 h2 hold).of_same
    · exact h.of_same

/-- What an exception records are words of the machine. -/
theorem Sound.recordCause (h : Sound c s) (e : Cause) {n : Int} (hip : s.ip = .int n) (hn : immInRange c n = true) :
    Sound c (recordCause e s) := by
  obtain ⟨-, -, -, -, -, -, hcodes, -⟩ := h.admissible.inDomain
  have hcode : wordFits c (e.code s.cfg) = true := by
    rw [h.kept.cfg]
    exact hcodes _ (by cases e <;> simp [Cause.code])
  have heip : wordFits c s.ip = true := by rw [hip]; exact hn
  have hrep : ∀ n w, wordFits c (reportWord s.cfg n w) = true := fun n w => by
    rw [h.kept.cfg]; exact wordFits_reportWord h.admissible n w
  exact ((((h.setReg (r := .ec) hcode nofun).setReg (r := .eip) heip nofun).setReg (r := .epn) (hrep _ _) nofun).setReg (r := .ema)
    (hrep _ _) nofun).of_same

theorem Sound.raise (h : Sound c s) {e : Cause} (hr : raise e s = .next t) : Sound c t := by
  obtain ⟨-, n, v, hip, hn, hp, rfl⟩ := raise_next hr
  rw [h.kept.cfg] at hn
  have k := h.settleTouched (l := s.touched) fun x hx => ⟨h.kept.noted x hx, h.olds x hx⟩
  have k := k.recordCause e (by rw [settleTouched_ip, hip]) hn
  have k := ((Sound.bus h.admissible).push k (v := .int n) hn).of_ok hp
  exact (k.setIp (.inl (wordFits_nat h.admissible (n := 1024) (by omega)))).of_same

theorem Sound.forget (h : Sound c s) : Sound c { s with touched := [] } :=
  ⟨h.kept.forget, h.admissible, h.fit.of_same (fun r hr => by cases r <;> exact h.fit.regs _ hr) h.fit.ip, nofun⟩

theorem Sound.takeInterrupt (h : Sound c s) {k : Device} (ht : takeInterrupt k s = .next t) : Sound c t := by
  obtain ⟨n, v, -, hn, hp, rfl⟩ := takeInterrupt_next ht
  rw [h.kept.cfg] at hn
  have hv := ((Sound.bus h.admissible).push h (v := .int n) hn).of_ok hp
  have hk : Sound c (v.clearPending k) := by cases k <;> exact hv.of_same
  have hle : handler k.number ≤ 65535 := by cases k <;> decide
  have hm : Sound c { v.clearPending k with ip := .int (handler k.number), mode := .priv } :=
    (hk.setIp (.inl (wordFits_nat h.admissible hle))).of_same
  exact hm.forget

theorem Sound.userGapStep (h : Sound c s) : Sound c (userGapStep s) := by
  unfold Machine.userGapStep
  have hgap := h.fit.gap
  rw [h.kept.cfg] at hgap
  split
  · exact h
  · next gs hg => exact h.userGap fun w hw => hgap w (by rw [hg]; exact List.mem_cons_of_mem _ hw)
  · next v gs hg =>
    have hv := hgap v (by rw [hg]; exact List.mem_cons_self ..)
    have k := h.userGap (gs := gs) fun w hw => hgap w (by rw [hg]; exact List.mem_cons_of_mem _ hw)
    unfold userEnters
    split
    · refine k.userIni (List.forall_mem_cons.2 ⟨hv, ?_⟩)
      rw [← h.kept.cfg]; exact h.fit.ini
    · split
      · exact (k.setReg (r := .port 0) hv nofun).of_same
      · exact k

theorem timerCountOne_same (s : State) : ∃ n b, timerCountOne s = { s with timerCount := n, pendTimer := b } := by
  unfold timerCountOne
  split
  · exact ⟨_, _, rfl⟩
  · split <;> exact ⟨_, _, rfl⟩

theorem Sound.countOne (h : Sound c s) : Sound c (countOne s) := by
  suffices hfit : (Machine.countOne s).WordsFit ∧ (Machine.countOne s).touched = s.touched from
    ⟨h.kept.countOne, h.admissible, hfit.1, by rw [hfit.2]; exact h.olds⟩
  obtain ⟨n, b, ht⟩ := timerCountOne_same s
  have k : { s with timerCount := n, pendTimer := b }.WordsFit := h.fit.of_same (fun r hr => by cases r <;> exact h.fit.regs _ hr) h.fit.ip
  unfold Machine.countOne diskCountOne
  rw [ht]
  split
  · exact ⟨k, rfl⟩
  · split
    · exact ⟨k.diskComplete h.kept.memWf h.kept.diskWf _ _ _, diskComplete_touched ..⟩
    · exact ⟨k.of_same (fun r hr => by cases r <;> exact k.regs _ hr) k.ip, rfl⟩

theorem Sound.cyclic (hc : c.Admissible) : Cyclic c (Sound c) fun w => wordFits c w = true where
  closed := fun _ m hi => Sound.closed hc hi m
  bus := Sound.bus hc
  gap := Sound.userGapStep
  interrupt := fun h hi => h.takeInterrupt hi
  raise := fun h hr => h.raise hr
  count := Sound.countOne
  forget := Sound.forget

/-- Settles O56: each part of a step keeps `Sound`, which the invariant gives at the start of a step. -/
theorem everyStepKeepsWordsInRange : Obligations.EveryStepKeepsWordsInRange := by
  intro s t hs hf h
  have k : Sound s.cfg s := ⟨hs.kept, hs.admissible, hf, by rw [hs.untouched]; exact nofun⟩
  exact ((Sound.cyclic hs.admissible).step k h).fit

end Sys2Proof.Machine
end

/-! ### The rules that bind the whole machine -/

section
namespace Sys2Proof.Machine

variable {c : Config} {i : Instr} {m : Mode} {s t : State} {base : State}

/-! #### The configuration and the terminal (R31, R32) -/

/-- The configuration is `c`, and the terminal has displayed what `base` did and perhaps more. -/
def Displays (c : Config) (base s : State) : Prop := s.cfg = c ∧ ∃ ws, s.termOut = base.termOut ++ ws

theorem Displays.of_same (h : Displays c base s) (hc : t.cfg = s.cfg) (ht : t.termOut = s.termOut) : Displays c base t :=
  ⟨hc.trans h.1, h.2.imp fun _ he => ht.trans he⟩

theorem displays_bus (c : Config) (base : State) : Bus c (Displays c base) fun _ => True where
  cfg := And.left
  word := fun _ => trivial
  aux := fun _ _ => trivial
  reg := fun _ _ => trivial
  mem := fun _ _ => trivial
  draw := id
  poke := fun h _ _ _ => h
  note := fun h _ _ _ => h
  sp := fun h _ => h

theorem displays_closed (i : Instr) (m : Mode) (c : Config) (base : State) : Closed i m c (Displays c base) fun _ => True where
  toBus := displays_bus c base
  imm := fun _ => trivial
  str := fun _ => trivial
  ip := fun h _ => h
  setReg := fun h _ _ => h.of_same (by simp) (by simp)
  enter := id
  valid := fun _ => id
  out := fun _ h _ => ⟨h.1, let ⟨ws, he⟩ := h.2; ⟨ws ++ [_], by rw [he, List.append_assoc]⟩⟩
  consoleWait := fun _ => id
  waiting := fun _ => id
  ini := fun _ h _ => ⟨trivial, h⟩
  block := fun _ h _ => h
  transfer := fun _ h _ _ => h.of_same (by simp) (by simp)
  halt := fun {s} _ h _ => by obtain ⟨d, n, hs⟩ := abandonStore_same s; rw [hs]; exact h
  leave := fun _ h _ => h

theorem countOne_same (s : State) :
    ∃ n b mem disk op d, countOne s = { s with timerCount := n, pendTimer := b, mem := mem, disk := disk, diskOp := op, pendDisk := d } := by
  obtain ⟨n, b, ht⟩ := timerCountOne_same s
  unfold countOne diskCountOne
  rw [ht]
  split
  · exact ⟨_, _, _, _, _, _, rfl⟩
  · next kind _ _ _ _ =>
    split
    · cases kind <;> exact ⟨_, _, _, _, _, _, rfl⟩
    · exact ⟨_, _, _, _, _, _, rfl⟩

theorem displays_cyclic (c : Config) (base : State) : Cyclic c (Displays c base) fun _ => True where
  closed := fun i m _ => displays_closed i m c base
  bus := displays_bus c base
  gap := fun h => by
    unfold userGapStep
    split <;> [exact h; exact h; skip]
    unfold userEnters
    split <;> [exact h; split <;> exact h]
  interrupt := fun h hi => by
    obtain ⟨_, _, rfl⟩ := takeInterrupt_same hi
    exact h.of_same (State.clearPending_cfg ..) (State.clearPending_termOut ..)
  raise := fun h hr => by obtain ⟨_, _, _, _, _, _, _, _, rfl⟩ := raise_same hr; exact h
  count := fun {s} h => by obtain ⟨_, _, _, _, _, _, hs⟩ := countOne_same s; rw [hs]; exact h
  forget := id

/-- Settles O57: no part of a step changes the configuration, and OUT alone touches the terminal, at its end. -/
theorem configurationStaysAndTerminalGrows : Obligations.ConfigurationStaysAndTerminalGrows :=
  fun s _ h => (displays_cyclic s.cfg s).step ⟨rfl, [], by simp⟩ h

/-! #### The mode, the pending flags and the status registers (R129, R142, R88, R150) -/

/-- What the instruction `i`, begun in the state `base`, has done of the mode, the pending flags and the exception status registers. -/
structure ByRule (i : Instr) (base s : State) : Prop where
  cfg : s.cfg = base.cfg
  mode : base.mode = .priv → s.mode = .unpriv → i = .iret ∨ IsOpen base.cfg i
  pending : ∀ k, base.pending k = true → s.pending k = true
  status : base.cfg.Admissible → ∀ r, isStatus r = true → s.reg r ≠ base.reg r →
    base.mode = .priv ∧ r ∈ instrRegs i ∧ (base.cfg.statusWrites = .byMov → i.mnemonic = .mov)

theorem ByRule.of_same (h : ByRule i base s) (hc : t.cfg = s.cfg := by rfl) (hm : t.mode = s.mode := by rfl)
    (hp : ∀ k, s.pending k = true → t.pending k = true := by intro k hk; cases k <;> exact hk)
    (hr : ∀ r, isStatus r = true → t.reg r = s.reg r := by intro r _; cases r <;> first | rfl | contradiction) : ByRule i base t where
  cfg := hc.trans h.cfg
  mode := hm ▸ h.mode
  pending := fun k hk => hp k (h.pending k hk)
  status := fun ha r hs hne => h.status ha r hs (hr r hs ▸ hne)

theorem ByRule.refl (i : Instr) (s : State) : ByRule i s s :=
  ⟨rfl, fun hp hu => (nomatch hp.symm.trans hu), fun _ => id, fun _ _ _ hne => absurd rfl hne⟩

theorem byRule_closed (i : Instr) (base : State) : Closed i base.mode base.cfg (ByRule i base) fun _ => True where
  cfg := ByRule.cfg
  word := fun _ => trivial
  aux := fun _ _ => trivial
  reg := fun _ _ => trivial
  mem := fun _ _ => trivial
  draw := fun h => h.of_same
  poke := fun h _ _ _ => h.of_same
  note := fun h _ _ _ => h.of_same
  sp := fun h _ => h.of_same
  imm := fun _ => trivial
  str := fun _ => trivial
  ip := fun h _ => h.of_same
  setReg := fun {s r v} h _ hset => by
    refine ⟨by simp [h.cfg], by simpa using h.mode, fun k hk => ?_, fun ha q hq hne => ?_⟩
    · have := h.pending k hk
      cases k <;> simpa [State.pending] using this
    · by_cases he : q = r
      · subst he
        obtain ⟨hn, hmov⟩ := (hset.2 ha).2 hq
        exact ⟨hset.1 (by cases q <;> first | rfl | contradiction), hn, hmov⟩
      · exact h.status ha q hq (State.reg_setReg_ne s r q v he ▸ hne)
  enter := fun h => ⟨h.cfg, nofun, fun k hk => by have := h.pending k hk; cases k <;> exact this, fun ha r hs hne =>
    h.status ha r hs (by cases r <;> exact hne)⟩
  valid := fun _ h => h.of_same
  out := fun _ h _ => h.of_same
  consoleWait := fun _ h => h.of_same
  waiting := fun _ h => h.of_same
  ini := fun _ h _ => ⟨trivial, h.of_same⟩
  block := fun _ h _ => h.of_same
  transfer := fun {s kind p b} _ h _ _ => by
    refine h.of_same (by simp) (by simp) (fun k hk => ?_) fun r _ => ?_
    · cases k with
      | timer | console => simpa [State.pending] using hk
      | disk =>
        unfold startTransfer
        split
        · exact diskComplete_pendDisk ..
        · exact hk
    · unfold startTransfer
      split
      · cases kind <;> cases r <;> rfl
      · cases r <;> rfl
  halt := fun {s} _ h _ => by obtain ⟨d, n, hs⟩ := abandonStore_same s; rw [hs]; exact h.of_same
  leave := fun _ h hi => ⟨h.cfg, fun _ _ => hi, fun k hk => by have := h.pending k hk; cases k <;> exact this, fun ha r hs hne =>
    h.status ha r hs (by cases r <;> exact hne)⟩

/-! An exception is raised in the mode in which the instruction began: a return from a trap is the last thing an instruction does. -/

theorem memRead_exc {k : Access} {L : Word} {e : Cause} (h : memRead k L s = .exc e t) : t = s := by
  rcases Res.bind_eq_exc.1 h with h | ⟨_, _, -, h⟩
  · exact (memAddr_exc h).1
  · exact absurd h physRead_ne_exc

theorem Behaviour.run_exc_mode {b : Behaviour} {e : Cause} (h : b.run s = .exc e t) : t.mode = s.mode := by
  induction b generalizing s with
  | act _ => cases h
  | read L next ih =>
    rcases Res.bind_eq_exc.1 h with h | ⟨v, u, h1, h2⟩
    · rw [memRead_exc h]
    · rw [ih v h2, (memRead_change h1).same]

theorem locateAll_exc_mode {e : Cause} : ∀ {ws : List (Word × Word)} {s : State}, locateAll ws s = .exc e t → t.mode = s.mode
  | [], _, h => by cases h
  | (L, v) :: ws, s, h => by
    rcases Res.bind_eq_exc.1 h with h | ⟨a, u, h1, h2⟩
    · rw [(memAddr_exc h).1]
    · rcases Res.bind_eq_exc.1 h2 with h2 | ⟨_, _, -, h3⟩
      · rw [locateAll_exc_mode h2, (memAddr_ok h1).2.same]
      · cases h3

theorem dropTop_ne_exc {z : Int} {e : Cause} : dropTop z s ≠ .exc e t := by
  obtain ⟨v, n, h, -⟩ := dropTop_answers z s
  rw [h]; exact nofun

theorem returnFromTrap_ne_exc {e : Cause} : returnFromTrap s ≠ .exc e t := by
  unfold returnFromTrap
  intro h
  split at h <;> [cases h; skip]
  split at h <;> [skip; cases h; cases h; cases h]
  rcases Res.bind_eq_exc.1 h with h | ⟨v, u, -, h⟩
  · exact physRead_ne_exc h
  · rcases Res.bind_eq_exc.1 h with h | ⟨_, _, -, h⟩
    · exact dropTop_ne_exc h
    · cases h

theorem advance_ne_exc {e : Cause} : advance s ≠ .exc e t := by
  unfold advance withIp; split <;> exact nofun

/-- The end of an open instruction raises no exception but the arithmetic one. -/
theorem Effect.conclude_exc {e : Effect} {d : Cause} (h : e.conclude s = .exc d t) : e.ending = .arith := by
  unfold Effect.conclude at h
  split at h
  · exact absurd h advance_ne_exc
  · cases h
  · exact absurd h returnFromTrap_ne_exc
  · cases h
  · cases h
  · assumption
  · cases h

theorem Effect.apply_exc_mode {e : Effect} {d : Cause} (h : e.apply i s = .exc d t) : t.mode = s.mode := by
  unfold Effect.apply at h
  split at h <;> [cases h; skip]
  · rfl
  rcases Res.bind_eq_exc.1 h with h | ⟨as, u, h1, h2⟩
  · exact locateAll_exc_mode h
  · split at h2
    · cases h2; rw [(locateAll_ok h1).1.same]
    · cases h2
    all_goals
      rename_i hend
      rcases Res.bind_eq_exc.1 h2 with h2 | ⟨_, v, -, h3⟩
      · exact absurd h2 storeAll_ne_exc
      · rcases Res.bind_eq_exc.1 h3 with h3 | ⟨_, _, -, h4⟩
        · rw [Effect.conclude_exc h3] at hend; cases hend
        · cases h4

theorem checkRegs_exc {rs : List Reg} {e : Cause} (h : checkRegs rs s = .exc e t) : t = s := by
  unfold checkRegs at h
  split_ifs at h
  cases h; rfl

theorem extension_exc_mode {e : Cause} (h : extension i s = .exc e t) : t.mode = s.mode := by
  unfold extension at h
  split at h <;> [cases h; skip]
  · rfl
  rcases Res.bind_eq_exc.1 h with h | ⟨_, u, h1, h2⟩
  · rw [checkRegs_exc h]
  · obtain ⟨rfl, -⟩ := checkRegs_ok.1 h1
    rcases Res.bind_eq_exc.1 h2 with h2 | ⟨f, v, h2, h3⟩
    · exact (Behaviour.run_exc_mode h2 :)
    · rw [Effect.apply_exc_mode h3, (Behaviour.run_ok h2).same]

theorem execute_open (h : IsOpen s.cfg i) : execute i s = finish (extension i s) := if_pos h

theorem execute_reference (h : ¬ IsOpen s.cfg i) : execute i s = exec i s := if_neg h

/-- An instruction begun in PRIV mode completes or stops. -/
theorem byRule_of_priv (hm : s.mode = .priv) (h : execute i s = .next t) : ByRule i s t := by
  have hs := ByRule.refl i s
  rcases (byRule_closed i s).execute hs t h with ht | ⟨e, u, hu, hr⟩
  · exact ht
  · have hend := hu.mode hm (raise_next hr).1
    by_cases ho : IsOpen s.cfg i
    · have hk := (byRule_closed i s).extension ho hs
      rw [execute_open ho] at h
      rcases finish_next.1 h with ⟨_, hx⟩ | ⟨e, u, hx, hr⟩
      · exact hk.of_ok hx
      · rw [raise_priv ((extension_exc_mode hx).trans hm)] at hr; cases hr
    · obtain rfl : i = .iret := hend.resolve_right ho
      rw [execute_reference ho, exec, execIret, privilegedOnly_priv hm] at h
      rcases finish_next.1 h with ⟨_, hx⟩ | ⟨e, u, hx, -⟩
      · exact ((byRule_closed .iret s).returnFromTrap hs hm (.inl rfl)).of_ok hx
      · exact absurd hx returnFromTrap_ne_exc

theorem isStatus_of_mem {r : Reg} (h : r ∈ [Reg.eip, .ec, .epn, .ema]) : isStatus r = true := by
  simp only [List.mem_cons, List.not_mem_nil, or_false] at h
  rcases h with rfl | rfl | rfl | rfl <;> rfl

/-- Settles O58: an instruction that completes has done only what `ByRule` admits, and one begun in UNPRIV mode that raises an exception
ends at the handler. -/
theorem modePendingFlagsAndStatusRegistersChangeByRule : Obligations.ModePendingFlagsAndStatusRegistersChangeByRule := by
  intro i s t h
  cases hm : s.mode with
  | priv =>
    have k := byRule_of_priv hm h
    exact ⟨fun _ => k.mode hm, k.pending, fun r hr ha hne => .inl (hm ▸ k.status ha r (isStatus_of_mem hr) hne)⟩
  | unpriv =>
    rcases (byRule_closed i s).execute (.refl i s) t h with k | ⟨e, u, k, hr⟩
    · exact ⟨nofun, k.pending, fun r hr ha hne => .inl (hm ▸ k.status ha r (isStatus_of_mem hr) hne)⟩
    · obtain ⟨_, _, _, _, _, _, _, _, rfl⟩ := raise_same hr
      exact ⟨nofun, fun d hd => by have := k.pending d hd; cases d <;> exact this, fun _ _ _ _ => .inr ⟨rfl, rfl, rfl⟩⟩

/-! #### What an instruction that stays in UNPRIV mode leaves alone (R128) -/

/-- While the machine is in UNPRIV mode, nothing privileged differs from what `base` holds. -/
structure Unprivileged (base s : State) : Prop where
  cfg : s.cfg = base.cfg
  same : s.mode = .unpriv →
    (∀ r, r.privileged = true → s.reg r = base.reg r) ∧ s.p0Valid = base.p0Valid ∧ SameDevices base s ∧ SameController base s

theorem Unprivileged.of_same (h : Unprivileged base s) (hc : t.cfg = s.cfg := by rfl) (hm : t.mode = s.mode := by rfl)
    (hr : ∀ r, r.privileged = true → t.reg r = s.reg r := by intro r _; cases r <;> first | rfl | contradiction)
    (hp : t.p0Valid = s.p0Valid := by rfl) (hd : SameDevices s t := by constructor <;> rfl)
    (hk : SameController s t := by constructor <;> first | rfl | exact fun _ => rfl) : Unprivileged base t where
  cfg := hc.trans h.cfg
  same := fun hu => by
    obtain ⟨h1, h2, h3, h4⟩ := h.same (hm ▸ hu)
    exact ⟨fun r hp => (hr r hp).trans (h1 r hp), hp.trans h2, h3.trans hd, h4.trans hk⟩

/-- In UNPRIV mode the updates that PRIV mode alone admits do not happen. -/
theorem unprivileged_closed (i : Instr) (base : State) : Closed i .unpriv base.cfg (Unprivileged base) fun _ => True where
  cfg := Unprivileged.cfg
  word := fun _ => trivial
  aux := fun _ _ => trivial
  reg := fun _ _ => trivial
  mem := fun _ _ => trivial
  draw := fun h => h.of_same
  poke := fun h _ _ _ => h.of_same
  note := fun h _ _ _ => h.of_same
  sp := fun h _ => h.of_same
  imm := fun _ => trivial
  str := fun _ => trivial
  ip := fun h _ => h.of_same
  setReg := fun {s r v} h _ hset =>
    h.of_same (by simp) (by simp) (fun q hq => State.reg_setReg_ne s r q v fun he => nomatch hset.1 (he ▸ hq)) (by simp)
      (by constructor <;> simp) ⟨by simp, by simp, fun a => State.setReg_peekDisk s r v a⟩
  enter := fun h => ⟨h.cfg, nofun⟩
  valid := nofun
  out := nofun
  consoleWait := nofun
  waiting := nofun
  ini := nofun
  block := nofun
  transfer := nofun
  halt := nofun
  leave := nofun

/-- Settles O59: in UNPRIV mode no update reaches what is privileged, and an exception leaves that mode. -/
theorem unprivilegedInstructionsLeavePrivilegedState : Obligations.UnprivilegedInstructionsLeavePrivilegedState := by
  intro i s t h hs ht
  have base : Unprivileged s s := ⟨rfl, fun _ => ⟨fun _ _ => rfl, rfl, .refl s, .refl s⟩⟩
  rcases (hs ▸ unprivileged_closed i s : Closed i s.mode s.cfg (Unprivileged s) _).execute base t h with k | ⟨e, u, -, hr⟩
  · exact k.same ht
  · obtain ⟨_, _, _, _, _, _, _, _, rfl⟩ := raise_same hr
    cases ht

/-! #### What writes the disk (R51) -/

/-- The disk holds what `base` holds, and no store is pending but one that `base` has pending. -/
structure DiskKept (base s : State) : Prop where
  cfg : s.cfg = base.cfg
  disk : ∀ a, s.peekDisk a = base.peekDisk a
  store : ∀ p b n, s.diskOp = .busy .store p b n → base.diskOp = .busy .store p b n

theorem DiskKept.of_same (h : DiskKept base s) (hc : t.cfg = s.cfg := by rfl) (hd : t.disk = s.disk := by rfl)
    (ho : t.diskOp = s.diskOp := by rfl) : DiskKept base t where
  cfg := hc.trans h.cfg
  disk := fun a => by rw [← h.disk a]; unfold State.peekDisk; rw [hd]
  store := ho ▸ h.store

/-- An instruction that is no STORE and abandons no pending store writes no word of the disk. -/
theorem diskKept_closed (m : Mode) (hi : ¬ ∃ page block, i = .store page block)
    (hh : i = .halt ∨ IsOpen base.cfg i → ¬ ∃ p b n, base.diskOp = .busy .store p b n) :
    Closed i m base.cfg (DiskKept base) fun _ => True where
  cfg := DiskKept.cfg
  word := fun _ => trivial
  aux := fun _ _ => trivial
  reg := fun _ _ => trivial
  mem := fun _ _ => trivial
  draw := fun h => h.of_same
  poke := fun h _ _ _ => h.of_same
  note := fun h _ _ _ => h.of_same
  sp := fun h _ => h.of_same
  imm := fun _ => trivial
  str := fun _ => trivial
  ip := fun h _ => h.of_same
  setReg := fun h _ _ => h.of_same (by simp) (by simp) (by simp)
  enter := fun h => h.of_same
  valid := fun _ h => h.of_same
  out := fun _ h _ => h.of_same
  consoleWait := fun _ h => h.of_same
  waiting := fun _ h => h.of_same
  ini := fun _ h _ => ⟨trivial, h.of_same⟩
  block := fun _ h _ => h.of_same
  transfer := fun {s kind p b} _ h _ hk => by
    cases kind with
    | store => exact absurd (hk rfl) hi
    | load =>
      unfold startTransfer
      split
      · exact ⟨h.cfg, h.disk, nofun⟩
      · exact ⟨h.cfg, h.disk, nofun⟩
  halt := fun {s} _ h hx => by
    unfold abandonStore
    split
    · next p b n hd => exact absurd ⟨p, b, n, h.store p b n hd⟩ (hh hx)
    · exact h.of_same
  leave := fun _ h _ => h.of_same

/-- Settles O60: where the instruction is none of those named, none of its updates writes the disk. -/
theorem onlyStoreWritesTheDisk : Obligations.OnlyStoreWritesTheDisk := by
  rintro i s t h ⟨a, ha⟩
  by_contra hn
  obtain ⟨hstore, hend⟩ := not_or.1 hn
  have base : DiskKept s s := ⟨rfl, fun _ => rfl, fun _ _ _ => id⟩
  rcases (diskKept_closed s.mode hstore fun hx hb => hend ⟨hx, hb⟩).execute base t h with k | ⟨e, u, k, hr⟩
  · exact ha (k.disk a)
  · obtain ⟨_, _, _, _, _, _, _, _, rfl⟩ := raise_same hr
    exact ha (k.disk a)

end Sys2Proof.Machine
end

/-! ### Accesses and the stack: when they answer, trap and stop (R11, R12, R46, R138) -/

section
namespace Sys2Proof.Machine

variable {s t : State} {k : Access} {L v w : Word} {a p : Nat} {z : Int} {e : Cause} {f : Fault} {r : Refusal}

/-- R46: page 0 is not written. -/
theorem physWrite_rom (h : p < 512) (v : Word) (s : State) : physWrite p v s = .refuse .romWrite := if_pos h

/-- R138: a page with a transfer pending is not written. -/
theorem physWrite_locked (h : 512 ≤ p) (hl : ¬ Unlocked s p) (v : Word) : physWrite p v s = .refuse .pageLocked := by
  rw [physWrite, if_neg (by omega), if_pos (by rwa [← writeLocked_eq_false, Bool.not_eq_false] at hl)]

/-- R138: a page with a load pending is not read. -/
theorem physRead_locked (h : readLocked s p = true) : physRead p s = .refuse .pageLocked := if_pos h

/-- R12: a word that holds no value is not read. -/
theorem physRead_none (hl : readLocked s p = false) (h : s.peek p = none) : physRead p s = .fault .noValue := by
  simp [physRead, hl, h]

theorem physRead_some (hl : readLocked s p = false) (h : s.peek p = some v) : physRead p s = .ok v s := physRead_ok.2 ⟨rfl, hl, h⟩

/-- R138: a load bars its page to both kinds of access, a store to writes alone. -/
theorem locked_of_busy {kind : Transfer} {q : Fin 128} {b : Fin 512} {c : Nat} (hd : s.diskOp = .busy kind q b c) (hp : p / 512 = q.val) :
    ¬ Unlocked s p ∧ readLocked s p = decide (kind = .load) := by
  refine ⟨fun h => h _ _ _ _ hd hp, ?_⟩
  cases kind <;> simp [readLocked, hd, hp]

/-- Settles O12: each clause is one of the checks of a physical access. -/
theorem romAndPendingPagesAreBarred : Obligations.RomAndPendingPagesAreBarred := by
  refine fun s a v => ⟨fun h => physWrite_rom h v s, fun kind p b c hd hp => ?_, physRead_none⟩
  obtain ⟨hw, hr⟩ := locked_of_busy hd hp
  refine ⟨fun h => physWrite_locked h hw v, ?_, ?_⟩
  · rintro rfl; exact physRead_locked hr
  · rintro rfl w hw; exact physRead_some hr hw

/-! #### Reads and writes of memory -/

/-- R11: a read at an address that translates is the physical read there. -/
theorem memRead_eq (hm : memAddr k L s = .ok p t) : memRead k L s = physRead p t := by rw [memRead, hm, Res.bind_ok]

theorem memRead_of (hm : memAddr k L s = .ok p t) (hl : readLocked t p = false) (hv : t.peek p = some v) : memRead k L s = .ok v t := by
  rw [memRead_eq hm, physRead_some hl hv]

theorem memRead_trap (hm : memAddr k L s = .exc e t) : memRead k L s = .exc e t := by rw [memRead, hm, Res.bind_exc]

theorem memWrite_eq (hm : memAddr .write L s = .ok p t) : memWrite L v s = physWrite p v t := by rw [memWrite, hm, Res.bind_ok]

theorem memWrite_of (hm : memAddr .write L s = .ok p t) (hp : 512 ≤ p) (hu : Unlocked t p) :
    memWrite L v s = .ok () (t.poke p (some v)) := by
  rw [memWrite_eq hm]; exact physWrite_ok.2 ⟨hp, hu, rfl⟩

theorem memWrite_trap (hm : memAddr .write L s = .exc e t) : memWrite L v s = .exc e t := by rw [memWrite, hm, Res.bind_exc]

/-! #### The stack -/

/-- A push is a write above the top, and then the new top. -/
theorem push_int (hz : s.sp = .int z) (v : Word) :
    push v s = (memWrite (.int (z + 1)) v s).bind fun _ s => .ok () { s with sp := .int (z + 1) } := by
  simp only [push, hz]

theorem push_str (h : ∃ cs, s.sp = .str cs) (v : Word) : push v s = .exc (.illegalMem s.sp) s := by
  obtain ⟨cs, h⟩ := h
  simp only [push, h]

theorem push_trap (hz : s.sp = .int z) (hm : memAddr .write (.int (z + 1)) s = .exc e t) (v : Word) : push v s = .exc e t := by
  rw [push_int hz, memWrite_trap hm, Res.bind_exc]

theorem push_fault (hz : s.sp = .int z) (hm : memAddr .write (.int (z + 1)) s = .fault f) (v : Word) : push v s = .fault f := by
  rw [push_int hz, memWrite, hm]; rfl

theorem push_refuse (hz : s.sp = .int z) (hm : memAddr .write (.int (z + 1)) s = .refuse r) (v : Word) : push v s = .refuse r := by
  rw [push_int hz, memWrite, hm]; rfl

theorem push_barred (hz : s.sp = .int z) (hm : memAddr .write (.int (z + 1)) s = .ok p t) (hw : physWrite p v t = .refuse r) :
    push v s = .refuse r := by
  rw [push_int hz, memWrite_eq hm, hw, Res.bind_refuse]

/-- A pop is a read at the top, and then the top below it. -/
theorem pop_int (hz : s.sp = .int z) : pop s = (memRead .read (.int z) s).bind fun v s => (dropTop z s).bind fun _ s => .ok v s := by
  simp only [pop, hz]

theorem pop_str (h : ∃ cs, s.sp = .str cs) : pop s = .exc (.illegalMem s.sp) s := by
  obtain ⟨cs, h⟩ := h
  simp only [pop, h]

theorem pop_trap (hz : s.sp = .int z) (hm : memAddr .read (.int z) s = .exc e t) : pop s = .exc e t := by
  rw [pop_int hz, memRead_trap hm, Res.bind_exc]

end Sys2Proof.Machine
end

/-! ### The fetch (R17, R60) -/

section
namespace Sys2Proof.Machine

variable {s t u : State} {z : Int} {n p q : Nat} {w0 w1 : Word} {c : Cause}

theorem fetchable_priv (hm : s.mode = .priv) (hz : s.ip = .int z) : fetchable s = decide (z % 2 = 0 ∧ 0 ≤ z ∧ z ≤ 65534) := by
  simp only [fetchable, hm, hz]

theorem fetchable_unpriv (hm : s.mode = .unpriv) (hz : s.ip = .int z) :
    fetchable s = (decide (z % 2 = 0) && immInRange s.cfg z && immInRange s.cfg (z + 1)) := by
  simp only [fetchable, hm, hz]

/-- R17: an IP that may be fetched at is an even integer, in PRIV mode an address of two words. -/
theorem fetchable_even (h : fetchable s = true) : ∃ z, s.ip = .int z ∧ z % 2 = 0 ∧ (s.mode = .priv → 0 ≤ z ∧ z ≤ 65534) := by
  cases hip : s.ip with
  | str => simp [fetchable, hip] at h
  | int z =>
    refine ⟨z, rfl, ?_⟩
    cases hm : s.mode with
    | priv =>
      rw [fetchable_priv hm hip, decide_eq_true_eq] at h
      exact ⟨h.1, fun _ => h.2⟩
    | unpriv =>
      rw [fetchable_unpriv hm hip, Bool.and_eq_true, Bool.and_eq_true, decide_eq_true_eq] at h
      exact ⟨h.1.1, nofun⟩

theorem fetch_refused (h : fetchable s = false) : fetch s = .refuse .badIp := if_neg (by rw [h]; decide)

/-- The first read of a fetch traps. -/
theorem fetch_trap_first (hf : fetchable s = true) (hz : s.ip = .int z)
    (hm : memAddr .fetch (.int z) { s with touched := [] } = .exc c t) : fetch s = .exc c t := by
  rw [fetch_eq hf hz, memRead_trap hm, Res.bind_exc]

/-- The second read of a fetch traps. -/
theorem fetch_trap_second (hf : fetchable s = true) (hz : s.ip = .int z)
    (h0 : memRead .fetch (.int z) { s with touched := [] } = .ok w0 t) (hm : memAddr .fetch (.int (z + 1)) t = .exc c u) :
    fetch s = .exc c u := by
  rw [fetch_eq hf hz, h0, Res.bind_ok, memRead_trap hm, Res.bind_exc]

/-- A fetch answers the words of its two reads. -/
theorem fetch_of (hf : fetchable s = true) (hz : s.ip = .int z)
    (h0 : memRead .fetch (.int z) { s with touched := [] } = .ok w0 t) (h1 : memRead .fetch (.int (z + 1)) t = .ok w1 u) :
    fetch s = .ok (w0, w1) u := by
  rw [fetch_eq hf hz, h0, Res.bind_ok, h1, Res.bind_ok]

theorem memRead_priv {k : Access} {v : Word} (hm : s.mode = .priv) (hn : n ≤ 65535) (hl : readLocked s n = false) (hv : s.peek n = some v) :
    memRead k (.int n) s = .ok v s :=
  memRead_of (memAddr_priv_of_physAddr hm (physAddr_eq_some.2 ⟨rfl, hn⟩)) hl hv

/-- R60: in PRIV mode the fetch reads the words at IP and IP + 1. -/
theorem fetch_priv (hm : s.mode = .priv) (hip : s.ip = .int n) (he : n % 2 = 0) (hn : n ≤ 65534) (h0 : s.peek n = some w0)
    (h1 : s.peek (n + 1) = some w1) (hl0 : readLocked s n = false) (hl1 : readLocked s (n + 1) = false) :
    fetch s = .ok (w0, w1) { s with touched := [] } := by
  have hf : fetchable s = true := by rw [fetchable_priv hm hip]; simp only [decide_eq_true_eq]; omega
  have hcast : ((n : Int) + 1) = ((n + 1 : Nat) : Int) := by omega
  refine fetch_of hf hip (memRead_priv (s := { s with touched := [] }) hm (by omega) hl0 h0) ?_
  rw [hcast]
  exact memRead_priv (s := { s with touched := [] }) hm (by omega) hl1 h1

/-- Settles O51: whether IP may be fetched at, and then the two reads in order. -/
theorem fetchReadsTwoWordsAtAnEvenIp : Obligations.FetchReadsTwoWordsAtAnEvenIp := by
  refine fun s => ⟨fun hm => ⟨fun n w0 w1 hip he hn h0 h1 hl0 hl1 => fetch_priv hm hip he hn h0 h1 hl0 hl1, fun hno => ?_⟩,
    fun z c w0 w1 p q t u hm hip he => ⟨fun hbad => ?_, fun hz hz1 => ?_⟩, fun hodd => ?_⟩
  · refine fetch_refused (Bool.eq_false_iff.2 fun hf => ?_)
    obtain ⟨z, hz, he, hr⟩ := fetchable_even hf
    obtain ⟨h0, h1⟩ := hr hm
    exact hno z.toNat (by omega) (by omega) (by rw [hz]; congr 1; omega)
  · refine fetch_refused ?_
    rw [fetchable_unpriv hm hip]
    rcases hbad with h | h <;> simp [h]
  · have hf : fetchable s = true := by rw [fetchable_unpriv hm hip]; simp [he, hz, hz1]
    refine ⟨fetch_trap_first hf hip, fun ha hl hw => ?_⟩
    have h0 := memRead_of ha hl hw
    exact ⟨fetch_trap_second hf hip h0, fun ha1 hl1 hw1 => fetch_of hf hip h0 (memRead_of ha1 hl1 hw1)⟩
  · refine fetch_refused (Bool.eq_false_iff.2 fun hf => ?_)
    obtain ⟨z, hz, he, -⟩ := fetchable_even hf
    have := hodd z hz
    omega

end Sys2Proof.Machine
end

/-! ### The user, the choice of an interrupt, the instruction and its counting (R132 to R144) -/

section
namespace Sys2Proof.Machine

variable {s t u : State} {w : Word × Word} {i : Instr}

theorem step_running (h : s.halted = false) : step s = processorStep (userGapStep s) := by simp [step, h]

theorem userGapStep_nil (h : s.userGap = []) : userGapStep s = s := by simp only [userGapStep, h]

theorem processorStep_none (h : dueInterrupt s = none) : processorStep s = runInstruction s := by simp only [processorStep, h]

theorem processorStep_some {k : Device} (h : dueInterrupt s = some (k, t)) : processorStep s = takeInterrupt k t := by
  simp only [processorStep, h]

theorem dueInterrupt_priv (h : s.mode = .priv) : dueInterrupt s = none := by simp only [dueInterrupt, h]

theorem dueInterrupt_unpriv (h : s.mode = .unpriv) : dueInterrupt s = chooseDevice s := by simp only [dueInterrupt, h]

/-- In PRIV mode, when the user does nothing, a step is an instruction. -/
theorem step_priv (hh : s.halted = false) (hg : s.userGap = []) (hm : s.mode = .priv) : step s = runInstruction s := by
  rw [step_running hh, userGapStep_nil hg, processorStep_none (dueInterrupt_priv hm)]

/-- Settles O48: an interrupt is chosen exactly when one is pending, and in UNPRIV mode alone. -/
theorem pendingInterruptComesBeforeTheInstruction : Obligations.PendingInterruptComesBeforeTheInstruction := by
  refine fun s hh hg => ⟨fun hm ⟨k, hk⟩ => ?_, step_priv hh hg⟩
  cases hc : chooseDevice s with
  | none => rw [chooseDevice_none.1 hc k] at hk; cases hk
  | some x =>
    obtain ⟨k, t⟩ := x
    obtain ⟨hp, ht⟩ := chooseDevice_some hc
    exact ⟨k, t, hp, ht, by rw [step_running hh, userGapStep_nil hg, processorStep_some ((dueInterrupt_unpriv hm).trans hc)]⟩

/-! #### The instruction -/

theorem runInstruction_ok (h : fetch s = .ok w t) : runInstruction s = retire s.mode (execWords w t) := by simp only [runInstruction, h]

theorem runInstruction_exc {c : Cause} (h : fetch s = .exc c t) : runInstruction s = retire s.mode (raise c t) := by
  simp only [runInstruction, h]

theorem runInstruction_fault {f : Fault} (h : fetch s = .fault f) : runInstruction s = .fault f := by
  simp only [runInstruction, h, retire_fault]

theorem runInstruction_refuse {r : Refusal} (h : fetch s = .refuse r) : runInstruction s = .refused r := by
  simp only [runInstruction, h, retire_refused]

theorem execWords_ok (h : decodeWords s.cfg w.1 w.2 = .ok i) : execWords w s = execute i s := by simp only [execWords, h]

theorem execWords_error {e : Illegal} (h : decodeWords s.cfg w.1 w.2 = .error e) : execWords w s = raise .illegalInstr s := by
  simp only [execWords, h]

theorem retire_next_eq (m : Mode) (u : State) :
    retire m (.next u) = .next { (if m = .unpriv then countOne u else u) with touched := [] } := by
  cases m <;> rfl

/-- Settles O49: a step that takes no interrupt is the fetch, the decoding and the execution, each end of which ends it. -/
theorem stepRunsTheDecodedInstruction : Obligations.StepRunsTheDecodedInstruction := by
  intro s t w i e c hh hd
  have hstep : step s = runInstruction (userGapStep s) := by rw [step_running hh, processorStep_none hd]
  rw [hstep]
  refine ⟨fun hf hi => ⟨fun hr => ?_, fun hs ho => ?_⟩, fun hf he => ?_, runInstruction_exc, fun f => runInstruction_fault,
    fun r => runInstruction_refuse⟩
  · have hno : ¬ IsOpen t.cfg i := fun ho => by
      rcases hr with hr | hr
      · rw [ho.1] at hr; cases hr
      · rw [ho.2] at hr; cases hr
    rw [runInstruction_ok hf, execWords_ok hi, execute_reference hno]
    exact ⟨fun u hu => by rw [hu, retire_next_eq], fun f hf => by rw [hf, retire_fault], fun r hr => by rw [hr, retire_refused]⟩
  · rw [runInstruction_ok hf, execWords_ok hi, execute_open ⟨hs, ho⟩]
  · rw [runInstruction_ok hf, execWords_error he]

/-- Settles O6: what the decoder makes of two words, and what is done with either answer. -/
theorem illegalWordsTrapOrFault : Obligations.IllegalWordsTrapOrFault := by
  refine fun s w => ⟨fun e he => ⟨fun _ => execWords_error he, fun hm => by rw [execWords_error he, raise_priv hm]⟩, fun e he => ?_,
    fun i hi => ⟨fun hbad => ?_, fun hx ho => execWords_ok ?_⟩⟩
  · simp only [decodeWords, he]
  · have hna : admits s.cfg i = false := by
      rw [Bool.eq_false_iff]
      intro ha
      simp only [admits, Bool.and_eq_true, List.all_eq_true, Bool.or_eq_true, Bool.not_eq_true', List.contains_iff_mem] at ha
      obtain ⟨hops, hext⟩ := ha
      rcases hbad with ⟨hs, hm⟩ | ⟨o, ho, hr⟩
      · rcases hext with h | h
        · rw [hs] at h; cases h
        · exact hm h
      · rw [hops o ho] at hr; cases hr
    simp [decodeWords, hi, hna]
  · have ha : admits s.cfg i = true := by
      simp only [admits, Bool.and_eq_true, List.all_eq_true, Bool.or_eq_true, Bool.not_eq_true', List.contains_iff_mem]
      exact ⟨ho, (Bool.eq_false_or_eq_true i.supplement).elim (fun hs => .inr (hx hs)) .inl⟩
    simp only [decodeWords, hi, ha, if_true]

/-! #### What is counted -/

theorem diskCountOne_timer (s : State) : (diskCountOne s).timerCount = s.timerCount ∧ (diskCountOne s).pendTimer = s.pendTimer := by
  unfold diskCountOne
  split
  · exact ⟨rfl, rfl⟩
  · split
    · exact ⟨diskComplete_timerCount .., diskComplete_pendTimer ..⟩
    · exact ⟨rfl, rfl⟩

/-- Settles O52: of what is counted only the timer's own count touches the timer. -/
theorem timerCountsUnprivilegedInstructions : Obligations.TimerCountsUnprivilegedInstructions := by
  intro s u m h
  obtain ⟨_, ⟨⟩, rfl⟩ := retire_next.1 h
  cases m with
  | priv => exact ⟨fun _ => ⟨rfl, rfl⟩, fun _ => ⟨rfl, rfl⟩, nofun⟩
  | unpriv =>
    obtain ⟨hcount, hpend⟩ := diskCountOne_timer (timerCountOne s)
    show (_ → (countOne s).timerCount = _ ∧ (countOne s).pendTimer = _) ∧ (_ → (countOne s).timerCount = _ ∧ (countOne s).pendTimer = _) ∧
      ∀ t, _ → _ → (_ → (countOne s).timerCount = _ ∧ (countOne s).pendTimer = _) ∧ (_ → (countOne s).timerCount = _ ∧ (countOne s).pendTimer = _)
    rw [countOne, hcount, hpend]
    refine ⟨nofun, fun hn => ?_, fun t _ ht => ⟨fun he => ?_, fun he => ?_⟩⟩
    · simp only [timerCountOne, hn, and_self]
    · simp only [timerCountOne, ht, if_pos he, and_self]
    · simp only [timerCountOne, ht, if_neg he, and_self]

variable {p : Fin 128} {b : Fin 512} {a j : Nat}

/-- R52: the words of a page that a block was brought to, and of the rest of memory. -/
theorem peek_blockToPage_inside (h : s.memWf) (hj : j < 512) : (blockToPage p b s).peek (512 * p.val + j) = s.peekDisk (512 * b.val + j) := by
  rw [peek_blockToPage h, if_pos (by omega), Nat.add_sub_cancel_left]

theorem peek_blockToPage_outside (h : s.memWf) (ha : a / 512 ≠ p.val) : (blockToPage p b s).peek a = s.peek a := by
  rw [peek_blockToPage h, if_neg (by omega)]

/-- R52: the words of a block that a page was stored to, and of the rest of the disk. -/
theorem peekDisk_pageToBlock_inside (h : s.diskWf) (hj : j < 512) :
    (pageToBlock p b s).peekDisk (512 * b.val + j) = s.peek (512 * p.val + j) := by
  rw [peekDisk_pageToBlock h, if_pos (by omega), Nat.add_sub_cancel_left]

theorem peekDisk_pageToBlock_outside (h : s.diskWf) (ha : a / 512 ≠ b.val) : (pageToBlock p b s).peekDisk a = s.peekDisk a := by
  rw [peekDisk_pageToBlock h, if_neg (by omega)]

/-- R136: a pending transfer is counted, and completes when its time has passed. -/
theorem countOne_busy {kind : Transfer} {c : Nat} (h : s.diskOp = .busy kind p b c) :
    ∃ n f, countOne s = if s.cfg.dtime ≤ c + 1 then diskComplete kind p b { s with timerCount := n, pendTimer := f }
      else { s with timerCount := n, pendTimer := f, diskOp := .busy kind p b (c + 1) } := by
  obtain ⟨n, f, ht⟩ := timerCountOne_same s
  refine ⟨n, f, ?_⟩
  rw [countOne, ht, diskCountOne]
  simp only [h]

/-- Settles O53: below its time a transfer only gains a count; at its time it is the block transfer that completes. -/
theorem diskTransferCompletesAfterItsTime : Obligations.DiskTransferCompletesAfterItsTime := by
  intro s u kind p b c hm hdk hd h
  obtain ⟨_, ⟨⟩, rfl⟩ := retire_next.1 h
  obtain ⟨n, f, hc⟩ := countOne_busy hd
  simp only [retired]
  rw [hc]
  refine ⟨fun hlt => ?_, fun hle => ?_⟩
  · rw [if_neg (by omega)]
    exact ⟨rfl, rfl, fun _ _ => rfl, fun _ => rfl⟩
  · rw [if_pos hle]
    refine ⟨diskComplete_diskOp .., diskComplete_pendDisk .., ?_, ?_⟩
    · rintro rfl
      exact ⟨fun j hj => peek_blockToPage_inside hm hj, fun a ha => peek_blockToPage_outside hm ha, fun _ => rfl⟩
    · rintro rfl
      exact ⟨fun j hj => peekDisk_pageToBlock_inside hdk hj, fun a ha => peekDisk_pageToBlock_outside hdk ha, fun _ _ => rfl⟩

/-! #### The user -/

theorem userEnters_waiting (h : s.waiting = true) (v : Word) : userEnters v s = { s with userIni := v :: s.userIni } := if_pos h

theorem userEnters_ignored (h : s.waiting = false) (hc : s.consoleWait = false) (v : Word) : userEnters v s = s := by
  simp [userEnters, h, hc]

/-- R140: the console takes the word into P0. -/
theorem userEnters_console (h : s.waiting = false) (hc : s.consoleWait = true) (v : Word) :
    userEnters v s = { s.setReg (.port 0) v with p0Valid := true, consoleWait := false, pendConsole := true } := by
  simp [userEnters, h, hc, State.setReg]

/-- Settles O28: the user's word goes to a waiting INI, else to a waiting console, else nowhere. -/
theorem userInputReachesOnlyAWaitingConsole : Obligations.UserInputReachesOnlyAWaitingConsole := by
  refine fun s w gs => ⟨userGapStep_nil, fun h => by simp only [userGapStep, h], fun h => by simp only [userGapStep, h],
    fun h => userEnters_waiting h w, fun h hc => userEnters_ignored h hc w, fun h hc => ?_⟩
  rw [userEnters_console h hc]
  have hreg : ∀ q, ({ s.setReg (.port 0) w with p0Valid := true, consoleWait := false, pendConsole := true } : State).reg q =
      (s.setReg (.port 0) w).reg q := fun q => by cases q <;> rfl
  refine ⟨?_, rfl, rfl, rfl, fun r hr => ?_, fun _ _ => rfl, rfl, ⟨rfl, rfl, fun _ => rfl⟩, rfl, rfl⟩
  · rw [hreg, State.reg_setReg_self]
  · rw [hreg, State.reg_setReg_ne _ _ _ _ (by simpa using hr)]

end Sys2Proof.Machine
end

/-! ### Settling the words a faulting instruction touched (R156) -/

section
namespace Sys2Proof.Machine

variable {s t : State} {a : Nat} {v old : Option Word} {l : List (Nat × Option Word)}

/-- Settling one word: it is again as it was, or keeps its update. -/
def settleOne (a : Nat) (old : Option Word) (s : State) : State :=
  { (if s.cfg.translator = .opened ∨ Config.freeBit s.freeCount then s.poke a old else s) with freeCount := s.freeCount + 1 }

theorem settleTouched_cons : settleTouched ((a, old) :: l) s = settleTouched l (settleOne a old s) := rfl

theorem settleOne_peek_ne (h : s.memWf) {b : Nat} (hb : b ≠ a) : (settleOne a old s).peek b = s.peek b := by
  unfold settleOne
  split
  · exact (peek_poke h a b old).trans (if_neg hb)
  · rfl

theorem settleOne_peek_self (h : s.memWf) :
    ((settleOne a old s).peek a = old ∨ (settleOne a old s).peek a = s.peek a) ∧
      (s.cfg.translator = .opened → (settleOne a old s).peek a = old) := by
  have hp : (s.poke a old).peek a = old := (peek_poke h a a old).trans (if_pos rfl)
  unfold settleOne
  split
  · exact ⟨.inl hp, fun _ => hp⟩
  · next hn => exact ⟨.inr rfl, fun ho => absurd (.inl ho) hn⟩

theorem settleOne_memWf (h : s.memWf) (ha : a < 65536) : (settleOne a old s).memWf := by
  unfold settleOne
  split
  · exact poke_memWf h ha old
  · exact h

theorem settleOne_cfg (a : Nat) (old : Option Word) (s : State) : (settleOne a old s).cfg = s.cfg := by
  unfold settleOne; split <;> rfl

/-- Words that were not touched are not settled. -/
theorem settleTouched_peek_of_notMem : ∀ {l : List (Nat × Option Word)} {s : State}, s.memWf → (∀ x ∈ l, x.1 < 65536) → a ∉ l.map Prod.fst →
    (settleTouched l s).peek a = s.peek a
  | [], _, _, _, _ => rfl
  | (b, old) :: l, s, h, hl, ha => by
    obtain ⟨hb, hl⟩ := List.forall_mem_cons.1 hl
    simp only [List.map_cons, List.mem_cons, not_or] at ha
    rw [settleTouched_cons, settleTouched_peek_of_notMem (settleOne_memWf h hb) hl ha.2, settleOne_peek_ne h ha.1]

/-- Each touched word is old or new, with an open Translate old. -/
theorem settleTouched_peek_of_mem (h : s.memWf) (hl : ∀ x ∈ l, x.1 < 65536) (hn : (l.map Prod.fst).Nodup) (hm : (a, old) ∈ l) :
    ((settleTouched l s).peek a = old ∨ (settleTouched l s).peek a = s.peek a) ∧
      (s.cfg.translator = .opened → (settleTouched l s).peek a = old) := by
  induction l generalizing s with
  | nil => cases hm
  | cons x l ih =>
    obtain ⟨b, o⟩ := x
    obtain ⟨hb, hlt⟩ := List.forall_mem_cons.1 hl
    obtain ⟨hnot, hnt⟩ := List.nodup_cons.1 hn
    have hwf := settleOne_memWf (old := o) h hb
    rw [settleTouched_cons]
    rcases List.mem_cons.1 hm with heq | htail
    · obtain ⟨rfl, rfl⟩ : a = b ∧ old = o := by simpa using heq
      rw [settleTouched_peek_of_notMem hwf hlt hnot]
      exact settleOne_peek_self h
    · have hne : a ≠ b := fun he => hnot (List.mem_map.2 ⟨_, htail, he⟩)
      have ih := ih hwf hlt hnt htail
      rwa [settleOne_peek_ne h hne, settleOne_cfg] at ih

/-- Settling changes no register, no device and nothing of the disk. -/
theorem settleTouched_frame (h : s.memWf) (hl : ∀ x ∈ l, x.1 < 65536) : Frame [] (l.map Prod.fst) s (settleTouched l s) := by
  refine ⟨fun r _ => ?_, fun a ha => settleTouched_peek_of_notMem h hl ha, ?_, ?_, ?_⟩ <;> rw [settleTouched_same]
  · cases r <;> rfl
  · constructor <;> rfl
  · exact ⟨rfl, rfl, fun _ => rfl⟩

/-- Settles O45: by induction on the words touched, each settled apart from the others. -/
theorem faultLeavesTouchedWordsOldOrNew : Obligations.FaultLeavesTouchedWordsOldOrNew := fun _ _ h hn hl =>
  ⟨fun _ _ hm => (settleTouched_peek_of_mem h hl hn hm).1, fun ho _ _ hm => (settleTouched_peek_of_mem h hl hn hm).2 ho,
    settleTouched_frame h hl, by rw [settleTouched_same]⟩

end Sys2Proof.Machine
end

/-! ### The exception entry (R149 to R151) -/

section
namespace Sys2Proof.Machine

variable {s t : State} {n z : Int} {p : Nat} {c d : Cause}

/-- What recording a cause writes, as an update that addressing and the stack do not see. -/
theorem unseen_recordCause (ec eip epn ema : Word) (n : Nat) (v : Word) (s : State) :
    push v { s with ec := ec, eip := eip, epn := epn, ema := ema, freeCount := n } =
      (push v s).mapState fun s => { s with ec := ec, eip := eip, epn := epn, ema := ema, freeCount := n } :=
  (unseen_record ec eip epn ema n).push (fun _ _ => ⟨rfl, rfl⟩) v s

/-- The handler's entry, from what the push of the faulting IP comes to. -/
def enterHandler (rec : State → State) : Res Unit → Out
  | .ok _ u => .next { rec u with mode := .priv, ip := .int (handler 0) }
  | .exc _ _ => .refused .exceptionPush
  | .fault f => .fault f
  | .refuse r => .refused r

/-- R149: in UNPRIV mode an exception pushes the faulting IP from the settled state and records its cause. -/
theorem raise_unpriv (hm : s.mode = .unpriv) (hip : s.ip = .int n) (hn : immInRange s.cfg n = true) (c : Cause) :
    let r := settleTouched s.touched s
    raise c s = enterHandler (fun u => { u with
        ec := c.code s.cfg, eip := .int n, epn := reportWord s.cfg r.freeCount c.page, ema := reportWord s.cfg (r.freeCount + 1) c.addr
        freeCount := r.freeCount + 2 }) (push (.int n) r) := by
  intro r
  have hr : recordCause c r = { r with
      ec := c.code s.cfg, eip := .int n, epn := reportWord s.cfg r.freeCount c.page, ema := reportWord s.cfg (r.freeCount + 1) c.addr
      freeCount := r.freeCount + 2 } := by
    rw [recordCause, settleTouched_cfg, settleTouched_ip, hip]
  have hpush : pushIp (recordCause c r) = push (.int n) (recordCause c r) := by
    simp only [pushIp, recordCause_ip, recordCause_cfg, r, settleTouched_ip, settleTouched_cfg, hip, hn, if_true]
  simp only [raise, hm]
  rw [hpush, hr, unseen_recordCause]
  cases push (.int n) r <;> rfl

/-- R10, R17: an IP that is no `Int` word is not pushed. -/
theorem pushIp_unfit (h : wordFits s.cfg s.ip = false ∨ ∃ cs, s.ip = .str cs) : pushIp s = .refuse .badIp := by
  unfold pushIp
  split
  · next n hip =>
    rw [hip] at h
    refine if_neg ?_
    rcases h with h | ⟨_, h⟩
    · exact Bool.eq_false_iff.1 h
    · cases h
  · rfl

theorem raise_unfit (hm : s.mode = .unpriv) (h : wordFits s.cfg s.ip = false ∨ ∃ cs, s.ip = .str cs) : raise c s = .refused .badIp := by
  simp only [raise, hm]
  rw [pushIp_unfit (by rwa [recordCause_cfg, recordCause_ip, settleTouched_cfg, settleTouched_ip])]

@[simp] theorem settleTouched_sp (l : List (Nat × Option Word)) : (settleTouched l s).sp = s.sp := by rw [settleTouched_same]

/-- Settles O46: the entry stops as the push of the faulting IP does. -/
theorem exceptionsThatCannotBeTaken : Obligations.ExceptionsThatCannotBeTaken := by
  refine fun c d s t n z p f r => ⟨raise_priv, raise_unfit, fun hm hip hn => ?_⟩
  rw [raise_unpriv hm hip hn]
  refine ⟨fun hs => ?_, fun hz => ?_⟩
  · rw [push_str (by rwa [settleTouched_sp])]; rfl
  · have hz : (settleTouched s.touched s).sp = .int z := by rw [settleTouched_sp, hz]
    refine ⟨fun h => ?_, fun h => ?_, fun h => ?_, fun h => ⟨fun hp => ?_, fun hp hl => ?_⟩⟩
    · rw [push_trap hz h]; rfl
    · rw [push_fault hz h]; rfl
    · rw [push_refuse hz h]; rfl
    · rw [push_barred hz h (physWrite_rom hp _ _)]; rfl
    · rw [push_barred hz h (physWrite_locked hp hl _)]; rfl

theorem reportWord_some {cfg : Config} {w : Word} (h : wordFits cfg w = true) (n : Nat) : reportWord cfg n (some w) = w := by
  simp [reportWord, h]

/-- A report that is missing or is no word is a free word. -/
theorem reportWord_free {cfg : Config} {o : Option Word} (h : ∀ w, o = some w → wordFits cfg w = false) (n : Nat) :
    reportWord cfg n o = anyWord cfg n := by
  cases o with
  | none => rfl
  | some w => simp [reportWord, h w rfl]

/-- Settles O44: the push succeeds, and each field of the state at the handler is read off. -/
theorem exceptionEntry : Obligations.ExceptionEntry := by
  intro c s t n z p hm hwf hl hip hn hz ha hp hu
  have hwt : t.memWf := (memAddr_ok ha).2.wf (settleTouched_memWf hwf hl)
  obtain ⟨mem, k, hs⟩ : ∃ mem k, settleTouched s.touched s = { s with mem := mem, freeCount := k } := ⟨_, _, settleTouched_same _ _⟩
  obtain ⟨mem', l, ht⟩ : ∃ mem' l, t = { s with mem := mem', touched := l, freeCount := k } :=
    ⟨_, _, (memAddr_ok ha).2.same.trans (by rw [hs])⟩
  have hz' : (settleTouched s.touched s).sp = .int z := by rw [settleTouched_sp, hz]
  rw [raise_unpriv hm hip hn, push_of hz' ha hp hu]
  refine ⟨_, rfl, rfl, rfl, ?_, ?_, ?_, ?_, ?_, rfl, rfl, rfl, ?_, ?_, ?_, ?_, ?_⟩
  · rintro w rfl hw
    exact reportWord_some hw _
  · refine fun h => ⟨_, reportWord_free (fun w hw => ?_) _⟩
    cases c <;> cases hw
    exact h _ rfl
  · rintro w rfl hw
    exact reportWord_some hw _
  · refine fun h => ⟨_, reportWord_free (fun w hw => ?_) _⟩
    cases c <;> cases hw
    exact h _ rfl
  · exact (peek_poke hwt p p _).trans (if_pos rfl)
  · intro r hr
    subst ht
    cases r <;> first | rfl | exact absurd (by decide) hr
  · exact fun a ha => (peek_poke hwt p a _).trans (if_neg (by simpa using ha))
  all_goals subst ht
  · constructor <;> rfl
  · exact ⟨rfl, rfl, fun _ => rfl⟩
  · rfl

end Sys2Proof.Machine
end

/-! ### The interrupt entry (R145, R146) -/

section
namespace Sys2Proof.Machine

variable {s t : State} {n : Int} {k : Device}

theorem pushIp_int (hip : s.ip = .int n) (hn : immInRange s.cfg n = true) : pushIp s = push (.int n) s := by
  simp only [pushIp, hip, hn, if_true]

/-- The interrupt entry, from what the push of IP comes to. -/
def enterDevice (k : Device) : Res Unit → Out
  | .ok _ t => .next { t.clearPending k with mode := .priv, ip := .int (handler k.number), touched := [] }
  | .exc _ _ => .refused .interruptPush
  | .fault f => .fault f
  | .refuse r => .refused r

theorem takeInterrupt_eq : takeInterrupt k s = enterDevice k (pushIp s) := by
  unfold takeInterrupt enterDevice
  cases pushIp s <;> rfl

/-- Settles O47: the entry stops as the push of IP does; where the push succeeds, each field is read off. -/
theorem deviceInterruptEntry : Obligations.DeviceInterruptEntry := by
  intro k s t n z p c f r hm
  rw [takeInterrupt_eq]
  refine ⟨fun h => by rw [pushIp_unfit h]; rfl, fun hip hn => ?_⟩
  rw [pushIp_int hip hn]
  refine ⟨fun hs => by rw [push_str hs]; rfl, fun hz => ⟨fun h => ?_, fun h => ?_, fun h => ?_, fun h => ⟨fun hp => ?_, fun hp hl => ?_⟩⟩,
    fun hz hwf ha hp hu => ?_⟩
  · rw [push_trap hz h]; rfl
  · rw [push_fault hz h]; rfl
  · rw [push_refuse hz h]; rfl
  · rw [push_barred hz h (physWrite_rom hp _ _)]; rfl
  · rw [push_barred hz h (physWrite_locked hp hl _)]; rfl
  · have hwt : t.memWf := (memAddr_ok ha).2.wf hwf
    obtain ⟨mem, l, rfl⟩ : ∃ mem l, t = { s with mem := mem, touched := l } := ⟨_, _, (memAddr_ok ha).2.same⟩
    rw [push_of hz ha hp hu]
    refine ⟨_, rfl, ?_, ?_, ?_, fun j hj => ?_, rfl, ?_, fun q hq => ?_, fun a ha => ?_, ?_⟩
    · cases k <;> exact (peek_poke hwt p p _).trans (if_pos rfl)
    · cases k <;> rfl
    · cases k <;> rfl
    · cases k <;> cases j <;> first | rfl | exact absurd rfl hj
    · cases k <;> rfl
    · cases k <;> cases q <;> first | rfl | exact absurd (by decide) hq
    · cases k <;> exact (peek_poke hwt p a _).trans (if_neg (by simpa using ha))
    · cases k <;> exact ⟨fun _ => rfl, rfl, rfl, rfl, rfl, rfl⟩

end Sys2Proof.Machine
end

/-! ### Canonical memories (R37, log 10) -/

section
namespace Sys2Proof.Machine

variable {d : Nat → Option Word} {size : Nat} {m m' : Cells}

/-- In canonical form the entries are the addresses that do not read as an unlisted one does, each with what it reads as. -/
theorem Cells.mem_iff (h : Cells.wf d size m) (c : Nat × Option Word) : c ∈ m ↔ Cells.read d m c.1 = c.2 ∧ c.2 ≠ d c.1 := by
  refine ⟨fun hc => ⟨Cells.read_mem h hc, (h.2 c hc).2⟩, fun ⟨hr, hne⟩ => ?_⟩
  obtain ⟨v, hv⟩ := (Cells.listed_iff h c.1).2 (hr ▸ hne)
  have : v = c.2 := (Cells.read_mem h hv).symm.trans hr
  rwa [this] at hv

theorem Cells.nodup (h : Cells.wf d size m) : m.Nodup := h.1.imp fun hlt he => absurd (he ▸ hlt) (Nat.lt_irrefl _)

/-- A canonical list is determined by what it reads as. -/
theorem Cells.eq_of_read (h : Cells.wf d size m) (h' : Cells.wf d size m') (hr : ∀ a, Cells.read d m a = Cells.read d m' a) : m = m' := by
  have hperm : m.Perm m' := (List.perm_ext_iff_of_nodup (Cells.nodup h) (Cells.nodup h')).2 fun c => by
    rw [Cells.mem_iff h, Cells.mem_iff h', hr]
  exact hperm.eq_of_pairwise (fun _ _ _ _ hab hba => absurd hba (Nat.lt_asymm hab)) h.1 h'.1

/-- Settles O7: two canonical lists with the same reads have the same entries in the same order. -/
theorem canonicalMemoriesThatReadAlikeAreEqual : Obligations.CanonicalMemoriesThatReadAlikeAreEqual := by
  intro s t hc hs ht hr
  unfold State.memWf at ht
  unfold State.peek at hr
  rw [← hc] at ht hr
  exact Cells.eq_of_read hs ht hr

end Sys2Proof.Machine
end

/-! ### The checks of the reference Translate (R120 to R122) -/

section
namespace Sys2Proof.Machine

variable {s t : State} {k : Access} {L w : Word} {z n b : Int} {lp off e q : Nat} {x : Aux}

theorem bitOfChar_some {c : Char} {v : Bool} (h : bitOfChar c = some v) : charOfBit v = c := by
  unfold bitOfChar at h
  split at h
  · next hc => cases h; exact hc.symm
  · split at h
    · next hc => cases h; exact hc.symm
    · cases h

/-- R121: the words read as auxiliary words are the words of four bits. -/
theorem auxOfWord_eq_some : auxOfWord w = some x ↔ w = wordOfAux x := by
  refine ⟨fun h => ?_, fun h => h ▸ auxOfWord_wordOfAux x⟩
  unfold auxOfWord at h
  split at h <;> [skip; cases h]
  split at h <;> [skip; cases h]
  next h1 h2 h3 h4 =>
    cases h
    simp only [wordOfAux, bitOfChar_some h1, bitOfChar_some h2, bitOfChar_some h3, bitOfChar_some h4]

/-- R120: an address below zero, or in a page at or past PTLR, or any while PTLR is no Int, lies in no logical page. -/
theorem logicalPage_none (h : (∃ cs, s.ptlr = .str cs) ∨ z < 0 ∨ ∃ n, s.ptlr = .int n ∧ n ≤ z / 512) : logicalPage s (.int z) = none := by
  cases hp : s.ptlr with
  | str => simp only [logicalPage, hp]
  | int n =>
    simp only [hp, reduceCtorEq, exists_false, false_or, Word.int.injEq, exists_eq_left'] at h
    simp only [logicalPage, hp, if_pos h]

/-- R121: an entry outside physical memory, or any while PTBR is no Int, has no address (log 12). -/
theorem entryAddr_none (h : (∃ cs, s.ptbr = .str cs) ∨ ∃ b, s.ptbr = .int b ∧ (b + 2 * lp < 0 ∨ 65535 < b + 2 * lp + 1)) :
    entryAddr s lp = none := by
  unfold entryAddr
  rcases h with ⟨cs, h⟩ | ⟨b, h, hr⟩
  · simp only [h]
  · simp only [h, if_neg (show ¬ (0 ≤ b + 2 * lp ∧ b + 2 * lp + 1 ≤ 65535) by omega)]

theorem referenceTranslate_none (h : logicalPage s L = none) : referenceTranslate k L s = .exc (.illegalMem L) s := by
  simp only [referenceTranslate, h]

theorem referenceTranslate_some (h : logicalPage s L = some (lp, off)) (he : entryAddr s lp = some e) :
    referenceTranslate k L s = walkEntry k L lp off e s := by
  simp only [referenceTranslate, h, he]

theorem referenceTranslate_noEntry (h : logicalPage s L = some (lp, off)) (he : entryAddr s lp = none) :
    referenceTranslate k L s = .refuse .pageTableAddress := by
  simp only [referenceTranslate, h, he]

/-- R121: an auxiliary word of another shape is refused. -/
theorem walkEntry_badAux (hr : physRead (e + 1) s = .ok w s) (hw : auxOfWord w = none) : walkEntry k L lp off e s = .refuse .pageTableEntry := by
  rw [walkEntry, hr, Res.bind_ok]
  simp only [hw]

/-- R121: an entry that is not valid is a page fault. -/
theorem walkEntry_invalid (hr : physRead (e + 1) s = .ok (wordOfAux x) s) (hx : x.valid = false) :
    walkEntry k L lp off e s = .exc (.pageFault (.int lp)) s := by
  rw [walkEntry, hr, Res.bind_ok]
  simp [auxOfWord_wordOfAux, hx]

/-- R121: a valid entry whose page number is none is refused. -/
theorem walkEntry_badPage (hr : physRead (e + 1) s = .ok (wordOfAux x) s) (hx : x.valid = true) (hp : physRead e s = .ok w s)
    (hw : pageOfWord w = none) : walkEntry k L lp off e s = .refuse .pageTableEntry := by
  rw [walkEntry, hr, Res.bind_ok]
  simp [auxOfWord_wordOfAux, hx, hp, hw]

/-- R122: a write through an entry whose write bit is 0 is an illegal memory access. -/
theorem walkEntry_readOnly (hr : physRead (e + 1) s = .ok (wordOfAux x) s) (hx : x.valid = true) (hp : physRead e s = .ok w s)
    (hw : pageOfWord w = some q) (hk : k = .write) (hwr : x.write = false) : walkEntry k L lp off e s = .exc (.illegalMem L) s := by
  rw [walkEntry, hr, Res.bind_ok]
  simp [auxOfWord_wordOfAux, hx, hp, hw, hk, hwr]

/-- R121: the words that are no page number. -/
theorem pageOfWord_none (h : ∀ q : Nat, q ≤ 127 → w ≠ .int q) : pageOfWord w = none := by
  cases w with
  | str => rfl
  | int z =>
    refine if_neg fun ⟨h0, h1⟩ => h z.toNat (by omega) ?_
    congr 1; omega

/-- Settles O10: the checks of the logical page, of the entry's address and of the entry itself, in that order. -/
theorem translationRejectsInOrder : Obligations.TranslationRejectsInOrder := by
  intro s k z hc hf
  rw [translate_reference hc hf]
  refine ⟨fun h => referenceTranslate_none (logicalPage_none h), fun n hn h0 hz => ?_⟩
  have hpage := logicalPage_int hn h0 hz
  have hcast : ((z.toNat / 512 : Nat) : Int) = z / 512 := by omega
  refine ⟨fun h => referenceTranslate_noEntry hpage (entryAddr_none (by rwa [hcast])), fun b e v hb he hle hu hv => ?_⟩
  rw [referenceTranslate_some hpage (entryAddr_int hb (by rw [hcast]; exact he) hle)]
  have haux : physRead (e + 1) s = .ok v s := physRead_some (readLocked_of_unlocked hu) hv
  refine ⟨fun hno => walkEntry_badAux haux (Option.eq_none_iff_forall_ne_some.2 fun x hx => hno x (auxOfWord_eq_some.1 hx)), ?_⟩
  rintro x rfl
  refine ⟨fun hx => by rw [walkEntry_invalid haux hx, hcast], fun w hx hue hw => ?_⟩
  have hp : physRead e s = .ok w s := physRead_some (readLocked_of_unlocked hue) hw
  refine ⟨fun hno => walkEntry_badPage haux hx hp (pageOfWord_none hno), ?_⟩
  rintro q hq rfl hk hwr
  exact walkEntry_readOnly haux hx hp (pageOfWord_natCast hq) hk hwr

/-! ### What addressing changes (R38, R41) -/

theorem Frame.monoMem {rs : List Reg} {as bs : List Nat} (h : Frame rs as s t) (hb : ∀ a ∈ as, a ∈ bs) : Frame rs bs s t :=
  ⟨h.regs, fun a ha => h.mem a fun hm => ha (hb a hm), h.mode, h.devices, h.controller⟩

/-- An update of the page table changes one word. -/
theorem updateAux_frame {a : Nat} {old : Option Word} {new : Word} {u : Unit} (hw : s.memWf) (h : updateAux a old new s = .ok u t) :
    Frame [] [a] s t := by
  obtain ⟨_, r, h1, h2⟩ := Res.bind_eq_ok.1 h
  obtain ⟨-, -, rfl⟩ := physWrite_ok.1 h1
  cases h2
  split
  · exact frame_poke hw a _ s.touched
  · exact frame_poke hw a _ _

/-- So the writes of an open Translate change the words it writes. -/
theorem writeTable_frame {u : Unit} : ∀ {ws : List (Fin 65536 × Word)} {s : State}, s.memWf → writeTable ws s = .ok u t →
    Frame [] (ws.map fun x => x.1.val) s t
  | [], _, _, h => by cases h; exact .refl _ _ _
  | (a, v) :: ws, _, hw, h => by
    obtain ⟨_, r, h1, h2⟩ := Res.bind_eq_ok.1 h
    exact ((updateAux_frame hw h1).monoMem (by simp)).trans
      ((writeTable_frame ((AuxChange.of_updateAux h1 a.isLt).wf hw) h2).monoMem fun _ hb => List.mem_cons_of_mem _ hb)

/-- With the reference Translate an access changes its entry's auxiliary word. -/
theorem referenceTranslate_frame {p : Nat} (hw : s.memWf) (h : referenceTranslate k L s = .ok p t) (hl : logicalPage s L = some (lp, off))
    (he : entryAddr s lp = some e) : Frame [] [e + 1] s t := by
  rw [referenceTranslate_some hl he] at h
  obtain ⟨_, _, _, _, -, -, -, -, -, -, hu, -⟩ := walkEntry_ok h
  exact updateAux_frame hw hu

/-- Settles O11: what an access answers, what it changes and what it raises, in each mode and with each Translate. -/
theorem addressingChangesOnlyTheEntrysBits : Obligations.AddressingChangesOnlyTheEntrysBits := by
  rintro s t k L p w hwf rfl
  refine ⟨fun h => ⟨by have := (memAddr_ok h).1; omega, by rw [(memAddr_ok h).2.same], fun hm => ?_, fun lp off e hm hc hl he => ?_,
    fun hm hc => ?_⟩, fun c h => memAddr_exc h, fun hm hL => ?_, fun z hm hc hL hz => ?_, fun _ => rfl, fun _ => rfl,
    fun a next => ⟨fun v hv => ?_, fun f hf => ?_, fun r hr => ?_⟩⟩
  · cases ha : physAddr L with
    | none => rw [memAddr_priv_of_physAddr_none hm ha] at h; cases h
    | some a => rw [memAddr_priv_of_physAddr hm ha] at h; cases h; rfl
  · rw [memAddr_unpriv hm] at h
    rcases translate_cases k L s with hx | ⟨z, rfl, hz, -⟩
    · rw [hx] at h; cases h
    · rw [translate_reference hc hz] at h
      exact referenceTranslate_frame hwf h hl he
  · rw [memAddr_unpriv hm] at h
    rcases translate_cases k L s with hx | ⟨z, rfl, hz, -⟩
    · rw [hx] at h; cases h
    · rw [translate_opened hc hz] at h
      obtain ⟨q, ws, hlast, hp, hws⟩ := Walk.run_ok h
      exact ⟨q, ws, hlast, hp, writeTable_frame hwf hws⟩
  · rw [memAddr_unpriv hm]; exact translate_unfit hL
  · subst hL
    rw [memAddr_unpriv hm, translate_opened hc hz]; rfl
  · rw [Walk.run, hv, Res.bind_ok]
  · rw [Walk.run, hf, Res.bind_fault]
  · rw [Walk.run, hr, Res.bind_refuse]

end Sys2Proof.Machine
end

/-! ### The ROM page and start-up (R34, R44, R159, R161) -/

section
namespace Sys2Proof

variable {cfg : Config} {i : Instr}

/-- R62: two strings that make up an instruction's canonical text decode to it. -/
theorem decode_canonical {t0 t1 : List Char} (ht : t0 ++ t1 = instrText i) (ho : ∀ o ∈ i.operands, operandFits cfg o = true) :
    decode cfg (.str t0) (.str t1) = .ok i := by
  rw [decode, ht]; exact decodeText_instrText ho

/-- Settles O5: each of the texts is the canonical text of its instruction, in one word or cut in two. -/
theorem specTextsDecodeAsWritten : Obligations.SpecTextsDecodeAsWritten :=
  ⟨decode_canonical (by decide) (by decide), decode_canonical (by decide) (by decide), decode_canonical (by decide) (by decide),
    decode_canonical (by decide) (by decide), decode_canonical (by decide) (by decide), decode_canonical (by decide) (by decide),
    decode_canonical (by decide) (by decide), decode_canonical (by decide) (by decide), decode_canonical (by decide) (by decide)⟩

/-- R161: the machine's decoder reads the instruction that two words spell. -/
theorem decodeWords_of_spells {w : Word × Word} (h : Spells cfg w i) : decodeWords cfg w.1 w.2 = .ok i := by
  obtain ⟨-, -, h⟩ := h
  cases hd : decodeWords cfg w.1 w.2 with
  | ok j => rw [hd] at h; exact congrArg _ (Option.some.inj h)
  | error e => rw [hd] at h; cases h

theorem Config.Admissible.spells_romLoad (h : cfg.Admissible) : Spells cfg cfg.romLoad bootLoad := by
  obtain ⟨-, -, -, -, -, -, -, h, -⟩ := h.inDomain
  exact h

theorem Config.Admissible.spells_romJump (h : cfg.Admissible) : Spells cfg cfg.romJump bootJump := by
  obtain ⟨-, -, -, -, -, -, -, -, h⟩ := h.inDomain
  exact h

end Sys2Proof

namespace Sys2Proof.Machine

variable {s t : State} {cfg : Config} {a k : Nat}

/-! #### The ROM -/

theorem romWord_blank (h4 : 4 ≤ a) (h : a ≤ 491 ∨ 511 ≤ a) : romWord cfg a = none := by
  unfold romWord
  rw [if_neg (by omega), if_neg (by omega), if_neg (by omega), if_neg (by omega), if_neg (by omega)]

theorem romWord_handler (h : k ≤ 18) : romWord cfg (492 + k) = some (.int (handler k)) := by
  unfold romWord
  rw [if_neg (by omega), if_neg (by omega), if_neg (by omega), if_neg (by omega), if_pos (by omega), Nat.add_sub_cancel_left]

/-- The words of the ROM are words of an admissible configuration. -/
theorem wordFits_romWord (hc : cfg.Admissible) {w : Word} (h : romWord cfg a = some w) : wordFits cfg w = true := by
  obtain ⟨h0, h1, -⟩ := hc.spells_romLoad
  obtain ⟨h2, h3, -⟩ := hc.spells_romJump
  by_cases ha : a < 4
  · obtain rfl | rfl | rfl | rfl : a = 0 ∨ a = 1 ∨ a = 2 ∨ a = 3 := by omega
    all_goals
      cases h
      assumption
  · by_cases hv : a ≤ 491 ∨ 511 ≤ a
    · rw [romWord_blank (by omega) hv] at h; cases h
    · obtain ⟨k, rfl⟩ := Nat.exists_eq_add_of_le (show 492 ≤ a by omega)
      rw [romWord_handler (by omega)] at h
      cases h
      exact wordFits_nat hc (show 1024 * (k + 1) ≤ 65535 by omega)

/-- Settles O2: page 0 reads as the ROM, whose words the configuration's decoder reads as the boot instructions. -/
theorem bootRomHoldsTwoInstructions : Obligations.BootRomHoldsTwoInstructions := by
  intro s hc hrom
  refine ⟨⟨_, _, _, _, hrom 0 (by omega), hrom 1 (by omega), hrom 2 (by omega), hrom 3 (by omega), decodeWords_of_spells hc.spells_romLoad,
    decodeWords_of_spells hc.spells_romJump⟩, fun a h4 ha => ?_, ?_, fun k hk => ?_⟩
  · rw [hrom a (by omega), romWord_blank h4 (.inl ha)]
  · rw [hrom 511 (by omega), romWord_blank (by omega) (.inr (by omega))]
  · rw [hrom (492 + k) (by omega), romWord_handler hk]
    simp [handler]

/-! #### Start-up -/

/-- R8, R9: the configuration of start-up is admissible. -/
theorem admissible_reset : State.reset.cfg.Admissible := ⟨by decide, nofun⟩

theorem reset_reg (r : Reg) : State.reset.reg r = .int 0 := by
  cases r with
  | gpr i | port i => simp [State.reset, State.reg]
  | _ => rfl

/-- R34: outside the ROM no word of memory holds a value at start-up. -/
theorem reset_peek_none (h : 512 ≤ a) : State.reset.peek a = none := romWord_blank (by omega) (.inr (by omega))

/-- Settles O1: the fetch of the first two words is that of PRIV mode at address 0. -/
theorem startUpFetchesFirstWordOfPageZero : Obligations.StartUpFetchesFirstWordOfPageZero := by
  refine ⟨rfl, ⟨_, _, rfl, rfl, ?_⟩, rfl, rfl, rfl, rfl, rfl, rfl, rfl, fun k => ?_, rfl, fun a => reset_peek_none⟩
  · exact fetch_priv (n := 0) rfl rfl rfl (by omega) rfl rfl rfl rfl
  · cases k <;> rfl

/-- Settles O54: memory and disk list nothing, every register holds 0, and the ROM's words are words of the configuration. -/
theorem startUpMeetsTheInvariant : Obligations.StartUpMeetsTheInvariant := by
  have hreg : ∀ r, wordFits State.reset.cfg (State.reset.reg r) = true := fun r => by rw [reset_reg]; exact wordFits_zero admissible_reset
  refine ⟨⟨admissible_reset, Cells.wf_nil, Cells.wf_nil, fun _ _ => rfl, nofun, fun t ht => ?_, rfl⟩,
    ⟨fun r _ => hreg r, .inl (hreg .ip), fun a w h => wordFits_romWord admissible_reset h, nofun, nofun, nofun, nofun⟩⟩
  cases ht
  exact Nat.zero_lt_succ _

/-! #### The registers (R86) -/

/-- R86: P0 while it is not valid reads as a free word. -/
theorem readReg_invalidP0 (h : s.p0Valid = false) :
    readReg (.port 0) s = .ok (anyWord s.cfg s.freeCount) { s with freeCount := s.freeCount + 1 } := if_pos ⟨rfl, h⟩

theorem readReg_valid {r : Reg} (h : ¬ (r = .port 0 ∧ s.p0Valid = false)) : readReg r s = .ok (s.reg r) s := if_neg h

/-- Settles O16: the one read that draws a word, and all others. -/
theorem invalidP0ReadsAsAnyWord : Obligations.InvalidP0ReadsAsAnyWord :=
  fun _ _ => ⟨fun hr hp => hr ▸ readReg_invalidP0 hp, readReg_valid⟩

end Sys2Proof.Machine
end

/-! ### MOV (R72, R117) -/

section
namespace Sys2Proof.Machine

variable {s s1 s2 t : State} {dst src a r : Reg} {L v : Word} {n m : Int} {p : Nat} {k : Access}

/-! #### What addressing leaves alone -/

theorem AuxChange.ip (h : AuxChange s t) : t.ip = s.ip := by rw [h.same]
theorem AuxChange.cfg (h : AuxChange s t) : t.cfg = s.cfg := by rw [h.same]
theorem AuxChange.reg (h : AuxChange s t) (r : Reg) : t.reg r = s.reg r := by rw [h.same]; cases r <;> rfl

theorem readReg_ip (h : readReg r s = .ok v t) : t.ip = s.ip := by rw [readReg_state h]
theorem readReg_cfg (h : readReg r s = .ok v t) : t.cfg = s.cfg := by rw [readReg_state h]

theorem readReg_memWf (h : readReg r s = .ok v t) (hw : s.memWf) : t.memWf := by
  have hm : t.mem = s.mem := by rw [readReg_state h]
  unfold State.memWf at *
  rwa [hm, readReg_cfg h]

/-! #### To a register -/

/-- R72: a MOV whose source answers writes its register and advances IP. -/
theorem finish_movReg (hd : dst ≠ .ip) (hip : t.ip = .int n) :
    ∃ u, finish (movReg dst (.ok v t)) = .next u ∧ u.reg dst = v ∧ u.ip = .int (n + 2) ∧ Frame [dst, .ip] [] t u ∧
      u.p0Valid = (t.p0Valid || decide (dst = .port 0)) := by
  have hip' : (movToReg dst v t).ip = .int n := (movToReg_ip t dst v hd).trans hip
  refine ⟨_, congrArg finish (advance_int hip'), ?_, rfl, frame_movToReg dst v _ (by simp) (by simp), movToReg_p0Valid dst v⟩
  rw [State.reg_withIp _ _ _ hd, reg_movToReg, if_pos rfl]

theorem exec_movRegReg (h : Accepts [dst, src] s) : exec (.movRegReg dst src) s = finish (movReg dst (readReg src s)) := by
  rw [exec, execMovRegReg, checkRegs_accepts h, Res.bind_ok]

theorem exec_movRegImm (h : Accepts [dst] s) : exec (.movRegImm dst m) s = finish (movReg dst (.ok (.int m) s)) := by
  rw [exec, execMovRegImm, checkRegs_accepts h, Res.bind_ok]

theorem exec_movRegStr (h : Accepts [dst] s) (cs : List Char) : exec (.movRegStr dst cs) s = finish (movReg dst (.ok (.str cs) s)) := by
  rw [exec, execMovRegStr, checkRegs_accepts h, Res.bind_ok]

theorem exec_movRegIndReg (h : Accepts [dst, a] s) (ha : readReg a s = .ok L s1) :
    exec (.movRegIndReg dst a) s = finish (movReg dst (memRead .read L s1)) := by
  rw [exec, execMovRegIndReg, checkRegs_accepts h, Res.bind_ok, ha, Res.bind_ok]

theorem exec_movRegIndImm (h : Accepts [dst] s) : exec (.movRegIndImm dst m) s = finish (movReg dst (memRead .read (.int m) s)) := by
  rw [exec, execMovRegIndImm, checkRegs_accepts h, Res.bind_ok]

/-- Settles O13: the source is a register's word, which only the free-value counter may notice, or a constant. -/
theorem movToRegisterCompletes : Obligations.MovToRegisterCompletes := by
  refine fun s t dst src v n m cs hip => ⟨fun h hr => ?_, fun h => ?_⟩
  · rw [exec_movRegReg h, hr]
    obtain ⟨u, hu, h1, h2, h3, h4⟩ := finish_movReg (dst := dst) (v := v) (ne_ip_of_accepts h (by simp)) ((readReg_ip hr).trans hip)
    exact ⟨u, hu, h1, h2, (frame_readReg hr).trans h3, h4.trans (by rw [readReg_p0Valid hr])⟩
  · rw [exec_movRegImm h, exec_movRegStr h]
    exact ⟨finish_movReg (ne_ip_of_accepts h (by simp)) hip, finish_movReg (ne_ip_of_accepts h (by simp)) hip⟩

/-- Settles O14: the source is the word at the address, read in the state after the address is translated. -/
theorem movFromMemoryCompletes : Obligations.MovFromMemoryCompletes := by
  refine fun s s1 t dst a L v n m p hip hv hl => ⟨fun h hr ha => ?_, fun h ha => ?_⟩
  · rw [exec_movRegIndReg h hr, memRead_of ha hl hv]
    exact finish_movReg (ne_ip_of_accepts h (by simp)) (by rw [(memAddr_ok ha).2.ip, readReg_ip hr, hip])
  · rw [exec_movRegIndImm h, memRead_of ha hl hv]
    exact finish_movReg (ne_ip_of_accepts h (by simp)) (by rw [(memAddr_ok ha).2.ip, hip])

/-! #### To memory -/

/-- Writing one word of memory and then IP. -/
theorem frame_poke_ip (h : t.memWf) (p : Nat) (v : Option Word) (w : Word) : Frame [.ip] [p] t { t.poke p v with ip := w } :=
  (frame_poke h p v t.touched).trans (frame_ip w (by simp))

/-- R72: a MOV to an address that may be written writes it and advances IP. -/
theorem finish_movMem {addr : State → Res Word} (hr : readReg src s = .ok v s1) (ha : addr s1 = .ok L s2)
    (hm : memAddr .write L s2 = .ok p t) (hp : 512 ≤ p) (hu : Unlocked t p) (hw : t.memWf) (hip : t.ip = .int n) :
    ∃ u, finish (movMem src addr s) = .next u ∧ u.peek p = some v ∧ u.ip = .int (n + 2) ∧ Frame [.ip] [p] t u ∧ u.p0Valid = t.p0Valid := by
  have hip' : (t.poke p (some v)).ip = .int n := hip
  have hx : movMem src addr s = .ok () { t.poke p (some v) with ip := .int (n + 2) } := by
    rw [movMem, hr, Res.bind_ok, ha, Res.bind_ok, memWrite_of hm hp hu, Res.bind_ok, advance_int hip']
  exact ⟨_, congrArg finish hx, (peek_poke hw p p _).trans (if_pos rfl), rfl, frame_poke_ip hw p _ _, rfl⟩

theorem exec_movIndRegReg (h : Accepts [a, src] s) : exec (.movIndRegReg a src) s = finish (movMem src (readReg a) s) := by
  rw [exec, execMovIndRegReg, checkRegs_accepts h, Res.bind_ok]

theorem exec_movIndImmReg (h : Accepts [src] s) : exec (.movIndImmReg m src) s = finish (movMem src (fun s => .ok (.int m) s) s) := by
  rw [exec, execMovIndImmReg, checkRegs_accepts h, Res.bind_ok]

/-- Settles O15: the source, the address and the write, in that order. -/
theorem movToMemoryCompletes : Obligations.MovToMemoryCompletes := by
  refine fun s s1 s2 t a src L v n m p hw hip hr hp hu => ⟨fun h ha hm => ?_, fun h hm => ?_⟩
  · have hc := (memAddr_ok hm).2
    rw [exec_movIndRegReg h]
    exact finish_movMem hr ha hm hp hu (hc.wf (readReg_memWf ha (readReg_memWf hr hw))) (by rw [hc.ip, readReg_ip ha, readReg_ip hr, hip])
  · have hc := (memAddr_ok hm).2
    rw [exec_movIndImmReg h]
    exact finish_movMem (addr := fun s => .ok (.int m) s) hr rfl hm hp hu (hc.wf (readReg_memWf hr hw)) (by rw [hc.ip, readReg_ip hr, hip])

end Sys2Proof.Machine
end

/-! ### Results written to a register: arithmetic, comparison, ENCRYPT (R88 to R103, R116) -/

section
namespace Sys2Proof.Machine

variable {s s1 s2 t : State} {ri rj : Reg} {a b v w : Word} {n m x y : Int} {op : ArithOp} {rel : Relation}

/-- The instruction gave the register its result and advanced IP, and changed nothing else. -/
def GivesResult (o : Out) (ri : Reg) (w : Word) (n : Int) (s : State) : Prop :=
  ∃ u, o = .next u ∧ u.reg ri = s.taken ri w ∧ u.ip = .int (n + 2) ∧ Frame [ri, .ip] [] s u ∧ u.p0Valid = s.p0Valid

/-- Operands change nothing but the free-value counter. -/
theorem readReg_readReg_state (h1 : readReg ri s = .ok a s1) (h2 : readReg rj s1 = .ok b s2) : s2 = { s with freeCount := s2.freeCount } := by
  rw [readReg_state h2, readReg_state h1]

theorem frame_freeCount {rs : List Reg} {as : List Nat} (k : Nat) : Frame rs as s { s with freeCount := k } :=
  ⟨fun _ _ => reg_freeCount _ _, fun _ _ => rfl, rfl, by constructor <;> rfl, ⟨rfl, rfl, fun _ => rfl⟩⟩

theorem givesResult_of (hr : ri ≠ .ip) (hip : s.ip = .int n) (ht : t = { s with freeCount := t.freeCount }) :
    GivesResult (finish (advance (t.setResult ri w))) ri w n s := by
  obtain ⟨k, rfl⟩ : ∃ k, t = { s with freeCount := k } := ⟨_, ht⟩
  have hip' : ({ s with freeCount := k }.setResult ri w).ip = .int n := (State.setResult_ip _ ri w hr).trans hip
  refine ⟨_, congrArg finish (advance_int hip'), ?_, rfl, (frame_freeCount k).trans (frame_setResult ri w _ (by simp) (by simp)), ?_⟩
  · rw [State.reg_withIp _ _ _ hr, reg_setResult_self]
    unfold State.taken State.keeps
    rw [reg_freeCount]
  · exact State.setResult_p0Valid ..

/-! #### Arithmetic -/

theorem arithRegReg_eq (h : Accepts [ri, rj] s) (h1 : readReg ri s = .ok a s1) (h2 : readReg rj s1 = .ok b s2) :
    arithRegReg op ri rj s = finish ((arith op a b s2).bind fun v s => advance (s.setResult ri v)) := by
  rw [arithRegReg, checkRegs_accepts h, Res.bind_ok, arithTo, h1, Res.bind_ok, h2, Res.bind_ok]

theorem arithRegImm_eq (h : Accepts [ri] s) (h1 : readReg ri s = .ok a s1) :
    arithRegImm op ri m s = finish ((arith op a (.int m) s1).bind fun v s => advance (s.setResult ri v)) := by
  rw [arithRegImm, checkRegs_accepts h, Res.bind_ok, arithTo, h1, Res.bind_ok, Res.bind_ok]

/-- R89 to R93: what the operation gives on two numbers. -/
def ArithOp.value : ArithOp → Int → Int → Int
  | .add, x, y => x + y
  | .sub, x, y => x - y
  | .mul, x, y => x * y
  | .div, x, y => x / y
  | .mod, x, y => x % y

/-- R92, R93: DIV and MOD. -/
def ArithOp.divides (op : ArithOp) : Prop := op = .div ∨ op = .mod

theorem dividesByZero_iff : dividesByZero op b = true ↔ op.divides ∧ b = .int 0 := by
  cases op <;> simp [dividesByZero, ArithOp.divides]

theorem arith_byZero (h : op.divides ∧ b = .int 0) : arith op a b s = .exc .arith s := if_pos (dividesByZero_iff.2 h)

theorem arith_string (h : ¬ (op.divides ∧ b = .int 0)) (hs : (∃ cs, a = .str cs) ∨ ∃ cs, b = .str cs) :
    arith op a b s = .refuse .stringArith := by
  unfold arith
  rw [if_neg (mt dividesByZero_iff.1 h)]
  rcases hs with ⟨cs, rfl⟩ | ⟨cs, rfl⟩
  · cases op <;> rfl
  · cases op <;> cases a <;> rfl

theorem arith_negative (h : ¬ (op.divides ∧ y = 0)) (hd : op.divides) (hn : x < 0 ∨ y < 0) :
    arith op (.int x) (.int y) s = .refuse .negativeDivision := by
  unfold arith
  rw [if_neg (mt dividesByZero_iff.1 (by simpa using h))]
  have hc : x < 0 ∨ y ≤ 0 := hn.imp id Int.le_of_lt
  rcases hd with rfl | rfl <;> exact if_pos hc

/-- R96 (3), (4): any other result is the exact one, where it is a word. -/
theorem arith_narrow (h : ¬ (op.divides ∧ y = 0)) (hn : ¬ (op.divides ∧ (x < 0 ∨ y < 0))) :
    arith op (.int x) (.int y) s = narrow (op.value x y) s := by
  unfold arith
  rw [if_neg (mt dividesByZero_iff.1 (by simpa using h))]
  cases op with
  | add | sub | mul => rfl
  | div | mod =>
    have hc : ¬ (x < 0 ∨ y ≤ 0) := by
      simp only [ArithOp.divides, reduceCtorEq, or_true, true_or, true_and] at h hn
      omega
    exact if_neg hc

theorem narrow_inRange {r : Int} (h : s.cfg.intMin ≤ r) (h' : r ≤ s.cfg.intMax) : narrow r s = .ok (.int r) s := if_pos ⟨h, h'⟩

theorem narrow_overflow {r : Int} (h : r < s.cfg.intMin ∨ s.cfg.intMax < r) : narrow r s = .refuse .overflow := if_neg (by omega)

/-- Settles O31: the checks of `arith`, in order. -/
theorem arithmeticLaws : Obligations.ArithmeticLaws := by
  refine fun op a b s => ⟨fun hd hb => arith_byZero ⟨hd, hb⟩, fun h => ⟨arith_string h, ?_⟩⟩
  rintro x y rfl rfl
  replace h : ¬ (op.divides ∧ y = 0) := by simpa [ArithOp.divides] using h
  refine ⟨fun ⟨hd, hn⟩ => arith_negative h hd hn, ?_⟩
  rintro hn r rfl
  rw [arith_narrow h hn]
  cases op <;> exact ⟨narrow_inRange, narrow_overflow⟩

/-- An operation whose result is in range gives it to the register. -/
theorem arithRegReg_gives (h : Accepts [ri, rj] s) (hip : s.ip = .int n) (h1 : readReg ri s = .ok a s1) (h2 : readReg rj s1 = .ok b s2)
    (hv : arith op a b s2 = .ok v s2) : GivesResult (arithRegReg op ri rj s) ri v n s := by
  rw [arithRegReg_eq h h1 h2, hv, Res.bind_ok]
  exact givesResult_of (ne_ip_of_accepts h (by simp)) hip (readReg_readReg_state h1 h2)

theorem arithRegImm_gives (h : Accepts [ri] s) (hip : s.ip = .int n) (h1 : readReg ri s = .ok a s1)
    (hv : arith op a (.int m) s1 = .ok v s1) : GivesResult (arithRegImm op ri m s) ri v n s := by
  rw [arithRegImm_eq h h1, hv, Res.bind_ok]
  exact givesResult_of (ne_ip_of_accepts h (by simp)) hip (readReg_state h1)

/-- R89 to R91: an operation other than DIV and MOD whose value is in range answers it. -/
theorem arith_value (h : ¬ op.divides) (hmin : s.cfg.intMin ≤ op.value x y) (hmax : op.value x y ≤ s.cfg.intMax) :
    arith op (.int x) (.int y) s = .ok (.int (op.value x y)) s := by
  rw [arith_narrow (fun hd => h hd.1) (fun hd => h hd.1), narrow_inRange hmin hmax]

/-- Settles O29: each of the instructions is `arith` of its operation. -/
theorem arithmeticWritesTheExactResult : Obligations.ArithmeticWritesTheExactResult := by
  intro s s1 s2 ri rj n m x y hip h1
  have hno : ∀ op, op = ArithOp.add ∨ op = .sub ∨ op = .mul → ¬ op.divides := by
    rintro _ (rfl | rfl | rfl) (h | h) <;> cases h
  refine ⟨fun h h2 i r hi hmin hmax => ?_, fun h i r hi hmin hmax => ?_⟩
  · have gives : ∀ op, op = ArithOp.add ∨ op = .sub ∨ op = .mul → op.value x y = r → GivesResult (arithRegReg op ri rj s) ri (.int r) n s := by
      rintro op hop rfl
      have hc : s2.cfg = s.cfg := by rw [readReg_readReg_state h1 h2]
      exact arithRegReg_gives h hip h1 h2 (arith_value (hno op hop) (by rwa [hc]) (by rwa [hc]))
    simp only [List.mem_cons, Prod.mk.injEq, List.not_mem_nil, or_false] at hi
    obtain ⟨rfl, rfl⟩ | ⟨rfl, rfl⟩ | ⟨rfl, rfl⟩ := hi
    · exact gives .add (by simp) rfl
    · exact gives .sub (by simp) rfl
    · exact gives .mul (by simp) rfl
  · have gives : ∀ op k, op = ArithOp.add ∨ op = .sub ∨ op = .mul → op.value x k = r → GivesResult (arithRegImm op ri k s) ri (.int r) n s := by
      rintro op k hop rfl
      have hc := readReg_cfg h1
      exact arithRegImm_gives h hip h1 (arith_value (hno op hop) (by rwa [hc]) (by rwa [hc]))
    simp only [List.mem_cons, Prod.mk.injEq, List.not_mem_nil, or_false] at hi
    obtain ⟨rfl, rfl⟩ | ⟨rfl, rfl⟩ | ⟨rfl, rfl⟩ | ⟨rfl, rfl⟩ | ⟨rfl, rfl⟩ := hi
    · exact gives .add m (by simp) rfl
    · exact gives .sub m (by simp) rfl
    · exact gives .mul m (by simp) rfl
    · exact gives .add 1 (by simp) rfl
    · exact gives .sub 1 (by simp) rfl

/-- R92, R93: of a non-negative dividend in range by a positive divisor, quotient and remainder are in range. -/
theorem arith_quotient (hc : s.cfg.Admissible) (h0 : 0 ≤ x) (hx : x ≤ s.cfg.intMax) (hy : 0 < y) :
    arith .div (.int x) (.int y) s = .ok (.int (x / y)) s ∧ arith .mod (.int x) (.int y) s = .ok (.int (x % y)) s := by
  obtain ⟨hmin, -⟩ := hc.inDomain
  have hq0 : 0 ≤ x / y := Int.ediv_nonneg h0 hy.le
  have hqx : x / y ≤ x := Int.ediv_le_self y h0
  have hr0 : 0 ≤ x % y := Int.emod_nonneg x hy.ne'
  have hrx : x % y ≤ x := by
    have := Int.mul_ediv_add_emod x y
    have := mul_nonneg hy.le hq0
    omega
  constructor <;> rw [arith_narrow (by omega) (by omega)]
  · exact narrow_inRange (hmin.trans hq0) (hqx.trans hx)
  · exact narrow_inRange (hmin.trans hr0) (hrx.trans hx)

/-- Settles O30: the quotient and the remainder are the library's. -/
theorem divisionWritesQuotientAndRemainder : Obligations.DivisionWritesQuotientAndRemainder := by
  intro s s1 s2 ri rj n m x y hc hip h1 h0 hx
  refine ⟨fun h h2 hy => ?_, fun h hm => ?_⟩
  · have hcfg : s2.cfg = s.cfg := by rw [readReg_readReg_state h1 h2]
    obtain ⟨hdiv, hmod⟩ := arith_quotient (s := s2) (hcfg ▸ hc) h0 (hcfg ▸ hx) hy
    obtain ⟨u, hu, u1, u2, u3, u4⟩ := arithRegReg_gives h hip h1 h2 hdiv
    obtain ⟨v, hv, v1, v2, v3, v4⟩ := arithRegReg_gives h hip h1 h2 hmod
    exact ⟨u, v, x / y, x % y, hu, hv, u1, v1, (Int.mul_ediv_add_emod x y).symm, Int.emod_nonneg x hy.ne', Int.emod_lt_of_pos x hy, u2, v2,
      u3, v3, u4, v4⟩
  · have hcfg := readReg_cfg h1
    obtain ⟨hdiv, hmod⟩ := arith_quotient (s := s1) (hcfg ▸ hc) h0 (hcfg ▸ hx) hm
    obtain ⟨u, hu, u1, u2, u3, u4⟩ := arithRegImm_gives h hip h1 hdiv
    obtain ⟨v, hv, v1, v2, v3, v4⟩ := arithRegImm_gives h hip h1 hmod
    exact ⟨u, v, x / m, x % m, hu, hv, u1, v1, (Int.mul_ediv_add_emod x m).symm, Int.emod_nonneg x hm.ne', Int.emod_lt_of_pos x hm, u2, v2,
      u3, v3, u4, v4⟩

/-- In UNPRIV mode an accepted register is not P0, and reading it changes nothing. -/
theorem readReg_unpriv {rs : List Reg} {r : Reg} (h : Accepts rs s) (hr : r ∈ rs) (hm : s.mode = .unpriv) (hx : readReg r s = .ok v t) :
    t = s := by
  have hp : r ≠ .port 0 := by rintro rfl; exact absurd (h.2 hm _ hr) (by decide)
  rw [readReg_of_ne hp] at hx
  cases hx; rfl

/-- An arithmetic condition of operands that changed nothing in UNPRIV mode. -/
theorem finish_exc_modes {c : Cause} (hmode : t.mode = s.mode) (h : s.mode = .unpriv → t = s) :
    (s.mode = .priv → finish (.exc c t) = .fault (.privileged c)) ∧ (s.mode = .unpriv → finish (.exc c t) = raise c s) :=
  ⟨fun hm => raise_priv (hmode.trans hm), fun hm => by rw [h hm, finish_exc]⟩

/-- Settles O32: where `arith` of the operands does not answer, the instruction does what it does. -/
theorem arithmeticTrapsAndRefusals : Obligations.ArithmeticTrapsAndRefusals := by
  intro s s1 s2 ri rj a b n x h1
  have regImm : Accepts [ri] s → ∀ op k, arith op a (.int k) s1 = .refuse x → arithRegImm op ri k s = .refused x := fun h op k hx => by
    rw [arithRegImm_eq h h1, hx, Res.bind_refuse, finish_refuse]
  have regReg : Accepts [ri, rj] s → readReg rj s1 = .ok b s2 → ∀ op, arith op a b s2 = .refuse x → arithRegReg op ri rj s = .refused x :=
    fun h h2 op hx => by rw [arithRegReg_eq h h1 h2, hx, Res.bind_refuse, finish_refuse]
  refine ⟨fun h i hi => ?_, fun h h2 i hi => ?_, fun h h2 i op hi hx => ?_, fun h i op m hi hx => ?_⟩
  · have zero : ∀ op : ArithOp, op.divides → arithRegImm op ri 0 s = finish (.exc .arith s1) := fun op hd => by
      rw [arithRegImm_eq h h1, arith_byZero ⟨hd, rfl⟩, Res.bind_exc]
    have ends := finish_exc_modes (s := s) (t := s1) (c := .arith) (by rw [readReg_state h1]) fun hm => readReg_unpriv h (by simp) hm h1
    simp only [List.mem_cons, List.not_mem_nil, or_false] at hi
    obtain rfl | rfl := hi
    · rwa [← zero .div (.inl rfl)] at ends
    · rwa [← zero .mod (.inr rfl)] at ends
  · have zero : ∀ op : ArithOp, op.divides → arithRegReg op ri rj s = finish (.exc .arith s2) := fun op hd => by
      rw [arithRegReg_eq h h1 h2, arith_byZero ⟨hd, rfl⟩, Res.bind_exc]
    have ends := finish_exc_modes (s := s) (t := s2) (c := .arith) (by rw [readReg_readReg_state h1 h2]) fun hm => by
      obtain rfl := readReg_unpriv h (by simp) hm h1
      exact readReg_unpriv h (by simp) hm h2
    simp only [List.mem_cons, List.not_mem_nil, or_false] at hi
    obtain rfl | rfl := hi
    · rwa [← zero .div (.inl rfl)] at ends
    · rwa [← zero .mod (.inr rfl)] at ends
  · simp only [List.mem_cons, Prod.mk.injEq, List.not_mem_nil, or_false] at hi
    obtain ⟨rfl, rfl⟩ | ⟨rfl, rfl⟩ | ⟨rfl, rfl⟩ | ⟨rfl, rfl⟩ | ⟨rfl, rfl⟩ := hi <;> exact regReg h h2 _ hx
  · simp only [List.mem_cons, Prod.mk.injEq, List.not_mem_nil, or_false] at hi
    obtain ⟨rfl, rfl, rfl⟩ | ⟨rfl, rfl, rfl⟩ | ⟨rfl, rfl, rfl⟩ | ⟨rfl, rfl, rfl⟩ | ⟨rfl, rfl, rfl⟩ | ⟨rfl, rfl, rfl⟩ | ⟨rfl, rfl, rfl⟩ := hi <;>
      exact regImm h _ _ hx

/-! #### Comparison -/

theorem compareRegs_eq (h : Accepts [ri, rj] s) (h1 : readReg ri s = .ok a s1) (h2 : readReg rj s1 = .ok b s2) :
    compareRegs rel ri rj s = finish ((compareWords rel a b s2).bind fun v s => advance (s.setResult ri v)) := by
  rw [compareRegs, checkRegs_accepts h, Res.bind_ok, h1, Res.bind_ok, h2, Res.bind_ok]

theorem ofBool_eq (c : Bool) : Word.ofBool c = .int (if c then 1 else 0) := by cases c <;> rfl

/-- A comparison that answers gives 1 or 0 to the register. -/
theorem compareRegs_gives (h : Accepts [ri, rj] s) (hip : s.ip = .int n) (h1 : readReg ri s = .ok a s1) (h2 : readReg rj s1 = .ok b s2)
    {c : Bool} (hv : compareWords rel a b s2 = .ok (.ofBool c) s2) : GivesResult (compareRegs rel ri rj s) ri (.int (if c then 1 else 0)) n s := by
  rw [compareRegs_eq h h1 h2, hv, Res.bind_ok, ofBool_eq]
  exact givesResult_of (ne_ip_of_accepts h (by simp)) hip (readReg_readReg_state h1 h2)

theorem compareWords_mixed (h : (∃ x y, a = .int x ∧ b = .str y) ∨ ∃ x y, a = .str y ∧ b = .int x) :
    compareWords rel a b s = .refuse .mixedComparison := by
  rcases h with ⟨_, _, rfl, rfl⟩ | ⟨_, _, rfl, rfl⟩ <;> rfl

/-- Settles O33: each of the instructions is `compareWords` of its relation. -/
theorem comparisonsWriteOneOrZero : Obligations.ComparisonsWriteOneOrZero := by
  intro s s1 s2 ri rj n a b hip h h1 h2
  have refused : ∀ {rel r}, compareWords rel a b s2 = .refuse r → compareRegs rel ri rj s = .refused r := fun hx => by
    rw [compareRegs_eq h h1 h2, hx, Res.bind_refuse, finish_refuse]
  refine ⟨fun i c hi => ?_, ?_, fun x y hk i hi => ?_⟩
  · rcases hi with ⟨x, y, rfl, rfl, hi⟩ | ⟨x, y, rfl, rfl, hi⟩
    · simp only [List.mem_cons, Prod.mk.injEq, List.not_mem_nil, or_false] at hi
      obtain ⟨rfl, rfl⟩ | ⟨rfl, rfl⟩ | ⟨rfl, rfl⟩ | ⟨rfl, rfl⟩ | ⟨rfl, rfl⟩ | ⟨rfl, rfl⟩ := hi <;> exact compareRegs_gives h hip h1 h2 rfl
    · simp only [List.mem_cons, Prod.mk.injEq, List.not_mem_nil, or_false] at hi
      obtain ⟨rfl, rfl⟩ | ⟨rfl, rfl⟩ := hi <;> exact compareRegs_gives h hip h1 h2 rfl
  · rintro x y rfl rfl i hi
    simp only [List.mem_cons, List.not_mem_nil, or_false] at hi
    obtain rfl | rfl | rfl | rfl := hi <;> exact refused rfl
  · have hx : ∀ rel, compareWords rel a b s2 = .refuse .mixedComparison := fun rel =>
      compareWords_mixed (hk.imp (fun h => ⟨x, y, h⟩) fun h => ⟨x, y, h⟩)
    simp only [List.mem_cons, List.not_mem_nil, or_false] at hi
    obtain rfl | rfl | rfl | rfl | rfl | rfl := hi <;> exact refused (hx _)

/-! #### ENCRYPT -/

theorem accepts_priv {rs : List Reg} (hm : s.mode = .priv) (h : Reg.ip ∉ rs) : Accepts rs s := ⟨h, fun hu => nomatch hm.symm.trans hu⟩

/-- Settles O43: the result is Encrypt of the register's word. -/
theorem encryptAppliesTheFunction : Obligations.EncryptAppliesTheFunction := by
  intro s t ri v n hm hr hip h
  have hx : exec (.encrypt ri) s = finish (advance (t.setResult ri (encryptWord s.cfg v))) := by
    rw [exec, execEncrypt, privilegedOnly_priv hm, checkRegs_accepts (accepts_priv hm (by simpa using hr.symm)), Res.bind_ok, h, Res.bind_ok,
      readReg_cfg h]
  rw [hx]
  exact givesResult_of hr hip (readReg_state h)

end Sys2Proof.Machine
end

/-! ### The console: OUT, IN, INI (R83 to R85) -/

section
namespace Sys2Proof.Machine

variable {s : State} {n : Int}

/-- Settles O26: OUT's effect is on the terminal, IN's on the console. -/
theorem outDisplaysP1AndInStartsTheWait : Obligations.OutDisplaysP1AndInStartsTheWait := by
  intro s n hm hip
  refine ⟨?_, fun hw => ?_, fun hw => ?_⟩
  · have hout : exec .consoleOut s = .next { s with termOut := s.termOut ++ [s.port[1]], ip := .int (n + 2) } := by
      rw [exec, execConsoleOut, privilegedOnly_priv hm]
      exact congrArg finish (advance_int (by exact hip))
    have hf := frame_ip (s := s) (rs := [.ip]) (as := []) (.int (n + 2)) (by simp)
    exact ⟨_, hout, rfl, rfl, fun r hr => (hf.regs r hr ▸ by cases r <;> rfl), hf.mem, rfl, by constructor <;> rfl, ⟨rfl, rfl, fun _ => rfl⟩, rfl⟩
  · rw [exec, execConsoleIn, privilegedOnly_priv hm, if_pos hw, finish_refuse]
  · have hin : exec .consoleIn s = .next { s with consoleWait := true, p0Valid := false, ip := .int (n + 2) } := by
      rw [exec, execConsoleIn, privilegedOnly_priv hm, if_neg (by rw [hw]; decide)]
      exact congrArg finish (advance_int (by exact hip))
    have hf := frame_ip (s := s) (rs := [.ip]) (as := []) (.int (n + 2)) (by simp)
    exact ⟨_, hin, rfl, rfl, rfl, fun r hr => (hf.regs r hr ▸ by cases r <;> rfl), hf.mem, rfl, by constructor <;> rfl, ⟨rfl, rfl, fun _ => rfl⟩⟩

/-- Settles O27: INI's checks in order, and then the user's next word as the new P0. -/
theorem iniTakesTheUsersWord : Obligations.IniTakesTheUsersWord := by
  intro s n w ws hm hip
  refine ⟨fun hd => ?_, fun hd hw => ?_, fun hd hw hu => ?_, fun hd hw hu => ?_⟩
  · simp [exec, execConsoleIni, privilegedOnly_priv hm, hd]
  · simp [exec, execConsoleIni, privilegedOnly_priv hm, hd, hw]
  · simp [exec, execConsoleIni, privilegedOnly_priv hm, hd, hw, hu]
  · have hx : exec .consoleIni s = .next { s.setReg (.port 0) w with p0Valid := true, userIni := ws, waiting := false, ip := .int (n + 2) } := by
      simp [exec, execConsoleIni, privilegedOnly_priv hm, hd, hw, hu, advance, withIp, hip, State.setReg]
    have hf := frame_setReg (s := s) (rs := [.port 0, .ip]) (as := []) (.port 0) w (.int (n + 2)) (by simp) (by simp)
    refine ⟨_, hx, ?_, rfl, rfl, fun r hr => (hf.regs r hr ▸ by cases r <;> rfl), hf.mem, rfl, by constructor <;> rfl, ⟨rfl, rfl, fun _ => rfl⟩⟩
    exact State.reg_setReg_self s (.port 0) w

end Sys2Proof.Machine
end

/-! ### The stack: PUSH, POP, CALL, RET, INT, IRET (R75, R76, R106 to R109, R112) -/

section
namespace Sys2Proof.Machine

variable {s s1 t : State} {ri : Reg} {v w x : Word} {n z ip target : Int} {p k : Nat} {c : Cause} {rs : List Reg} {as : List Nat}

theorem withIp_int (h : s.ip = .int n) (f : Int → Res Unit) : withIp s f = f n := by simp only [withIp, h]

/-- A new top of the stack changes SP alone. -/
theorem frame_sp (w : Word) (h : Reg.sp ∈ rs) : Frame rs as s { s with sp := w } where
  regs := fun r hr => by cases r <;> simp_all [State.reg]
  mem := fun _ _ => rfl
  mode := rfl
  devices := by constructor <;> rfl
  controller := ⟨rfl, rfl, fun _ => rfl⟩

/-! #### PUSH and POP -/

theorem exec_push (h : Accepts [ri] s) (hr : readReg ri s = .ok v s1) : exec (.push ri) s = finish ((push v s1).bind fun _ s => advance s) := by
  rw [exec, execPush, checkRegs_accepts h, Res.bind_ok, hr, Res.bind_ok]

theorem exec_pop (h : Accepts [ri] s) : exec (.pop ri) s = finish ((pop s).bind fun v s => advance (s.setResult ri v)) := by
  rw [exec, execPop, checkRegs_accepts h, Res.bind_ok]

/-- A new SP is no status register, so what a register takes is not changed by it. -/
theorem AuxChange.taken_sp (h : AuxChange s t) (ri : Reg) (v x : Word) (k : Nat) :
    State.taken { t with sp := x, freeCount := k } ri v = s.taken ri v := by
  rw [h.same]
  cases ri <;> rfl

/-- Settles O34: the push and the pop, and what each then writes. -/
theorem pushAndPopMoveTheTop : Obligations.PushAndPopMoveTheTop := by
  refine fun s s1 t ri v n z p hw ha hip hz => ⟨fun hr hm hp hu => ?_, fun hm hl hv => ?_⟩
  · have hc := (memAddr_ok hm).2
    have hwt := hc.wf (readReg_memWf hr hw)
    have hz1 : s1.sp = .int z := by rw [readReg_state hr, hz]
    have hip' : t.ip = .int n := by rw [hc.ip, readReg_ip hr, hip]
    rw [exec_push ha hr, push_of hz1 hm hp hu, Res.bind_ok]
    exact ⟨_, congrArg finish (advance_int (n := n) (by exact hip')), (peek_poke hwt p p _).trans (if_pos rfl), rfl, rfl, frame_push hwt (by simp) (by simp), rfl⟩
  · have hc := (memAddr_ok hm).2
    have hri := ne_ip_of_accepts ha (r := ri) (by simp)
    obtain ⟨w, k, hpop, hx⟩ := pop_of hz hm hl hv
    have hip' : (State.setResult { t with sp := w, freeCount := k } ri v).ip = .int n := (State.setResult_ip _ ri v hri).trans (hc.ip.trans hip)
    rw [exec_pop ha, hpop, Res.bind_ok, advance_int hip', finish_ok]
    refine ⟨_, rfl, ?_, fun hsp => ?_, rfl, ?_, State.setResult_p0Valid ..⟩
    · rw [State.reg_withIp _ _ _ hri, reg_setResult_self, hc.taken_sp]
    · rw [← hc.cfg]
      show IsExact t.cfg (z - 1) (State.setResult _ ri v).sp
      rwa [State.setResult_sp _ _ _ hsp]
    · exact ((frame_sp w (by simp)).trans (frame_freeCount k)).trans (frame_setResult ri v _ (by simp) (by simp))

/-! #### CALL, RET and INT -/

theorem exec_call (hip : s.ip = .int n) :
    exec (.call target) s = finish ((pushReturn n s).bind fun _ s => .ok () { s with ip := .int target }) := by
  rw [exec, execCall, withIp_int hip]

theorem exec_ret : exec .ret s = finish ((pop s).bind fun v s => .ok () { s with ip := v }) := rfl

/-- Settles O21: the push of the return address, and the pop of IP. -/
theorem callPushesAndRetPopsIp : Obligations.CallPushesAndRetPopsIp := by
  refine fun s t v target n z p hw hip hz => ⟨fun hm hp hu => ?_, fun hm hl hv => ?_⟩
  · have hwt := (memAddr_ok hm).2.wf hw
    obtain ⟨w, k, hx, hpush⟩ := pushReturn_of (ip := n) hz hm hp hu
    rw [exec_call hip, hpush, Res.bind_ok, finish_ok]
    exact ⟨_, w, rfl, (peek_poke hwt p p _).trans (if_pos rfl), hx, rfl, rfl,
      (frame_push hwt (x := .int (z + 1)) (w := .int target) (by simp) (by simp)).trans (frame_freeCount k), rfl⟩
  · obtain ⟨w, k, hpop, hx⟩ := pop_of hz hm hl hv
    rw [exec_ret, hpop, Res.bind_ok, finish_ok]
    exact ⟨_, rfl, rfl, (memAddr_ok hm).2.cfg ▸ hx, ((frame_sp w (by simp)).trans (frame_freeCount k)).trans (frame_ip v (by simp)), rfl⟩

theorem exec_intr (hm : s.mode = .unpriv) (h0 : 0 ≤ n) (h18 : n ≤ 18) (hip : s.ip = .int ip) :
    exec (.intr n) s = finish ((pushReturn ip s).bind fun _ s => .ok () { s with mode := .priv, ip := .int (handler n.toNat) }) := by
  simp only [exec, execIntr, hm, withIp_int hip]
  rw [if_neg (by omega)]

theorem handler_toNat (h0 : 0 ≤ n) : (handler n.toNat : Int) = 1024 * (n + 1) := by
  unfold handler; omega

/-- Settles O18: the push of the return address, and then the handler in PRIV mode. -/
theorem intEntersItsHandler : Obligations.IntEntersItsHandler := by
  intro s t n ip z p hw hmode h0 h18 hip hz hm hp hu
  have hwt := (memAddr_ok hm).2.wf hw
  obtain ⟨w, k, hx, hpush⟩ := pushReturn_of (ip := ip) hz hm hp hu
  have hf := frame_push (rs := [.sp, .ip]) (p := p) (v := some w) (x := .int (z + 1)) (w := .int (1024 * (n + 1))) hwt (by simp) (by simp)
  rw [exec_intr hmode h0 h18 hip, hpush, Res.bind_ok, finish_ok, handler_toNat h0]
  exact ⟨_, w, rfl, (peek_poke hwt p p _).trans (if_pos rfl), hx, rfl, rfl, rfl, fun r hr => (hf.regs r hr ▸ by cases r <;> rfl), hf.mem,
    by constructor <;> rfl, ⟨rfl, rfl, fun _ => rfl⟩, rfl⟩

/-- An exception condition of the push of the return address; a free word may have been drawn before it (log 6). -/
theorem pushReturn_trap (h : ∀ w, push w s = .exc c t) :
    ∃ j, pushReturn ip s = .exc c { t with freeCount := j } ∧ (immInRange s.cfg (ip + 2) = true → j = s.freeCount) := by
  obtain ⟨w, j, -, hj, hin⟩ := pushReturn_eq ip s
  exact ⟨j, by rw [hj, h w]; rfl, hin⟩

/-- Settles O19: the checks of INT, and the exception condition of its push. -/
theorem intThatCannotEnterTraps : Obligations.IntThatCannotEnterTraps := by
  refine fun s t n ip z c => ⟨fun hm => ?_, fun hm hn => ?_, fun hmode h0 h18 hip => ⟨fun hs => ?_, fun hz hm => ?_⟩⟩
  · simp only [exec, execIntr, hm]
  · simp only [exec, execIntr, hm, if_pos hn, finish_exc]
  · obtain ⟨j, hj, hin⟩ := pushReturn_trap (ip := ip) (push_str hs)
    exact ⟨j, by rw [exec_intr hmode h0 h18 hip, hj, Res.bind_exc, finish_exc], hin⟩
  · obtain ⟨rfl, -⟩ := memAddr_exc hm
    obtain ⟨j, hj, hin⟩ := pushReturn_trap (ip := ip) (push_trap hz hm)
    exact ⟨j, by rw [exec_intr hmode h0 h18 hip, hj, Res.bind_exc, finish_exc], hin⟩

/-! #### IRET -/

theorem exec_iret (hm : s.mode = .priv) : exec .iret s = finish (returnFromTrap s) := by rw [exec, execIret, privilegedOnly_priv hm]

/-- R112: a return from a trap whose address translates. -/
theorem returnFromTrap_of (hz : s.sp = .int z) (hm : translate .read (.int z) s = .ok p t) (hl : readLocked t p = false)
    (hv : t.peek p = some v) :
    ∃ w k, returnFromTrap s = .ok () { t with sp := w, freeCount := k, ip := v, mode := .unpriv } ∧ IsExact s.cfg (z - 1) w := by
  obtain ⟨w, k, hd, hx⟩ := dropTop_answers z t
  refine ⟨w, k, ?_, (translate_ok hm).2.1.cfg ▸ hx⟩
  simp only [returnFromTrap, hz, hm, physRead_some hl hv, Res.bind_ok, hd]

/-- Settles O41: the translation of SP decides. -/
theorem iretReturnsToUnprivilegedMode : Obligations.IretReturnsToUnprivilegedMode := by
  refine fun s t v z p hmode => ⟨fun hz hm hl hv => ?_, fun c hz hm => ?_, fun ⟨cs, hs⟩ => ?_⟩
  · obtain ⟨w, k, hret, hx⟩ := returnFromTrap_of hz hm hl hv
    rw [exec_iret hmode, hret, finish_ok]
    have hf := ((frame_sp (rs := [.sp, .ip]) (as := []) (s := t) w (by simp)).trans (frame_freeCount k)).trans (frame_ip v (by simp))
    exact ⟨_, rfl, rfl, hx, rfl, fun r hr => (hf.regs r hr ▸ by cases r <;> rfl), hf.mem, by constructor <;> rfl, ⟨rfl, rfl, fun _ => rfl⟩, rfl⟩
  · simp only [exec_iret hmode, returnFromTrap, hz, hm, finish_refuse]
  · simp only [exec_iret hmode, returnFromTrap, hs, finish_refuse]

end Sys2Proof.Machine
end

/-! ### HALT (R113) -/

section
namespace Sys2Proof.Machine

/-- Settles O42: HALT is the settling of a pending store's block, and a halted machine's step is itself. -/
theorem haltStopsTheMachine : Obligations.HaltStopsTheMachine := by
  refine ⟨fun s hm hw => ?_, fun s hh => if_pos hh⟩
  have hx : exec .halt s = .next { abandonStore s with halted := true } := by rw [exec, execHalt, privilegedOnly_priv hm, finish_ok]
  have hdisk := peekDisk_abandonStore hw
  refine ⟨_, hx, rfl, fun r _ => ?_, fun a _ => ?_, ?_, ?_, ?_, ?_, ?_, hdisk⟩
  all_goals obtain ⟨d, k, hs⟩ := abandonStore_same s
  all_goals rw [hs]
  · cases r <;> rfl
  · rfl
  · constructor <;> rfl

end Sys2Proof.Machine
end

/-! ### The disk macros (R77 to R82, R136) -/

section
namespace Sys2Proof.Machine

variable {s s1 s2 t : State} {page block : RegImm} {w a : Word} {n k m : Nat} {z : Int} {p : Fin 128} {b : Fin 512} {kind : Transfer}
  {f : Fin 128 → Fin 512 → State → Res Unit} {rs : List Reg} {as : List Nat}

theorem indexOfWord_eq_some {i : Fin n} : indexOfWord n w = some i ↔ w = .int i.val := by
  cases w with
  | str cs => simp [indexOfWord]
  | int z =>
    simp only [indexOfWord]
    split
    · simp only [Option.some.injEq, Fin.ext_iff, Word.int.injEq]; omega
    · simp only [reduceCtorEq, Word.int.injEq, false_iff]; omega

theorem indexOfWord_eq_none : indexOfWord n w = none ↔ ∀ i : Nat, i < n → w ≠ .int i := by
  refine ⟨fun h i hi hw => ?_, fun h => ?_⟩
  · have hx : indexOfWord n w = some ⟨i, hi⟩ := indexOfWord_eq_some.2 hw
    rw [h] at hx; cases hx
  · cases hx : indexOfWord n w with
    | none => rfl
    | some i => exact absurd (indexOfWord_eq_some.1 hx) (h i i.2)

/-- Operands change nothing but the free-value counter. -/
theorem diskOperands_state (h1 : readRegImm page s = .ok w s1) (h2 : readRegImm block s1 = .ok a s2) :
    ∃ k, s2 = { s with freeCount := k } := ⟨s2.freeCount, by rw [readRegImm_state h2, readRegImm_state h1]⟩

/-- R77: a disk macro whose operands are a page and a block. -/
theorem diskMacroStep_of (hm : s.mode = .priv) (ha : Accepts (regsOf page ++ regsOf block) s) (h1 : readRegImm page s = .ok (.int p.val) s1)
    (h2 : readRegImm block s1 = .ok (.int b.val) s2) :
    diskMacroStep page block f s = if s2.diskOp = .idle then f p b s2 else .refuse .diskBusy := by
  have hp : indexOfWord 128 (.int p.val) = some p := indexOfWord_eq_some.2 rfl
  have hb : indexOfWord 512 (.int b.val) = some b := indexOfWord_eq_some.2 rfl
  simp only [diskMacroStep, privilegedOnly_priv hm, checkRegs_accepts ha, Res.bind_ok, h1, h2, hp, hb]

/-- R77: a disk macro with an operand that is out of range. -/
theorem diskMacroStep_fault (hm : s.mode = .priv) (ha : Accepts (regsOf page ++ regsOf block) s) (h1 : readRegImm page s = .ok w s1)
    (h2 : readRegImm block s1 = .ok a s2) (h : indexOfWord 128 w = none ∨ indexOfWord 512 a = none) :
    diskMacroStep page block f s = .fault .diskOperand := by
  simp only [diskMacroStep, privilegedOnly_priv hm, checkRegs_accepts ha, Res.bind_ok, h1, h2]
  rcases h with h | h <;> rw [h]
  cases indexOfWord 128 w <;> rfl

/-- Settles O25: the operands, the pending transfer and page 0, in that order. -/
theorem diskMacrosCheckTheirOperands : Obligations.DiskMacrosCheckTheirOperands := by
  refine fun s s1 s2 page block p b hm ha h1 h2 => ⟨fun hbad => ?_, fun n m hn hm' hp hb => ?_⟩
  · have hx : ∀ f, diskMacroStep page block f s = .fault .diskOperand := fun f => diskMacroStep_fault hm ha h1 h2
      (hbad.imp (fun h => indexOfWord_eq_none.2 fun i hi => h i (by omega)) fun h => indexOfWord_eq_none.2 fun i hi => h i (by omega))
    exact ⟨congrArg finish (hx _), congrArg finish (hx _), congrArg finish (hx _)⟩
  · subst hp hb
    have hd : s2.diskOp = s.diskOp := by obtain ⟨k, rfl⟩ := diskOperands_state h1 h2; rfl
    have hx : ∀ f, diskMacroStep page block f s = if s2.diskOp = .idle then f ⟨n, by omega⟩ ⟨m, by omega⟩ s2 else .refuse .diskBusy :=
      fun f => diskMacroStep_of (p := ⟨n, by omega⟩) (b := ⟨m, by omega⟩) hm ha h1 h2
    refine ⟨fun hbusy => ?_, fun hidle h0 => ?_⟩
    · have busy : ∀ f, diskMacroStep page block f s = .refuse .diskBusy := fun f => (hx f).trans (if_neg (by rwa [hd]))
      exact ⟨congrArg finish (busy _), congrArg finish (busy _), congrArg finish (busy _)⟩
    · have idle := fun f => (hx f).trans (if_pos (hd.trans hidle))
      subst h0
      constructor
      · rw [exec, execLoadi, idle]; rfl
      · rw [exec, execLoad, idle]; rfl

section
variable (hm : s.mode = .priv) (ha : Accepts (regsOf page ++ regsOf block) s) (h1 : readRegImm page s = .ok (.int p.val) s1)
  (h2 : readRegImm block s1 = .ok (.int b.val) s2) (hd : s.diskOp = .idle) (hip : s.ip = .int z)
include hm ha h1 h2 hd

/-- R77: a disk macro that passes its checks does its transfer, but for the free-value counter from the state it began in. -/
theorem diskMacroStep_idle : ∃ k, ∀ f, diskMacroStep page block f s = f p b { s with freeCount := k } := by
  obtain ⟨k, rfl⟩ := diskOperands_state h1 h2
  exact ⟨k, fun f => (diskMacroStep_of hm ha h1 h2).trans (if_pos hd)⟩

include hip

/-- R78: LOADI of another page than page 0. -/
theorem exec_loadi_of (hp : p ≠ 0) : ∃ k, exec (.loadi page block) s = .next { blockToPage p b { s with freeCount := k } with ip := .int (z + 2) } := by
  obtain ⟨k, hk⟩ := diskMacroStep_idle hm ha h1 h2 hd
  rw [exec, execLoadi, hk, if_neg hp]
  exact ⟨k, congrArg finish (advance_int (by exact hip))⟩

/-- R79: LOAD of another page than page 0. -/
theorem exec_load_of (hp : p ≠ 0) :
    ∃ k, exec (.load page block) s = .next { startTransfer .load p b { s with freeCount := k } with ip := .int (z + 2) } := by
  obtain ⟨k, hk⟩ := diskMacroStep_idle hm ha h1 h2 hd
  rw [exec, execLoad, hk, if_neg hp]
  exact ⟨k, congrArg finish (advance_int (by exact (startTransfer_ip ..).trans hip))⟩

theorem exec_store_of : ∃ k, exec (.store page block) s = .next { startTransfer .store p b { s with freeCount := k } with ip := .int (z + 2) } := by
  obtain ⟨k, hk⟩ := diskMacroStep_idle hm ha h1 h2 hd
  rw [exec, execStore, hk]
  exact ⟨k, congrArg finish (advance_int (by exact (startTransfer_ip ..).trans hip))⟩

end

/-- Settles O22: the copy of the block. -/
theorem loadiCopiesTheBlock : Obligations.LoadiCopiesTheBlock := by
  intro s s1 s2 page block n p b hw hm hip ha h1 h2 hd hp
  obtain ⟨k, hx⟩ := exec_loadi_of hm ha h1 h2 hd hip hp
  have hw' : ({ s with freeCount := k } : State).memWf := hw
  have hf := frame_ip (s := { s with freeCount := k }) (rs := [.ip]) (as := []) (.int (n + 2)) (by simp)
  exact ⟨_, hx, rfl, fun i hi => peek_blockToPage_inside hw' hi, fun a ha => peek_blockToPage_outside hw' ha,
    fun r hr => (hf.regs r hr).trans (reg_freeCount ..), rfl, by constructor <;> rfl, ⟨rfl, rfl, fun _ => rfl⟩, rfl⟩

/-- R136: a transfer that takes time has only begun. -/
theorem startTransfer_pending (h : 0 < s.cfg.dtime) : startTransfer kind p b s = { s with diskOp := .busy kind p b 0 } := if_neg h.ne'

/-- R136: a transfer that takes no time is complete. -/
theorem startTransfer_done (h : s.cfg.dtime = 0) : startTransfer kind p b s = diskComplete kind p b s := if_pos h

/-- Settles O23: the transfer has begun, and nothing has moved. -/
theorem loadAndStoreStartATransfer : Obligations.LoadAndStoreStartATransfer := by
  intro s s1 s2 page block n p b hm hip ha h1 h2 hd ht
  have begun : ∀ kind k, ∃ u, Host.Outcome.next { startTransfer kind p b { s with freeCount := k } with ip := .int (n + 2) } = (.next u : Out) ∧
      u.ip = .int (n + 2) ∧ u.diskOp = .busy kind p b 0 ∧ u.pendDisk = s.pendDisk ∧ SameDisk s u ∧ SameRegs [.ip] s u ∧ SameMem [] s u ∧
      u.mode = s.mode ∧ SameDevices s u ∧ u.p0Valid = s.p0Valid := fun kind k => by
    rw [startTransfer_pending (s := { s with freeCount := k }) ht]
    have hf := frame_ip (s := s) (rs := [.ip]) (as := []) (.int (n + 2)) (by simp)
    exact ⟨_, rfl, rfl, rfl, rfl, fun _ => rfl, fun r hr => (hf.regs r hr ▸ by cases r <;> rfl), hf.mem, rfl, by constructor <;> rfl, rfl⟩
  refine ⟨fun hp => ?_, ?_⟩
  · obtain ⟨k, hx⟩ := exec_load_of hm ha h1 h2 hd hip hp
    rw [hx]; exact begun .load k
  · obtain ⟨k, hx⟩ := exec_store_of hm ha h1 h2 hd hip
    rw [hx]; exact begun .store k

/-- Settles O24: the transfer is complete. -/
theorem transferWithNoDelayCompletesAtOnce : Obligations.TransferWithNoDelayCompletesAtOnce := by
  intro s s1 s2 page block n p b hw hdw hm hip ha h1 h2 hd ht
  have hw' : ∀ k, ({ s with freeCount := k } : State).memWf := fun _ => hw
  have hdw' : ∀ k, ({ s with freeCount := k } : State).diskWf := fun _ => hdw
  have hf := frame_ip (s := s) (rs := [.ip]) (as := []) (.int (n + 2)) (by simp)
  refine ⟨fun hp => ?_, ?_⟩
  · obtain ⟨k, hx⟩ := exec_load_of hm ha h1 h2 hd hip hp
    rw [startTransfer_done (s := { s with freeCount := k }) ht] at hx
    exact ⟨_, hx, rfl, rfl, rfl, fun i hi => peek_blockToPage_inside (hw' k) hi, fun _ => rfl, fun a ha => peek_blockToPage_outside (hw' k) ha,
      fun r hr => (hf.regs r hr ▸ by cases r <;> rfl)⟩
  · obtain ⟨k, hx⟩ := exec_store_of hm ha h1 h2 hd hip
    rw [startTransfer_done (s := { s with freeCount := k }) ht] at hx
    exact ⟨_, hx, rfl, rfl, rfl, fun i hi => peekDisk_pageToBlock_inside (hdw' k) hi, fun _ _ => rfl,
      fun a ha => peekDisk_pageToBlock_outside (hdw' k) ha, fun r hr => (hf.regs r hr ▸ by cases r <;> rfl)⟩

end Sys2Proof.Machine
end

/-! ### The boot sequence (R162) -/

section
namespace Sys2Proof.Machine

variable {s : State} {w0 w1 : Word} {i : Instr} {n : Nat}

theorem readLocked_idle (h : s.diskOp = .idle) (a : Nat) : readLocked s a = false := by simp only [readLocked, h]

/-- In PRIV mode, with no transfer pending and the user doing nothing, a step executes the instruction at IP. -/
theorem step_of_words (hh : s.halted = false) (hg : s.userGap = []) (hm : s.mode = .priv) (hd : s.diskOp = .idle) (hip : s.ip = .int n)
    (he : n % 2 = 0) (hn : n ≤ 65534) (h0 : s.peek n = some w0) (h1 : s.peek (n + 1) = some w1) (hi : decodeWords s.cfg w0 w1 = .ok i) :
    step s = retire .priv (execute i { s with touched := [] }) := by
  rw [step_priv hh hg hm, runInstruction_ok (fetch_priv hm hip he hn h0 h1 (readLocked_idle hd _) (readLocked_idle hd _)),
    execWords_ok (i := i) hi, hm]

/-- The boot ROM's first instruction. -/
theorem execute_bootLoad (hm : s.mode = .priv) (hd : s.diskOp = .idle) (hip : s.ip = .int 0) :
    ∃ k, execute (.loadi (.imm 1) (.imm 0)) s = .next { blockToPage 1 0 { s with freeCount := k } with ip := .int 2 } := by
  have ha : Accepts (regsOf (.imm 1) ++ regsOf (.imm 0)) s := accepts_priv hm (by simp [regsOf])
  obtain ⟨k, hk⟩ := exec_loadi_of (p := 1) (b := 0) hm ha rfl rfl hd hip (by decide)
  exact ⟨k, (execute_reference fun h => absurd h.1 (by decide)).trans hk⟩

/-- The boot ROM's second instruction. -/
theorem execute_bootJump : execute (.jmp 512) s = .next { s with ip := .int 512 } := execute_reference fun h => absurd h.1 (by decide)

/-- Settles O3: the ROM's two instructions, and then the first of the block they brought into page 1. -/
theorem bootRunsTheBootBlock : Obligations.BootRunsTheBootBlock := by
  intro s hc hw hrom hm hip hd hh hg
  obtain ⟨⟨w0, w1, w2, w3, h0, h1, h2, h3, hload, hjump⟩, -⟩ := bootRomHoldsTwoInstructions s hc hrom
  obtain ⟨k, hk⟩ := execute_bootLoad (s := { s with touched := [] }) hm hd hip
  let r : State := { s with touched := [], freeCount := k }
  have hwr : r.memWf := hw
  have hin : ∀ j, j < 512 → (blockToPage 1 0 r).peek (512 + j) = s.peekDisk j := fun j hj =>
    (peek_blockToPage_inside (p := 1) (b := 0) hwr hj).trans (congrArg s.peekDisk (Nat.zero_add j))
  have hout : ∀ j, j < 512 → (blockToPage 1 0 r).peek j = s.peek j := fun j hj => peek_blockToPage_outside hwr (by simp; omega)
  have step1 := step_of_words (n := 0) hh hg hm hd hip rfl (by omega) h0 h1 hload
  rw [hk, retire_next_eq] at step1
  have step2 := step_of_words (s := { blockToPage 1 0 r with ip := .int 2 }) (n := 2) hh hg hm hd rfl rfl (by omega)
    ((hout 2 (by omega)).trans h2) ((hout 3 (by omega)).trans h3) hjump
  rw [execute_bootJump, retire_next_eq] at step2
  refine ⟨_, _, step1, hin, rfl, step2, hin, rfl, hm, fun v0 v1 i hv0 hv1 hi => ?_⟩
  exact step_of_words (s := { blockToPage 1 0 r with ip := .int 512 }) (n := 512) hh hg hm hd rfl rfl (by omega)
    ((hin 0 (by omega)).trans hv0) ((hin 1 (by omega)).trans hv1) hi

end Sys2Proof.Machine
end

/-! ### BACKUP and RESTORE (R114, R115) -/

section
namespace Sys2Proof.Machine

variable {s t u : State} {r : Reg} {rs : List Reg} {v : Word} {y z m : Int} {n j p : Nat} {k : Access} {c : Cause} {cfg : Config} {α β γ : Type}

theorem Res.bind_assoc (x : Res α) (f : α → State → Res β) (g : β → State → Res γ) :
    (x.bind f).bind g = x.bind fun a s => (f a s).bind g := by cases x <;> rfl

/-! #### BACKUP_ORDER -/

/-- R114: BACKUP_ORDER names 21 registers once each, neither SP nor IP among them. -/
theorem backupOrder_facts (h : cfg.Admissible) :
    cfg.backupOrder.length = 21 ∧ cfg.backupOrder.Nodup ∧ Reg.sp ∉ cfg.backupOrder ∧ Reg.ip ∉ cfg.backupOrder := by
  obtain ⟨-, -, -, -, -, hp, -⟩ := h.inDomain
  exact ⟨hp.length_eq.trans rfl, hp.nodup_iff.2 (by decide), mt hp.mem_iff.1 (by decide), mt hp.mem_iff.1 (by decide)⟩

/-- The words RESTORE pops run through the order from its end. -/
theorem getElem?_reverse_of (hl : rs.length = 21) (hj : rs[j]? = some r) : j < 21 ∧ rs.reverse[20 - j]? = some r := by
  have hlt : j < 21 := hl ▸ (List.getElem?_eq_some_iff.1 hj).1
  refine ⟨hlt, ?_⟩
  rw [List.getElem?_reverse (by omega), ← hj]
  congr 1
  omega

/-! #### Addresses in PRIV mode -/

theorem memAddr_priv (hm : s.mode = .priv) (hy : y = p) (hp : p ≤ 65535) : memAddr k (.int y) s = .ok p s :=
  memAddr_priv_of_physAddr hm (physAddr_eq_some.2 ⟨by rw [hy], hp⟩)

theorem memAddr_priv_outside (hm : s.mode = .priv) (hy : y < 0 ∨ 65535 < y) : memAddr k (.int y) s = .exc (.illegalMem (.int y)) s :=
  memAddr_priv_of_physAddr_none hm (if_neg (by omega))

/-! #### One push in PRIV mode -/

/-- A push that answers wrote the word above the top, outside the ROM and every page of a pending transfer. -/
theorem push_priv_ok (hm : s.mode = .priv) (hz : s.sp = .int z) {x : Unit} (h : push v s = .ok x t) :
    ∃ p : Nat, z + 1 = p ∧ p ≤ 65535 ∧ t = { s.poke p (some v) with sp := .int (z + 1) } := by
  obtain ⟨z', p, s1, hz', ha, -, -, rfl⟩ := push_ok h
  obtain rfl : z = z' := by rw [hz] at hz'; exact Word.int.inj hz'
  rw [memAddr, hm] at ha
  dsimp only at ha
  cases hp : physAddr (.int (z + 1)) with
  | none => rw [hp] at ha; cases ha
  | some q =>
    rw [hp] at ha
    cases ha
    obtain ⟨hq, hle⟩ := physAddr_eq_some.1 hp
    exact ⟨p, Word.int.inj hq, hle, rfl⟩

theorem push_exc_mode (h : push v s = .exc c t) : t.mode = s.mode := by
  cases hz : s.sp with
  | str cs => rw [push_str ⟨cs, hz⟩] at h; cases h; rfl
  | int z =>
    rw [push_int hz] at h
    rcases Res.bind_eq_exc.1 h with h | ⟨_, _, -, h⟩
    · rcases Res.bind_eq_exc.1 h with h | ⟨_, _, -, h⟩
      · rw [(memAddr_exc h).1]
      · exact absurd h physWrite_ne_exc
    · cases h

/-! #### A sequence of pushes -/

theorem pushAll_append (xs ys : List Reg) (s : State) : pushAll (xs ++ ys) s = (pushAll xs s).bind fun _ s => pushAll ys s := by
  induction xs generalizing s with
  | nil => rfl
  | cons x xs ih => simp only [List.cons_append, pushAll, ih, Res.bind_assoc]

theorem pushAll_exc_mode (h : pushAll rs s = .exc c t) : t.mode = s.mode := by
  induction rs generalizing s with
  | nil => cases h
  | cons x xs ih =>
    rcases Res.bind_eq_exc.1 h with h | ⟨_, u, hu, h⟩
    · exact push_exc_mode h
    · rw [ih h]
      obtain ⟨_, _, s1, -, ha, -, -, rfl⟩ := push_ok hu
      exact (congrArg State.mode (memAddr_ok ha).2.same :)

/-- What the pushes of `rs` above `z` leave: the words above the old top hold the registers, and but for them and SP nothing changed. -/
structure Pushed (rs : List Reg) (z : Int) (s u : State) : Prop where
  same : u = { s with mem := u.mem, sp := .int (z + rs.length) }
  wf : s.memWf → u.memWf
  word : s.memWf → ∀ (j : Nat) (r : Reg) (p : Nat), rs[j]? = some r → z + 1 + j = p → u.peek p = some (s.reg r)
  outside : s.memWf → ∀ a : Nat, (∀ j : Nat, j < rs.length → z + 1 + j ≠ a) → u.peek a = s.peek a

/-- Pushes that answer. -/
theorem pushAll_ok (hm : s.mode = .priv) (hz : s.sp = .int z) (hsp : Reg.sp ∉ rs) {x : Unit} (h : pushAll rs s = .ok x u) : Pushed rs z s u := by
  induction rs generalizing s z with
  | nil =>
    cases h
    exact ⟨by simp [← hz], id, fun _ _ _ _ hr => by simp at hr, fun _ _ _ => rfl⟩
  | cons r rs ih =>
    obtain ⟨hr, hsp⟩ := List.ne_and_not_mem_of_not_mem_cons hsp
    obtain ⟨_, t, ht, hrest⟩ := Res.bind_eq_ok.1 h
    obtain ⟨p, hp, hle, rfl⟩ := push_priv_ok hm hz ht
    have hi := ih (s := { s.poke p (some (s.reg r)) with sp := .int (z + 1) }) hm rfl hsp hrest
    have hw : s.memWf → (s.poke p (some (s.reg r))).memWf := fun hw => poke_memWf hw (by omega) _
    have hpeek : s.memWf → ∀ a, ({ s.poke p (some (s.reg r)) with sp := .int (z + 1) } : State).peek a = if a = p then some (s.reg r) else s.peek a :=
      fun hw a => peek_poke hw p a _
    refine ⟨?_, fun h => hi.wf (hw h), fun h j q a hj ha => ?_, fun h a ha => ?_⟩
    · have hlen : z + 1 + (rs.length : Int) = z + ((r :: rs).length : Int) := by simp only [List.length_cons]; omega
      rw [hi.same, hlen]
      rfl
    · cases j with
      | zero =>
        obtain rfl : r = q := by simpa using hj
        rw [hi.outside (hw h) a fun i _ => by omega, hpeek h, if_pos (by omega)]
      | succ j =>
        have hq : Reg.sp ≠ q := fun he => hsp (he ▸ List.mem_of_getElem? hj)
        rw [hi.word (hw h) j q a hj (by push_cast at ha; omega), State.reg_withSp _ _ _ hq.symm]
        cases q <;> rfl
    · have h0 := ha 0 (by simp)
      rw [hi.outside (hw h) a fun i hlt => by have := ha (i + 1) (by simpa using hlt); push_cast at this; omega, hpeek h, if_neg (by push_cast at h0; omega)]

theorem Unlocked.of_diskOp (h : Unlocked s p) (hd : t.diskOp = s.diskOp) : Unlocked t p := fun kind q b n hb => h kind q b n (hd ▸ hb)

/-- Pushes to words that can be pushed to. -/
theorem pushAll_of (hm : s.mode = .priv) (hz : s.sp = .int z) (hp : Pushable s z rs.length) : ∃ u, pushAll rs s = .ok () u := by
  induction rs generalizing s z with
  | nil => exact ⟨s, rfl⟩
  | cons r rs ih =>
    obtain ⟨p, hzp, h512, hle, hu⟩ := hp 0 (by simp)
    have hpush := push_of (v := s.reg r) hz (memAddr_priv hm (by simpa using hzp) hle) h512 hu
    obtain ⟨u, hrest⟩ := ih (s := { s.poke p (some (s.reg r)) with sp := .int (z + 1) }) (z := z + 1) hm rfl fun i hi => by
      obtain ⟨q, hq, h1, h2, h3⟩ := hp (i + 1) (by simpa using hi)
      exact ⟨q, by push_cast at hq; omega, h1, h2, h3.of_diskOp rfl⟩
    exact ⟨u, by rw [pushAll, hpush, Res.bind_ok, hrest]⟩

theorem exec_backup (hm : s.mode = .priv) : exec .backup s = finish ((pushAll s.cfg.backupOrder s).bind fun _ s => advance s) := by
  rw [exec, execBackup, privilegedOnly_priv hm]

/-- BACKUP runs up to a push that can not be made. -/
theorem exec_backup_stops (hc : s.cfg.Admissible) (hm : s.mode = .priv) (hz : s.sp = .int z) (hj : j < 21) (hp : Pushable s z j) :
    ∃ t v f, exec .backup s = finish ((push v t).bind f) ∧ t = { s with mem := t.mem, sp := .int (z + j) } := by
  obtain ⟨hlen, -, hsp, -⟩ := backupOrder_facts hc
  have htake : (s.cfg.backupOrder.take j).length = j := by rw [List.length_take]; omega
  obtain ⟨t, ht⟩ := pushAll_of hm hz (htake.symm ▸ hp)
  have hpushed := pushAll_ok hm hz (fun h => hsp (List.mem_of_mem_take h)) ht
  have hdrop := List.drop_eq_getElem_cons (l := s.cfg.backupOrder) (i := j) (by omega)
  have hsame := hpushed.same
  rw [htake] at hsame
  have hx : pushAll s.cfg.backupOrder s =
      (push (t.reg s.cfg.backupOrder[j]) t).bind fun _ s' => pushAll (s.cfg.backupOrder.drop (j + 1)) s' := by
    conv_lhs => rw [← List.take_append_drop j s.cfg.backupOrder, pushAll_append, ht, Res.bind_ok, hdrop, pushAll]
  exact ⟨t, _, _, by rw [exec_backup hm, hx, Res.bind_assoc], hsame⟩

/-- BACKUP, where all its pushes answer. -/
theorem exec_backup_of (hm : s.mode = .priv) (hsp : Reg.sp ∉ s.cfg.backupOrder) (hz : s.sp = .int z) (hip : s.ip = .int m)
    (h : pushAll s.cfg.backupOrder s = .ok () t) :
    exec .backup s = .next { t with ip := .int (m + 2) } ∧ Pushed s.cfg.backupOrder z s t := by
  have hp := pushAll_ok hm hz hsp h
  refine ⟨?_, hp⟩
  rw [exec_backup hm, h, Res.bind_ok]
  exact congrArg finish (advance_int (by rw [hp.same]; exact hip))

/-- Settles O35: the 21 pushes. -/
theorem backupPushesTheRegisters : Obligations.BackupPushesTheRegisters := by
  intro s n z hc hw hm hip hz hz0 hz1 hu
  obtain ⟨hlen, -, hsp, -⟩ := backupOrder_facts hc
  obtain ⟨t, ht⟩ := pushAll_of (rs := s.cfg.backupOrder) hm hz fun i hi =>
    ⟨z + (i + 1), by push_cast; ring, by omega, by omega, hu (i + 1) (by omega) (by omega)⟩
  obtain ⟨hx, hp⟩ := exec_backup_of hm hsp hz hip ht
  have hsame := hp.same
  rw [hlen] at hsame
  refine ⟨_, hx, ?_, rfl, fun j r hr => hp.word hw j r _ hr (by push_cast; rfl), ⟨fun r hr => ?_, fun a ha => ?_, ?_, ?_, ?_⟩, ?_⟩
  · rw [hsame]; rfl
  · rw [hsame]
    have hi : r ≠ .ip := by rintro rfl; exact hr (by simp)
    have hs : r ≠ .sp := by rintro rfl; exact hr (by simp)
    exact (State.reg_withIp _ _ _ hi).trans ((State.reg_withSp { s with mem := t.mem } _ _ hs).trans (by cases r <;> rfl))
  · refine hp.outside hw a fun j hj he => ha (List.mem_map.2 ⟨j, List.mem_range.2 (by omega), ?_⟩)
    omega
  · rw [hsame]
  · rw [hsame]; constructor <;> rfl
  · rw [hsame]; exact ⟨rfl, rfl, fun _ => rfl⟩
  · rw [hsame]

/-! #### A sequence of pops -/

theorem popAll_append (xs ys : List Reg) (s : State) : popAll (xs ++ ys) s = (popAll xs s).bind fun _ s => popAll ys s := by
  induction xs generalizing s with
  | nil => rfl
  | cons x xs ih => simp only [List.cons_append, popAll, ih, Res.bind_assoc]

/-- A pop of a word that can be popped, where the new top is a word of the machine. -/
theorem pop_priv_of (hm : s.mode = .priv) (hz : s.sp = .int z) (hp : z = p) (hle : p ≤ 65535) (hl : readLocked s p = false)
    (hv : s.peek p = some v) (hmin : s.cfg.intMin ≤ z - 1) (hmax : 65535 ≤ s.cfg.intMax) :
    ∃ n, pop s = .ok v { s with sp := .int (z - 1), freeCount := n } := by
  obtain ⟨w, n, hpop, hx, -⟩ := pop_of hz (memAddr_priv hm hp hle) hl hv
  refine ⟨n, ?_⟩
  rw [hpop, hx (by simp only [immInRange, decide_eq_true_eq]; omega)]

/-- What the pops of `rs` from `z` down leave: the registers hold the words, SP is below them, and nothing else changed. -/
structure Popped (rs : List Reg) (z : Int) (s u : State) : Prop where
  sp : u.sp = .int (z - rs.length)
  frame : Frame (.sp :: rs) [] s u
  p0Valid : u.p0Valid = s.p0Valid
  word : ∀ (j : Nat) (r : Reg) (p : Nat), rs[j]? = some r → z - j = p → s.peek p = some (u.reg r)

/-- Pops of words that can be popped. -/
theorem popAll_of (hm : s.mode = .priv) (hz : s.sp = .int z) (hsp : Reg.sp ∉ rs) (hn : rs.Nodup) (hp : Poppable s z rs.length)
    (hmin : s.cfg.intMin ≤ z - rs.length) (hmax : 65535 ≤ s.cfg.intMax) : ∃ u, popAll rs s = .ok () u ∧ Popped rs z s u := by
  induction rs generalizing s z with
  | nil => exact ⟨s, rfl, by simp [hz], .refl _ _ s, rfl, fun _ _ _ hr => by simp at hr⟩
  | cons r rs ih =>
    obtain ⟨hr, hsp⟩ := List.ne_and_not_mem_of_not_mem_cons hsp
    obtain ⟨hrn, hn⟩ := List.nodup_cons.1 hn
    obtain ⟨p, hzp, hle, hl, v, hv⟩ := hp 0 (by simp)
    have hlen : ((r :: rs).length : Int) = rs.length + 1 := by simp
    obtain ⟨n, hpop⟩ := pop_priv_of hm hz (by simpa using hzp) hle hl hv (by omega) hmax
    obtain ⟨w, hw⟩ : ∃ w, w = State.setReg { s with sp := .int (z - 1), freeCount := n } r v := ⟨_, rfl⟩
    have hf : Frame (.sp :: r :: rs) [] s w :=
      hw ▸ ((frame_sp (.int (z - 1)) (by simp)).trans (frame_freeCount n)).trans (frame_setReg_only r v (by simp))
    have hpeek : ∀ a, w.peek a = s.peek a := fun a => hf.mem a (by simp)
    have hcfg := hf.devices.cfg
    obtain ⟨u, hu, hi⟩ := ih (s := w) (z := z - 1) (hf.mode.trans hm) (hw ▸ State.setReg_sp _ r v hr.symm) hsp hn
      (fun i hlt => by
        obtain ⟨q, hq, h1, h2, x, h3⟩ := hp (i + 1) (by simpa using hlt)
        exact ⟨q, by push_cast at hq; omega, h1, by unfold readLocked at h2 ⊢; rwa [hf.controller.diskOp], x, by rw [hpeek, h3]⟩)
      (by rw [hcfg]; omega) (by rwa [hcfg])
    refine ⟨u, by rw [popAll, hpop, Res.bind_ok, ← hw, hu], ?_, ?_, ?_, fun j q a hj ha => ?_⟩
    · rw [hi.sp, hlen]; congr 1; omega
    · exact hf.trans (hi.frame.mono (by simp +contextual))
    · rw [hi.p0Valid, hw]; exact State.setReg_p0Valid ..
    · cases j with
      | zero =>
        obtain rfl : r = q := by simpa using hj
        obtain rfl : p = a := by push_cast at ha hzp; omega
        rw [hi.frame.regs r (by simp [hr.symm, hrn]), hw, State.reg_setReg_self, hv]
      | succ j => rw [← hi.word j q a hj (by push_cast at ha; omega), hpeek]

theorem exec_restore (hm : s.mode = .priv) : exec .restore s = finish ((popAll s.cfg.backupOrder.reverse s).bind fun _ s => advance s) := by
  rw [exec, execRestore, privilegedOnly_priv hm]

/-- RESTORE runs up to a pop that can not be made. -/
theorem exec_restore_stops (hc : s.cfg.Admissible) (hm : s.mode = .priv) (hz : s.sp = .int z) (hj : j < 21) (hp : Poppable s z j)
    (hmin : s.cfg.intMin ≤ z - j) :
    ∃ t f, exec .restore s = finish ((pop t).bind f) ∧ t.sp = .int (z - j) ∧ t.mode = .priv ∧ t.diskOp = s.diskOp ∧ t.peek = s.peek := by
  obtain ⟨hlen, hn, hsp, -⟩ := backupOrder_facts hc
  obtain ⟨-, hmax, -⟩ := hc.inDomain
  obtain ⟨l, hl⟩ : ∃ l, l = s.cfg.backupOrder.reverse := ⟨_, rfl⟩
  have hlen' : l.length = 21 := by rw [hl, List.length_reverse, hlen]
  have htake : (l.take j).length = j := by rw [List.length_take]; omega
  obtain ⟨t, ht, hi⟩ := popAll_of (rs := l.take j) hm hz (fun h => hsp (by simpa [hl] using List.mem_of_mem_take h))
    ((List.take_sublist j l).nodup (hl ▸ List.nodup_reverse.2 hn)) (htake.symm ▸ hp) (by rwa [htake]) hmax
  have hdrop := List.drop_eq_getElem_cons (l := l) (i := j) (by omega)
  have hx : popAll l s = (pop t).bind fun v s' => popAll (l.drop (j + 1)) (s'.setReg l[j] v) := by
    conv_lhs => rw [← List.take_append_drop j l, popAll_append, ht, Res.bind_ok, hdrop, popAll]
  exact ⟨t, _, by rw [exec_restore hm, ← hl, hx, Res.bind_assoc], by rw [hi.sp, htake], hi.frame.mode.trans hm, hi.frame.controller.diskOp, funext fun a => hi.frame.mem a (by simp)⟩

/-- RESTORE, where all its pops answer. -/
theorem exec_restore_of (hc : s.cfg.Admissible) (hm : s.mode = .priv) (hz : s.sp = .int z) (hip : s.ip = .int m) (hp : Poppable s z 21)
    (hmin : 0 ≤ z - 21) : ∃ t, exec .restore s = .next { t with ip := .int (m + 2) } ∧ Popped s.cfg.backupOrder.reverse z s t := by
  obtain ⟨hlen, hn, hsp, hipn⟩ := backupOrder_facts hc
  obtain ⟨h0, hmax, -⟩ := hc.inDomain
  have hlen' : s.cfg.backupOrder.reverse.length = 21 := by rw [List.length_reverse, hlen]
  obtain ⟨t, ht, hi⟩ := popAll_of (rs := s.cfg.backupOrder.reverse) hm hz (by simpa using hsp) (List.nodup_reverse.2 hn) (hlen'.symm ▸ hp)
    (by rw [hlen']; exact h0.trans hmin) hmax
  have hipt : t.ip = .int m := (hi.frame.regs .ip (by simpa using hipn)).trans hip
  exact ⟨t, by rw [exec_restore hm, ht, Res.bind_ok, advance_int hipt, finish_ok], hi⟩

/-- Settles O36: the 21 pops. -/
theorem restorePopsTheRegisters : Obligations.RestorePopsTheRegisters := by
  intro s n z vs hc hm hip hz hz1 hvs hpeek hl
  obtain ⟨hlen, -, hsp, hipn⟩ := backupOrder_facts hc
  obtain ⟨t, hx, hi⟩ := exec_restore_of hc hm hz hip (fun i hi => ⟨z + 1 + (20 - i), by push_cast [show i ≤ 20 by omega]; ring, by omega,
    by rw [show z + 1 + (20 - i) = z + (21 - i) by omega]; exact hl (21 - i) (by omega) (by omega),
    vs[20 - i], hpeek _ _ (List.getElem?_eq_getElem (by omega))⟩) (by omega)
  have hspt : t.sp = .int z := by rw [hi.sp, List.length_reverse, hlen]; congr 1; omega
  refine ⟨_, hx, hspt, rfl, fun j r v hr hv => ?_, ?_, hi.p0Valid⟩
  · obtain ⟨hj, hrev⟩ := getElem?_reverse_of hlen hr
    have hw := hi.word (20 - j) r (z + 1 + j) hrev (by push_cast [show j ≤ 20 by omega]; ring)
    rw [hpeek j v hv] at hw
    rw [State.reg_withIp _ _ _ (fun he => hipn (he ▸ List.mem_of_getElem? hr))]
    exact (Option.some.inj hw).symm
  · exact (hi.frame.mono (by simp +contextual)).trans (frame_ip _ (by simp))

/-- Settles O37: what RESTORE pops is what BACKUP pushed. -/
theorem restoreUndoesBackup : Obligations.RestoreUndoesBackup := by
  intro s u w n m z hc hw hm hip hz hz0 hz1 hx hcfg hwm hwip hwsp hkept
  obtain ⟨hlen, -, hsp, hipn⟩ := backupOrder_facts hc
  obtain ⟨t, ht⟩ : ∃ t, pushAll s.cfg.backupOrder s = .ok () t := by
    rw [exec_backup hm] at hx
    rcases finish_next.1 hx with ⟨_, h⟩ | ⟨c, s', h, hr⟩
    · obtain ⟨_, t, ht, -⟩ := Res.bind_eq_ok.1 h
      exact ⟨t, ht⟩
    · rcases Res.bind_eq_exc.1 h with h | ⟨_, _, -, h⟩
      · rw [raise_priv ((pushAll_exc_mode h).trans hm)] at hr; cases hr
      · exact absurd h advance_ne_exc
  obtain ⟨hx', hp⟩ := exec_backup_of hm hsp hz hip ht
  obtain rfl := Host.Outcome.next.inj (hx.symm.trans hx')
  have hwsp' : w.sp = .int (z + 21) := by rw [hwsp]; show t.sp = _; rw [hp.same, hlen]; rfl
  have hword : ∀ (j : Nat) (r : Reg), s.cfg.backupOrder[j]? = some r → w.peek (z + (j + 1)) = some (s.reg r) := fun j r hr => by
    have hj := (getElem?_reverse_of hlen hr).1
    rw [(hkept (j + 1) (by omega) (by omega)).1]
    exact hp.word hw j r _ hr (by push_cast; ring)
  obtain ⟨x, hrx, hi⟩ := exec_restore_of (s := w) (hcfg ▸ hc) hwm hwsp' hwip (fun i hi => ⟨z + (20 - i + 1), by push_cast [show i ≤ 20 by omega]; ring,
    by omega, (hkept (20 - i + 1) (by omega) (by omega)).2, _, hword (20 - i) _ (List.getElem?_eq_getElem (by omega))⟩) (by omega)
  rw [hcfg] at hi
  refine ⟨_, hrx, ?_, fun r hr => ?_⟩
  · show x.sp = s.sp
    rw [hi.sp, List.length_reverse, hlen, hz]; congr 1; omega
  · obtain ⟨j, hj⟩ := List.getElem?_of_mem hr
    obtain ⟨hlt, hrev⟩ := getElem?_reverse_of hlen hj
    have hwx := hi.word (20 - j) r (z + (j + 1)) hrev (by push_cast [show j ≤ 20 by omega]; ring)
    rw [hword j r hj] at hwx
    rw [State.reg_withIp _ _ _ (fun he => hipn (he ▸ hr))]
    exact (Option.some.inj hwx).symm

end Sys2Proof.Machine
end

/-! ### What stops a memory access (R12, R46, R72, R106 to R109, R114, R115, R138) -/

section
namespace Sys2Proof.Machine

variable {s s1 s2 t : State} {dst src a : Reg} {L v : Word} {n m z target : Int} {j p : Nat} {c : Cause} {x : Res Word} {r : Refusal}

/-! #### Each instruction ends as its access does -/

theorem movReg_exc (h : x = .exc c t) : finish (movReg dst x) = raise c t := by rw [h]; rfl

theorem movMem_exc {addr : State → Res Word} (hr : readReg src s = .ok v s1) (ha : addr s1 = .ok L s2) (hm : memAddr .write L s2 = .exc c t) :
    finish (movMem src addr s) = raise c t := by
  rw [movMem, hr, Res.bind_ok, ha, Res.bind_ok, memWrite_trap hm]; rfl

theorem movMem_barred {addr : State → Res Word} (hr : readReg src s = .ok v s1) (ha : addr s1 = .ok L s2)
    (hm : memAddr .write L s2 = .ok p t) (hw : ∀ w, physWrite p w t = .refuse r) : finish (movMem src addr s) = .refused r := by
  rw [movMem, hr, Res.bind_ok, ha, Res.bind_ok, memWrite_eq hm, hw]; rfl

theorem exec_push_exc (h : Accepts [src] s) (hr : readReg src s = .ok v s1) (hp : push v s1 = .exc c t) : exec (.push src) s = raise c t := by
  rw [exec_push h hr, hp]; rfl

theorem exec_call_exc (hip : s.ip = .int n) (hp : ∀ w, push w s = .exc c t) :
    ∃ j, exec (.call target) s = raise c { t with freeCount := j } ∧ (immInRange s.cfg (n + 2) = true → j = s.freeCount) := by
  obtain ⟨j, hj, hin⟩ := pushReturn_trap (ip := n) hp
  exact ⟨j, by rw [exec_call hip, hj]; rfl, hin⟩

theorem exec_pop_exc (h : Accepts [dst] s) (hp : pop s = .exc c t) : exec (.pop dst) s = raise c t := by rw [exec_pop h, hp]; rfl

theorem exec_ret_exc (hp : pop s = .exc c t) : exec .ret s = raise c t := by rw [exec_ret, hp]; rfl

/-! #### BACKUP and RESTORE -/

theorem pushAll_str (hc : s.cfg.Admissible) (h : ∃ cs, s.sp = .str cs) : pushAll s.cfg.backupOrder s = .exc (.illegalMem s.sp) s := by
  obtain ⟨q, qs, hq⟩ := List.exists_cons_of_length_eq_add_one (backupOrder_facts hc).1
  rw [hq, pushAll, push_str h, Res.bind_exc]

theorem popAll_str (hc : s.cfg.Admissible) (h : ∃ cs, s.sp = .str cs) : popAll s.cfg.backupOrder.reverse s = .exc (.illegalMem s.sp) s := by
  obtain ⟨q, qs, hq⟩ := List.exists_cons_of_length_eq_add_one (List.length_reverse.trans (backupOrder_facts hc).1)
  rw [hq, popAll, pop_str h, Res.bind_exc]

section
variable (hc : s.cfg.Admissible) (hm : s.mode = .priv) (hz : s.sp = .int z) (hj : j < 21)
include hc hm hz hj

/-- BACKUP faults at a push outside memory. -/
theorem exec_backup_outside (hp : Pushable s z j) (ho : z + 1 + j < 0 ∨ 65535 < z + 1 + j) :
    exec .backup s = .fault (.privileged (.illegalMem (.int (z + 1 + j)))) := by
  obtain ⟨t, v, f, hx, ht⟩ := exec_backup_stops hc hm hz hj hp
  have hmt : t.mode = .priv := by rw [ht]; exact hm
  have he : z + j + 1 = z + 1 + j := by omega
  have hpush : push v t = .exc (.illegalMem (.int (z + j + 1))) t :=
    push_trap (by rw [ht]) (memAddr_priv_outside hmt (by omega)) v
  rw [hx, hpush, he, Res.bind_exc, finish_exc, raise_priv hmt]

/-- BACKUP is refused at a push that is barred. -/
theorem exec_backup_barred (hp : Pushable s z j) (hzp : z + 1 + j = p) (hle : p ≤ 65535) (hw : ∀ t w, t.diskOp = s.diskOp → physWrite p w t = .refuse r) :
    exec .backup s = .refused r := by
  obtain ⟨t, v, f, hx, ht⟩ := exec_backup_stops hc hm hz hj hp
  have hpush : push v t = .refuse r :=
    push_barred (by rw [ht]) (memAddr_priv (by rw [ht]; exact hm) (by omega) hle) (hw t v (by rw [ht]))
  rw [hx, hpush, Res.bind_refuse, finish_refuse]

/-- RESTORE faults at a pop outside memory. -/
theorem exec_restore_outside (hp : Poppable s z j) (ho : z - j < 0 ∨ 65535 < z - j) (hmin : s.cfg.intMin ≤ z - j) :
    exec .restore s = .fault (.privileged (.illegalMem (.int (z - j)))) := by
  obtain ⟨t, f, hx, hzt, hmt, -⟩ := exec_restore_stops hc hm hz hj hp hmin
  rw [hx, pop_trap hzt (memAddr_priv_outside hmt ho), Res.bind_exc, finish_exc, raise_priv hmt]

/-- RESTORE ends as its first pop that does not answer. -/
theorem exec_restore_read (hp : Poppable s z j) (hzp : z - j = p) (hle : p ≤ 65535) :
    ∃ t f, exec .restore s = finish (((physRead p t).bind fun v s => (dropTop (z - j) s).bind fun _ s => .ok v s).bind f) ∧
      t.diskOp = s.diskOp ∧ t.peek = s.peek := by
  obtain ⟨h0, -⟩ := hc.inDomain
  obtain ⟨t, f, hx, hzt, hmt, hd, hpk⟩ := exec_restore_stops hc hm hz hj hp (by omega)
  exact ⟨t, f, by rw [hx, pop_int hzt, memRead_eq (memAddr_priv hmt hzp hle)], hd, hpk⟩

end

/-- Settles O38: the exception condition of the address is the instruction's. -/
theorem memoryOperandsAndStackTrap : Obligations.MemoryOperandsAndStackTrap := by
  refine fun s s1 s2 t c dst src a L v n m z target => ⟨fun h hr hm => ?_, fun h hm => ?_, fun h hr ha hm => ?_, fun h hr hm => ?_,
    fun hz => ⟨fun h hr hm => ?_, fun hip hm => ?_, fun hm => ⟨fun h => exec_pop_exc h (pop_trap hz hm), exec_ret_exc (pop_trap hz hm)⟩⟩,
    fun hs => ⟨fun h hr => ?_, fun hip => exec_call_exc hip (push_str hs), fun h => exec_pop_exc h (pop_str hs), exec_ret_exc (pop_str hs),
      fun hmode hc => ⟨?_, ?_⟩⟩,
    fun j hj hmode hc hz => ⟨exec_backup_outside hc hmode hz hj, exec_restore_outside hc hmode hz hj⟩⟩
  · rw [exec_movRegIndReg h hr, movReg_exc (memRead_trap hm)]
  · rw [exec_movRegIndImm h, movReg_exc (memRead_trap hm)]
  · rw [exec_movIndRegReg h, movMem_exc hr ha hm]
  · rw [exec_movIndImmReg h, movMem_exc (addr := fun s => .ok (.int m) s) hr rfl hm]
  · exact exec_push_exc h hr (push_trap (by rw [readReg_state hr, hz]) hm v)
  · obtain ⟨rfl, -⟩ := memAddr_exc hm
    exact exec_call_exc hip (push_trap hz hm)
  · have hsp : s1.sp = s.sp := by rw [readReg_state hr]
    exact exec_push_exc h hr (hsp ▸ push_str (hsp.symm ▸ hs) v)
  · rw [exec_backup hmode, pushAll_str hc hs, Res.bind_exc, finish_exc, raise_priv hmode]
  · rw [exec_restore hmode, popAll_str hc hs, Res.bind_exc, finish_exc, raise_priv hmode]

/-- A push of the return address that is barred. -/
theorem pushReturn_barred (h : ∀ w, push w s = .refuse r) (ip : Int) : pushReturn ip s = .refuse r := by
  obtain ⟨w, j, -, hj, -⟩ := pushReturn_eq ip s
  rw [hj, h]; rfl

/-- Settles O39: the end of the access is the instruction's. -/
theorem barredMemoryStopsTheInstruction : Obligations.BarredMemoryStopsTheInstruction := by
  refine fun s s1 s2 t dst src a L v n m z k target p x out r => ⟨fun hx hp => ?_, fun hw => ⟨fun h hr ha hm => ?_, fun h hr hm => ?_,
    fun hz => ⟨fun h hr hm => ?_, fun hip hm => ?_⟩⟩, fun j hj hmode hc hz => ⟨fun hpj hzp => ⟨fun hrom => ?_, fun h512 hle hl => ?_⟩,
      fun hpj hzp hle => ?_⟩⟩
  · have hfin : ∀ f, finish (x.bind f) = out := fun f => by
      rcases hx with ⟨_, rfl, rfl⟩ | ⟨_, rfl, rfl⟩ <;> rfl
    subst hp
    refine ⟨fun h hr hm => ?_, fun h hm => ?_, fun hz hm => ?_⟩
    · rw [exec_movRegIndReg h hr, memRead_eq hm]; exact hfin _
    · rw [exec_movRegIndImm h, memRead_eq hm]; exact hfin _
    · have hpop : ∀ f, finish ((pop s).bind f) = out := fun f => by rw [pop_int hz, memRead_eq hm, Res.bind_assoc]; exact hfin _
      exact ⟨fun h => by rw [exec_pop h]; exact hpop _, hpop _⟩
  · rw [exec_movIndRegReg h, movMem_barred hr ha hm hw]
  · rw [exec_movIndImmReg h, movMem_barred (addr := fun s => .ok (.int m) s) hr rfl hm hw]
  · rw [exec_push h hr, push_barred (by rw [readReg_state hr, hz]) hm (hw v)]; rfl
  · have hpush := pushReturn_barred (fun w => push_barred hz hm (hw w)) n
    exact ⟨by rw [exec_call hip, hpush]; rfl, fun hu h0 h18 => by rw [exec_intr hu h0 h18 hip, hpush]; rfl⟩
  · exact exec_backup_barred hc hmode hz hj hpj hzp (by omega) fun t w _ => physWrite_rom hrom w t
  · exact exec_backup_barred hc hmode hz hj hpj hzp hle fun t w hd => physWrite_locked h512 (fun hu => hl (hu.of_diskOp hd.symm)) w
  · obtain ⟨t, f, ht, hd, hpk⟩ := exec_restore_read hc hmode hz hj hpj hzp hle
    have hlock : readLocked t p = readLocked s p := by unfold readLocked; rw [hd]
    refine ⟨fun hl => ?_, fun hl hv => ?_⟩
    · rw [ht, physRead_locked (hlock.trans hl)]; rfl
    · rw [ht, physRead_none (hlock.trans hl) (by rw [hpk, hv])]; rfl

end Sys2Proof.Machine
end

/-! ### The instructions of an open ISA_EXT (R9) -/

section
namespace Sys2Proof.Machine

variable {s s2 s3 t : State} {i : Instr} {e : Effect} {as : List (Nat × Word)} {r : Reg} {v : Word} {n : Int} {cfg : Config}

/-! #### What it stores and the registers it writes -/

/-- What the stores leave: the words at their addresses, and the rest as it was. -/
structure Stored (as : List (Nat × Word)) (s t : State) : Prop where
  frame : Frame [] (as.map Prod.fst) s t
  p0Valid : t.p0Valid = s.p0Valid
  word : (as.map Prod.fst).Nodup → ∀ a v, (a, v) ∈ as → t.peek a = some (fitWord s.cfg v)

theorem storeAll_stored (ha : ∀ x ∈ as, x.1 < 65536) (hw : s.memWf) (h : storeAll as s = .ok () t) : Stored as s t := by
  induction as generalizing s with
  | nil => cases h; exact ⟨.refl _ _ _, rfl, fun _ _ _ hm => nomatch hm⟩
  | cons x as ih =>
    obtain ⟨a, v⟩ := x
    obtain ⟨hlt, ha⟩ := List.forall_mem_cons.1 ha
    obtain ⟨_, u, hu, hrest⟩ := Res.bind_eq_ok.1 h
    obtain ⟨-, -, rfl⟩ := physWrite_ok.1 hu
    have hi := ih ha (poke_memWf hw hlt _) hrest
    refine ⟨?_, hi.p0Valid, fun hn b w hm => ?_⟩
    · exact ((frame_poke hw a _ _).monoMem (by simp)).trans (hi.frame.monoMem fun b hb => List.mem_cons_of_mem _ hb)
    · obtain ⟨hna, hn⟩ := List.nodup_cons.1 hn
      rcases List.mem_cons.1 hm with he | hm
      · cases he
        rw [hi.frame.mem a hna, peek_poke hw, if_pos rfl]
      · exact hi.word hn b w hm

/-- Each register that may be written holds the word written last. -/
theorem setAll_word {ws : List (Reg × Word)} (hn : (ws.map Prod.fst).Nodup) (hmay : mayWrite s.cfg i r = true) (hmem : (r, v) ∈ ws) :
    (setAll i ws s).reg r = fitWord s.cfg v := by
  induction ws generalizing s with
  | nil => exact nomatch hmem
  | cons x ws ih =>
    obtain ⟨hq, hn⟩ := List.nodup_cons.1 hn
    rw [setAll]
    rcases List.mem_cons.1 hmem with rfl | hmem
    · have hf : Frame (ws.map Prod.fst) [] (s.setReg r (fitWord s.cfg v)) (setAll i ws (s.setReg r (fitWord s.cfg v))) :=
        setAll_frame fun x hx => List.mem_map_of_mem hx
      rw [if_pos hmay, hf.regs r hq, State.reg_setReg_self]
    · have hcfg : (if mayWrite s.cfg i x.1 = true then s.setReg x.1 (fitWord s.cfg x.2) else s).cfg = s.cfg := by split_ifs <;> simp
      rw [ih hn (by rwa [hcfg]) hmem, hcfg]

/-- R150, log 24: a status register that the instruction does not name, or where R150 binds it no MOV. -/
theorem mayWrite_status (hr : isStatus r = true) (h : r ∉ instrRegs i ∨ (i.mnemonic ≠ .mov ∧ cfg.statusWrites = .byMov)) :
    mayWrite cfg i r = false := by
  rcases h with h | ⟨hm, hs⟩
  · simp [mayWrite, hr, h]
  · have hs' : (cfg.statusWrites == .byName) = false := by rw [hs]; rfl
    simp [mayWrite, hr, hm, hs']

theorem Effect.validates_iff : e.validates i = true ↔ i.mnemonic = .mov ∧ ∃ v, (.port 0, v) ∈ e.regs := by
  simp only [Effect.validates, Bool.and_eq_true, beq_iff_eq, List.any_eq_true, Prod.exists]
  refine and_congr_right fun _ => ⟨fun ⟨q, v, hm, hq⟩ => ⟨v, hq ▸ hm⟩, fun ⟨v, hm⟩ => ⟨_, v, hm, rfl⟩⟩

/-! #### Its effect -/

/-- R128, R129: what an effect that only PRIV mode admits asks for. -/
theorem Effect.needsPriv_of (h : (∃ r v, (r, v) ∈ e.regs ∧ r.privileged = true) ∨ e.ending = .toUnpriv ∨ e.ending = .halt) :
    e.needsPriv = true := by
  simp only [Effect.needsPriv, Bool.or_eq_true, List.any_eq_true, Prod.exists, beq_iff_eq]
  rcases h with ⟨r, v, h⟩ | h | h
  · exact .inl (.inl ⟨r, v, h⟩)
  · exact .inl (.inr h)
  · exact .inr h

section
variable (hp : s.mode = .priv ∨ e.needsPriv = false)
include hp

theorem Effect.apply_exc {c : Cause} (hl : locateAll e.stores s = .exc c s2) : e.apply i s = .exc c s2 := by
  rw [Effect.apply, if_neg (by rcases hp with h | h <;> simp [h]), hl, Res.bind_exc]

variable (hl : locateAll e.stores s = .ok as s2)
include hl

theorem Effect.apply_arith (hend : e.ending = .arith) : e.apply i s = .exc .arith s2 := by
  rw [Effect.apply, if_neg (by rcases hp with h | h <;> simp [h]), hl, Res.bind_ok, hend]

theorem Effect.apply_refuse (hend : e.ending = .refuse) : e.apply i s = .refuse .extension := by
  rw [Effect.apply, if_neg (by rcases hp with h | h <;> simp [h]), hl, Res.bind_ok, hend]

/-- An effect that writes: its stores, its registers and its end. -/
theorem Effect.apply_writes (hend : e.ending = .goOn ∨ e.ending = .toUnpriv ∨ e.ending = .halt) (hst : storeAll as s2 = .ok () s3) :
    e.apply i s = (e.conclude (setAll i e.regs s3)).bind fun _ t => .ok () { t with p0Valid := t.p0Valid || e.validates i } := by
  rw [Effect.apply, if_neg (by rcases hp with h | h <;> simp [h]), hl, Res.bind_ok]
  rcases hend with h | h | h <;> rw [h] <;> dsimp only <;> rw [hst, Res.bind_ok]

end

/-- R17: going on, IP is the word the effect gives or the next instruction's address. -/
theorem Effect.conclude_goOn (hend : e.ending = .goOn) (hip : s.ip = .int n) :
    e.conclude s = .ok () { s with ip := (e.target.map (fitWord s.cfg)).getD (.int (n + 2)) } := by
  unfold Effect.conclude
  rw [hend]
  cases e.target with
  | none => exact advance_int hip
  | some w => rfl

theorem Effect.conclude_target (hend : e.ending = .toUnpriv) (ht : e.target = some v) (hc : s.cfg = cfg) :
    e.conclude s = .ok () { s with ip := fitWord cfg v, mode := .unpriv } := by
  subst hc
  unfold Effect.conclude; rw [hend, ht]

theorem Effect.conclude_return (hend : e.ending = .toUnpriv) (ht : e.target = none) : e.conclude s = returnFromTrap s := by
  unfold Effect.conclude; rw [hend, ht]

theorem Effect.conclude_halt (hend : e.ending = .halt) : e.conclude s = .ok () { abandonStore s with halted := true } := by
  unfold Effect.conclude; rw [hend]

/-- What an effect has written before its end: the words stored and the registers set. -/
structure Written (i : Instr) (e : Effect) (as : List (Nat × Word)) (s2 t : State) : Prop where
  frame : Frame (e.regs.map Prod.fst) (as.map Prod.fst) s2 t
  ip : t.ip = s2.ip
  p0Valid : t.p0Valid = s2.p0Valid
  kept : ∀ r, mayWrite s2.cfg i r = false → t.reg r = s2.reg r
  reg : (e.regs.map Prod.fst).Nodup → ∀ r v, (r, v) ∈ e.regs → mayWrite s2.cfg i r = true → t.reg r = fitWord s2.cfg v
  word : (as.map Prod.fst).Nodup → ∀ a v, (a, v) ∈ as → t.peek a = some (fitWord s2.cfg v)

theorem written_of_storeAll (hl : locateAll e.stores s = .ok as s2) (hw : s.memWf) (hst : storeAll as s2 = .ok () s3) :
    Written i e as s2 (setAll i e.regs s3) := by
  obtain ⟨hc, ha, -⟩ := locateAll_ok hl
  have h := storeAll_stored ha (hc.wf hw) hst
  have hcfg : s3.cfg = s2.cfg := h.frame.devices.cfg
  have hreg : ∀ q, s3.reg q = s2.reg q := fun q => h.frame.regs q (by simp)
  have hf : Frame (e.regs.map Prod.fst) (as.map Prod.fst) s3 (setAll i e.regs s3) := setAll_frame fun x hx => List.mem_map_of_mem hx
  have hset : ∀ a, (setAll i e.regs s3).peek a = s3.peek a :=
    fun a => (setAll_frame (as := []) fun x hx => List.mem_map_of_mem hx : Frame (e.regs.map Prod.fst) [] _ _).mem a (by simp)
  refine ⟨(h.frame.mono (by simp)).trans hf, (setAll_ip _).trans (hreg .ip), (setAll_p0Valid _).trans h.p0Valid, fun r hr => ?_,
    fun hn r v hm hr => ?_, fun hn a v hm => ?_⟩
  · rw [setAll_reg (by rwa [hcfg]), hreg]
  · rw [setAll_word hn (by rwa [hcfg]) hm, hcfg]
  · rw [hset, h.word hn a v hm]

/-! #### The instruction -/

theorem extension_unpriv (hm : s.mode = .unpriv) (h : Config.openPrivileged i = true) : extension i s = .exc .illegalInstr s := if_pos ⟨hm, h⟩

theorem extension_admitted (h : s.mode = .priv ∨ Config.openPrivileged i = false) :
    extension i s = (checkRegs (instrRegs i) s).bind fun _ s =>
      ((behaviourOf i s).run { s with freeCount := s.freeCount + 1 }).bind fun e s => e.apply i s :=
  if_neg (by rcases h with h | h <;> simp [h])

/-- Settles O50: the checks, the reads, the translations, the writes and the end, in that order. -/
theorem openInstructionsObeyTheMachinesRules : Obligations.OpenInstructionsObeyTheMachinesRules := by
  refine fun s s1 s2 s3 i e as c n => ⟨extension_unpriv, fun h => ⟨fun hip => ?_, fun hip hm hr => ?_, fun ha => ⟨fun hb => ?_, fun hb => ?_⟩⟩,
    fun L next => ⟨fun h => ?_, fun v h => ?_⟩, fun hm => ⟨fun r hr => if_pos ⟨hm, hr⟩, fun h => if_pos ⟨hm, Effect.needsPriv_of h⟩⟩,
    fun hp => ⟨Effect.apply_exc hp, fun hl => ⟨Effect.apply_arith hp hl, Effect.apply_refuse hp hl, fun hend hw hip hst => ?_,
      fun v hend ht hw hst => ?_, fun hend ht hst => ?_, fun hend hw hst => ?_⟩⟩⟩
  · rw [extension_admitted h, checkRegs_ip hip, Res.bind_refuse]
  · rw [extension_admitted h, checkRegs_privileged hip hm hr, Res.bind_exc]
  · rw [extension_admitted h, checkRegs_accepts ha, Res.bind_ok, hb, Res.bind_exc]
  · rw [extension_admitted h, checkRegs_accepts ha, Res.bind_ok, hb, Res.bind_ok]
  · rw [Behaviour.run, h, Res.bind_exc]
  · rw [Behaviour.run, h, Res.bind_ok]
  · have hc := (locateAll_ok hl).1
    have h := written_of_storeAll (i := i) hl hw hst
    have hcfg : s2.cfg = s.cfg := hc.cfg
    have hne : ∀ {r}, mayWrite s.cfg i r = true → r ≠ .ip := mayWrite_ne_ip
    rw [Effect.apply_writes hp hl (.inl hend) hst, Effect.conclude_goOn hend (h.ip.trans (hc.ip.trans hip)), Res.bind_ok]
    have hreg : ∀ (q : Reg) (w : Word) (b : Bool), q ≠ .ip → ({ setAll i e.regs s3 with ip := w, p0Valid := b } : State).reg q = (setAll i e.regs s3).reg q :=
      fun q w b hq => by cases q <;> first | rfl | exact absurd rfl hq
    refine ⟨_, rfl, ⟨fun q hq => ?_, h.frame.mem, h.frame.mode, ?_, ?_⟩, ?_, ?_, fun r hr hno => ?_, fun hn r v hm hmay => ?_,
      fun hn a v hm => ?_⟩
    · rw [hreg _ _ _ (by rintro rfl; exact hq (by simp)), h.frame.regs q fun hm => hq (List.mem_cons_of_mem _ hm)]
    · exact h.frame.devices.trans (by constructor <;> rfl)
    · exact h.frame.controller.trans ⟨rfl, rfl, fun _ => rfl⟩
    · rw [setAll_cfg, show s3.cfg = s.cfg by rw [← hcfg, ← h.frame.devices.cfg, setAll_cfg]]
      cases e.target <;> rfl
    · rw [Bool.or_eq_true, Effect.validates_iff, h.p0Valid, hc.same]
    · have hs := isStatus_of_mem hr
      rw [hreg _ _ _ (by rintro rfl; cases hs), h.kept r (by rw [hcfg]; exact mayWrite_status hs hno), hc.reg]
    · rw [hreg _ _ _ (hne hmay), h.reg hn r v hm (by rwa [hcfg]), hcfg]
    · rw [← hcfg]; exact h.word hn a v hm
  · have h := written_of_storeAll (i := i) hl hw hst
    have hcfg : (setAll i e.regs s3).cfg = s.cfg := h.frame.devices.cfg.trans (locateAll_ok hl).1.cfg
    rw [Effect.apply_writes hp hl (.inr (.inl hend)) hst, Effect.conclude_target hend ht hcfg, Res.bind_ok]
    refine ⟨_, rfl, rfl, rfl, fun q hq => ?_, h.frame.mem, h.frame.devices.trans (by constructor <;> rfl),
      h.frame.controller.trans ⟨rfl, rfl, fun _ => rfl⟩⟩
    rw [← h.frame.regs q fun hm => hq (List.mem_cons_of_mem _ hm)]
    cases q <;> first | rfl | exact absurd (List.mem_cons_self ..) hq
  · rw [Effect.apply_writes hp hl (.inr (.inl hend)) hst, Effect.conclude_return hend ht]
    exact ⟨fun t h => ⟨_, by rw [h, Res.bind_ok]⟩, fun f h => by rw [h]; rfl, fun r h => by rw [h]; rfl⟩
  · have h := written_of_storeAll (i := i) hl hw hst
    have hmode := h.frame.mode.trans (congrArg State.mode (locateAll_ok hl).1.same)
    obtain ⟨d, k, hab⟩ := abandonStore_same (setAll i e.regs s3)
    rw [Effect.apply_writes hp hl (.inr (.inr hend)) hst, Effect.conclude_halt hend, Res.bind_ok, hab]
    refine ⟨_, rfl, rfl, hmode, fun q hq => ?_, h.frame.mem, ?_⟩
    · rw [← h.frame.regs q hq]; cases q <;> rfl
    · obtain ⟨d1, d2, d3, d4, d5, d6, -, d8, d9, d10⟩ := h.frame.devices
      exact ⟨d1, d2, d3, d4, d5, d6, rfl, d8, d9, d10⟩

end Sys2Proof.Machine
end
